-- ==== Sys2Proof/Word.lean ====
section
/-! DEFINITION. The word types of the protocol engine (00_scope.md R8, R10, R12). All values are unsigned. -/

namespace Sys2Proof

/-- `DATA_BITS = 8`: the unit of programming and verification (R8, R53). -/
abbrev Byte := BitVec 8

/-- `SR_BITS = 24`: a value that is shifted into the chain (R8, R10). -/
abbrev Addr := BitVec 24

/-- `ADDR_BITS = 19`: an address as the chip sees it (R8, R23). -/
abbrev ChipAddr := BitVec 19

/-- `ADDR_BITS + 1 = 20`: scan addresses and results, 0 to MAX_ADDRESS inclusive (R10). -/
abbrev Count := BitVec 20

/-- A host command word (R70). -/
abbrev CmdWord := BitVec 36

end Sys2Proof
end

