-- ==== Sys2Proof/Syntax.lean ====
section
/-! DEFINITION. The commands of the block: one constructor for each row of spec/opcode_table.json (30_encoding.md R72, R74),
holding only the fields the operation reads (R73), and the text form of a command (R83). -/

namespace Sys2Proof

/-- A decoded command. -/
inductive Instr where
  /-- 0x1 SHIFT_ADDR addr (R89). -/
  | shiftAddr (addr : Addr)
  /-- 0x2 ENTER_READ (R97). -/
  | enterRead
  /-- 0x3 ENTER_WRITE (R98). -/
  | enterWrite
  /-- 0x4 SET_DATA data (R99). -/
  | setData (data : Byte)
  /-- 0x5 READ_BYTE addr (R100). -/
  | readByte (addr : Addr)
  /-- 0x6 WRITE_BYTE addr, data (R109). -/
  | writeByte (addr : Addr) (data : Byte)
  /-- 0x7 ERASE_CHIP (R110). -/
  | eraseChip
  /-- 0x8 OP_ERASE (R120). -/
  | opErase
  /-- 0x9 OP_VERIFY_ERASED (R121). -/
  | opVerifyErased
  /-- 0xA OP_WRITE (R122). -/
  | opWrite
  /-- 0xB OP_VERIFY_WRITTEN (R123). -/
  | opVerifyWritten
  /-- 0xC OP_PROGRAM (R124). -/
  | opProgram
  /-- 0x0, reserved (R74). -/
  | reserved0
  /-- 0xD, reserved (R74). -/
  | reservedD
  /-- 0xE, reserved (R74). -/
  | reservedE
  /-- 0xF, reserved (R74). -/
  | reservedF
  deriving DecidableEq, Repr

/-- One line of the text form, `MNEMONIC [addr][, data]`, before its operands are checked (R83). -/
structure AsmCommand where
  mnemonic : String
  operands : List Nat
  deriving DecidableEq, Repr

end Sys2Proof
end

