-- ==== Sys2Proof/WellFormed.lean ====
section
/-! DEFINITION. The checks of the spec on commands: which opcodes are legal (30_encoding.md R74), which numbers are command words
(R70), and the checks of the text form (R83). -/

namespace Sys2Proof

/-- A legal command: one whose opcode selects an operation (R74). A reserved opcode is illegal; it still has a meaning, the
error of R136. -/
def Instr.legal : Instr → Bool
  | .reserved0 | .reservedD | .reservedE | .reservedF => false
  | _ => true

/-- A number that is a command word: it fits 36 bits (R70). -/
def isCommandWord (w : Nat) : Bool := w < 2 ^ 36

/-- An operand of the text form: the address or the byte (R83). -/
inductive OperandKind where
  | addr | data
  deriving DecidableEq, Repr

/-- R83: `addr` is 0 to 0xFFFFFF, `data` is 0 to 0xFF. -/
def OperandKind.fits : OperandKind → Nat → Bool
  | .addr, n => n ≤ 0xFFFFFF
  | .data, n => n ≤ 0xFF

/-- R72, R83: the operands each mnemonic takes, in their order. A reserved opcode has no mnemonic (P2). -/
def operandKinds : String → Option (List OperandKind)
  | "SHIFT_ADDR" => some [.addr]
  | "ENTER_READ" => some []
  | "ENTER_WRITE" => some []
  | "SET_DATA" => some [.data]
  | "READ_BYTE" => some [.addr]
  | "WRITE_BYTE" => some [.addr, .data]
  | "ERASE_CHIP" => some []
  | "OP_ERASE" => some []
  | "OP_VERIFY_ERASED" => some []
  | "OP_WRITE" => some []
  | "OP_VERIFY_WRITTEN" => some []
  | "OP_PROGRAM" => some []
  | _ => none

/-- Each operand fits its kind, and there are exactly as many as the kinds. -/
def operandsFit : List OperandKind → List Nat → Bool
  | [], [] => true
  | k :: ks, n :: ns => k.fits n && operandsFit ks ns
  | _, _ => false

/-- A text command that R83 admits: a known mnemonic with its operands, each in its range. That no listed operand may be left out is the
model's choice (entry 18). -/
def AsmCommand.wellFormed (c : AsmCommand) : Bool :=
  match operandKinds c.mnemonic with
  | none => false
  | some ks => operandsFit ks c.operands

end Sys2Proof
end

