-- ==== Sys2Proof/Decode.lean ====
section
/-! DEFINITION. The decoder, total on every 36-bit word (30_encoding.md R70 to R75), and after it the encoder, written from the
same table (R72). A command word arrives on a 36-bit port, not in memory (R37, R61): it has no byte order (entry 19). -/

namespace Sys2Proof

/-- `op = cmd_word[35:32]` (R70). -/
def opField (w : CmdWord) : BitVec 4 := w.extractLsb' 32 4

/-- `addr = cmd_word[31:8]` (R70). -/
def addrField (w : CmdWord) : Addr := w.extractLsb' 8 24

/-- `data = cmd_word[7:0]` (R70). -/
def dataField (w : CmdWord) : Byte := w.extractLsb' 0 8

/-- The operation a word selects (R72): `op` alone decides it, and only the fields the operation lists are read (R73). The last
row is 0xF: the fifteen values above it leave no other. -/
def decode (w : CmdWord) : Instr :=
  match opField w with
  | 0x0#4 => .reserved0
  | 0x1#4 => .shiftAddr (addrField w)
  | 0x2#4 => .enterRead
  | 0x3#4 => .enterWrite
  | 0x4#4 => .setData (dataField w)
  | 0x5#4 => .readByte (addrField w)
  | 0x6#4 => .writeByte (addrField w) (dataField w)
  | 0x7#4 => .eraseChip
  | 0x8#4 => .opErase
  | 0x9#4 => .opVerifyErased
  | 0xA#4 => .opWrite
  | 0xB#4 => .opVerifyWritten
  | 0xC#4 => .opProgram
  | 0xD#4 => .reservedD
  | 0xE#4 => .reservedE
  | _ => .reservedF

/-- Why a number is not decoded. -/
inductive DecodeReject where
  /-- The number does not fit the 36-bit command port (R70): no such word can be presented. -/
  | notACommandWord
  deriving DecidableEq, Repr

/-- Decoding of any number: a number of 36 bits decodes, a longer one is rejected by name. -/
def decodeNat (w : Nat) : Except DecodeReject Instr :=
  if isCommandWord w then .ok (decode (BitVec.ofNat 36 w)) else .error .notACommandWord

/-- The opcode of each command (R72). -/
def Instr.opcode : Instr → BitVec 4
  | .reserved0 => 0x0
  | .shiftAddr _ => 0x1
  | .enterRead => 0x2
  | .enterWrite => 0x3
  | .setData _ => 0x4
  | .readByte _ => 0x5
  | .writeByte _ _ => 0x6
  | .eraseChip => 0x7
  | .opErase => 0x8
  | .opVerifyErased => 0x9
  | .opWrite => 0xA
  | .opVerifyWritten => 0xB
  | .opProgram => 0xC
  | .reservedD => 0xD
  | .reservedE => 0xE
  | .reservedF => 0xF

/-- The address field of each command's encoding: 0 where the operation does not list it (R83). -/
def Instr.addrBits : Instr → Addr
  | .shiftAddr a | .readByte a | .writeByte a _ => a
  | _ => 0

/-- The data field of each command's encoding: 0 where the operation does not list it (R83). -/
def Instr.dataBits : Instr → Byte
  | .setData d | .writeByte _ d => d
  | _ => 0

/-- `word = op << 32 | addr << 8 | data` (R70, R83). -/
def packWord (op : BitVec 4) (a : Addr) (d : Byte) : CmdWord := op ++ a ++ d

/-- The word of a command, omitted fields 0 (R83). -/
def encode (i : Instr) : CmdWord := packWord i.opcode i.addrBits i.dataBits

/-- What the decoder reads from the instruction whose bits are `w`, numbered as spec/opcode_table.json numbers them: bit 0 is bit 0 of
the command word. The bit count plays no part, since every word is 36 bits long (R70). -/
def decodeTableWord (_nbits w : Nat) : Option Instr :=
  match decodeNat w with
  | .ok i => some i
  | .error _ => none

end Sys2Proof
end

