-- ==== Sys2Proof/Config.lean ====
section
/-! DEFINITION. What is fixed when the block is built: the widths of R8, the timing parameters of R9 (open: the model takes
them as an argument), and the one free value the spec leaves undefined (R29, entry 9). -/

namespace Sys2Proof.Config

/-- `SR_BITS = 24` (R8). -/
def srBits : Nat := 24

/-- `MAX_ADDRESS = 2^19 = 0x80000` as a number (R8). -/
def maxAddress : Nat := 0x80000

/-- `MAX_ADDRESS` as a value of the 20-bit scan address (R10, R41). -/
def maxAddr : Count := 0x80000#20

/-- The byte an erased chip byte reads as (R2, R57). -/
def erased : Byte := 0xFF#8

/-- The delays a `wait` names (R9). -/
inductive Delay where
  | settle | dir | wp | bp | sce | rd
  deriving DecidableEq, Repr

/-- The timing parameters, each a number of clock cycles; no source gives a value (R9, D3). -/
structure Timing where
  tSettle : Nat
  tDir : Nat
  tWp : Nat
  tBp : Nat
  tSce : Nat
  tRd : Nat
  deriving DecidableEq, Repr

/-- The length of a named delay. -/
def Timing.cycles (T : Timing) : Delay → Nat
  | .settle => T.tSettle
  | .dir => T.tDir
  | .wp => T.tWp
  | .bp => T.tBp
  | .sce => T.tSce
  | .rd => T.tRd

/-- The bounds of R9: each at least 1, and the direction delay longer than the settling delay. -/
def Timing.valid (T : Timing) : Bool :=
  1 ≤ T.tSettle && T.tSettle < T.tDir && 1 ≤ T.tWp && 1 ≤ T.tBp && 1 ≤ T.tSce && 1 ≤ T.tRd

/-- FREE VALUE (entry 9). What the data lines read as while the chip and the block both drive them: "d_in has no defined value"
(R29). It has no body, so nothing can be proved of it; the argument counts the draws. -/
opaque contentionByte : Nat → Byte

end Sys2Proof.Config
end

