-- ==== Sys2Proof/Machine/State.lean ====
section
/-! DEFINITION. The state of the machine (10_state.md), as plain data: the block's registers and pins, the reference chip of
20_memory.md section 5, and the collaborators' side of the block's ports (60_exceptions.md R150). INVENTORY.md lists each piece with
its rule and reset value. A `Bool` pin is `true` at level 1. -/

namespace Sys2Proof.Machine

open Sys2Proof.Config

/-! ### Names of values -/

/-- BUS_MODE (R24). -/
inductive BusMode where
  | idle | read | write
  deriving DecidableEq, Repr

/-- PHASE (R31). -/
inductive Phase where
  | idle | erasing | verifyingErased | writing | verifyingWritten | failed
  deriving DecidableEq, Repr

/-- Response status codes (R76). -/
inductive Status where
  | ok | eIo | eNotWrite | eNotRead | eIllegalOp
  deriving DecidableEq, Repr

/-- Diagnostic event kinds (R77). -/
inductive EvKind where
  | phaseStart | mismatch | phaseDone | fail
  deriving DecidableEq, Repr

/-- The reference chip's command state (R63, R65). -/
inductive CState where
  | read | u1 | u2 | prog | e3 | e4 | e5
  deriving DecidableEq, Repr

/-- The reference chip's programming mode (R63, R66). -/
inductive ProgMode where
  | overwrite | andMask
  deriving DecidableEq, Repr

/-- The 1-bit output pins a `drive` names, less `ser` and the data lines (R26, R27). -/
inductive Pin where
  | srclk | rclk | ceN | oeN | weN
  deriving DecidableEq, Repr

/-- The two scans that read the byte source: the loops of R117 and R118. -/
inductive ByteLoop where
  | write | verify
  deriving DecidableEq, Repr

/-- What a byte-source answer means (R78). -/
inductive SrcResult where
  | byte (b : Byte) | eos | ioerr
  deriving DecidableEq, Repr

/-- What is done with a sampled byte: it is READ_BYTE's answer (R100), or it is compared with `e` (R116, R118). -/
inductive SampleUse where
  | toHost | compareWith (e : Byte)
  deriving DecidableEq, Repr

/-! ### SEQ: the operations still to run (R20, R41) -/

/-- Micro-operations on pins, waits, and the register writes between them (R13, R14). -/
inductive MicroOp where
  /-- `drive(p, v)`. -/
  | drive (p : Pin) (v : Bool)
  /-- `drive(ser, SHIFT_V[0])` (R85). -/
  | driveSer
  /-- `drive(DBUS, input_pulldown, d_out)` (R91). -/
  | busInput
  /-- `drive(DBUS, output, b)` (R93, R95, R103). -/
  | busOutput (b : Byte)
  /-- `wait(t)`, not yet begun. -/
  | wait (t : Delay)
  /-- A `wait` that has begun; WAIT_CTR holds its remaining cycles. -/
  | waiting
  /-- `SHIFT_V <- v; BIT_IDX <- 0` (R85). -/
  | loadShift (v : Addr)
  /-- `SHIFT_V <- SHIFT_V >> 1`, and the next BIT_IDX (R85). -/
  | nextBit
  /-- `BUS_MODE <- m` (R91, R93). -/
  | setMode (m : BusMode)
  /-- `TXN_IDX <- k` (R106, R107). -/
  | setTxn (k : BitVec 3)
  deriving DecidableEq, Repr

/-- The entries of SEQ: a micro-operation, or a named operation of files 40 to 44 that is still to be called. -/
inductive Item where
  | micro (m : MicroOp)
  /-- `shift(v)` (R85). -/
  | shift (v : Addr)
  /-- `enterRead()` (R91). -/
  | enterRead
  /-- `enterWrite()` (R93). -/
  | enterWrite
  /-- `ensureWrite()` (R105). -/
  | ensureWrite
  /-- `writeByte(a, b)` (R106). -/
  | writeByte (a : Addr) (b : Byte)
  /-- `eraseChip()` (R107). -/
  | eraseChip
  /-- `if BUS_MODE != m: raise Err(e)` (R95, R96). -/
  | require (m : BusMode) (e : Status)
  /-- `raise Err(e)` (R134). -/
  | raiseErr (e : Status)
  /-- `v <- sample()` (R14, R96). -/
  | sample (u : SampleUse)
  /-- `compareRecord(SCAN_A, e, v)` (R129). -/
  | compareRecord (e v : Byte)
  /-- `record(SCAN_A, e, v)` (R129). -/
  | record (e v : Byte)
  /-- `beginPhase(p)` (R113). -/
  | beginPhase (p : Phase)
  /-- `endPhase(p)` (R114). -/
  | endPhase (p : Phase)
  /-- `PHASE <- p` (R119, R120 to R124). -/
  | setPhase (p : Phase)
  /-- `SCAN_A <- 0` (R116 to R118). -/
  | clearScan
  /-- `SCAN_A <- SCAN_A + 1; RES_NEXT <- SCAN_A` (R116 to R118). -/
  | nextScan
  /-- The scan of VerifyingErased, at its head (R116). -/
  | scanErased
  /-- The loop of Writing or VerifyingWritten, at its head (R117, R118). -/
  | byteLoop (l : ByteLoop)
  /-- `r <- req_byte()` of that loop (R14). -/
  | reqByte (l : ByteLoop)
  /-- The answer of that request, taken. -/
  | gotByte (l : ByteLoop) (r : SrcResult)
  /-- `abort(p)` (R119). -/
  | abort (p : Phase)
  /-- `emit(FAIL, ...)` of abort (R119). -/
  | emitFail (p : Phase)
  /-- `respond(st, d)` (R14). -/
  | respond (st : Status) (d : Byte)
  deriving DecidableEq, Repr

/-! ### The parts of the state -/

/-- The command latch CMD_OP, CMD_ADDR, CMD_DATA (R21). -/
structure CmdLatch where
  op : BitVec 4
  addr : Addr
  data : Byte
  deriving DecidableEq, Repr

/-- The shift chain and its drive pins (R22, R26). -/
structure Chain where
  sr : Addr
  q : Addr
  ser : Bool
  srclk : Bool
  rclk : Bool
  deriving DecidableEq, Repr

/-- The bus mode, the control pins and the data-line outputs (R24, R27, R28). -/
structure Bus where
  mode : BusMode
  ceN : Bool
  oeN : Bool
  weN : Bool
  dDrive : Bool
  dOut : Byte
  deriving DecidableEq, Repr

/-- The orchestrator and the reporter's results (R31 to R33). -/
structure Orch where
  phase : Phase
  resCount : Count
  resNext : Count
  deriving DecidableEq, Repr

/-- The response port's held fields (R38). -/
structure RspPort where
  status : Status
  data : Byte
  deriving DecidableEq, Repr

/-- A diagnostic event, the event port's held fields (R40, R77). -/
structure Event where
  kind : EvKind
  phase : Phase
  addr : Count
  expected : Byte
  actual : Byte
  count : Count
  deriving DecidableEq, Repr

/-- `rsp_valid` and `ev_valid`, each 1 for one cycle (R38, R40). -/
structure Pulses where
  rspValid : Bool
  evValid : Bool
  deriving DecidableEq, Repr

/-- The hidden registers beside SEQ (R41). -/
structure Hidden where
  shiftV : Addr
  bitIdx : BitVec 5
  txnIdx : BitVec 3
  scanA : Count
  waitCtr : Nat
  deriving DecidableEq, Repr

/-- A byte array: the listed bytes by rising address; an unlisted byte reads as the erased value (entry 2). -/
abbrev Memory := List Host.Cell

/-- The reference chip (R63). -/
structure Chip where
  array : Memory
  cstate : CState
  stuck : List Host.Cell
  progMode : ProgMode
  deriving DecidableEq, Repr

/-- One answer of the byte source: how many cycles it keeps a raised `src_req` waiting, and the `src_kind` and `src_byte` it then
gives with `src_ack` (R39, R78). -/
structure SrcAnswer where
  delay : Nat
  kind : BitVec 2
  byte : Byte
  deriving DecidableEq, Repr

/-- The collaborators' side of the ports (R150). Records are newest first (entry 13). -/
structure Env where
  /-- The words the host presents on `cmd_word`, in order; `cmd_valid` is 1 while there is one (R37, entry 6). -/
  hostWords : List CmdWord
  /-- At how many more edges `rst` is high (R154). -/
  rstEdges : Nat
  /-- The answers the byte source will give, in order; none means it never answers (R127, entry 7). -/
  answers : List SrcAnswer
  /-- The events the sink has taken (R166). -/
  sink : List Event
  /-- The responses the host has taken: status and data (R38). -/
  responses : List (Status × Byte)
  /-- The write cycles the chip has seen (R64). -/
  writeCycles : List (ChipAddr × Byte)
  deriving DecidableEq, Repr

/-- The whole machine. -/
structure State where
  latch : CmdLatch
  chain : Chain
  bus : Bus
  orch : Orch
  /-- FAULT (R34). -/
  fault : Bool
  /-- LAST_STATUS (R35). -/
  lastStatus : Status
  /-- BUSY (R36). -/
  busy : Bool
  rsp : RspPort
  ev : Event
  pulses : Pulses
  /-- `src_req` (R39). -/
  srcReq : Bool
  /-- SEQ (R41): the operations still to run, the current one first (entry 11). -/
  seq : List Item
  hidden : Hidden
  chip : Chip
  env : Env
  /-- The model's own: how many free values have been drawn (entry 9). -/
  draws : Nat
  /-- The mark of a cycle in which CONTENTION was true; never cleared (R141, entry 9). -/
  safetyFault : Bool
  deriving DecidableEq, Repr

/-- Why a step stops with a fault. -/
inductive Fault where
  /-- Raised by `step` in a state that shows CONTENTION, or in which an earlier cycle showed it: the safety fault that is never
  cleared (R141, U10). Safe: the machine stops where the spec gives no behaviour, and no command leads there (R102). -/
  | busContention
  deriving DecidableEq, Repr

/-- Why a step refuses. -/
inductive Refusal where
  /-- The instruction has no meaning in the model. Raised by an arm of `exec`; no arm raises it. Safe. -/
  | notModelled (mnemonic : String)
  deriving DecidableEq, Repr

/-- The hidden registers while no operation runs (R44). -/
def Hidden.zero : Hidden := ⟨0, 0, 0, 0, 0⟩

/-- An event record with every field 0 (R44). -/
def Event.zero : Event := ⟨.phaseStart, .idle, 0, 0, 0, 0⟩

/-- Nobody presents, answers or has recorded anything (entry 6). -/
def Env.quiet : Env := ⟨[], 0, [], [], [], []⟩

/-- The machine after power-up and reset (R44), for any draw of what is unknown then (R45): `sr`, `q` and the chip. -/
def State.powerUp (sr q : Addr) (chip : Chip) : State where
  latch := ⟨0, 0, 0⟩
  chain := ⟨sr, q, false, false, false⟩
  bus := ⟨.idle, false, true, true, false, 0⟩
  orch := ⟨.idle, 0, 0⟩
  fault := false
  lastStatus := .ok
  busy := false
  rsp := ⟨.ok, 0⟩
  ev := Event.zero
  pulses := ⟨false, false⟩
  srcReq := false
  seq := []
  hidden := Hidden.zero
  chip := chip
  env := Env.quiet
  draws := 0
  safetyFault := false

/-- The machine right after reset. What the spec leaves unknown (R45) has here the one named draw of entry 1: SR and Q 0, no
chip byte listed. No statement rests on that draw: those about reset hold of `State.powerUp` for every draw. -/
def State.reset : State := State.powerUp 0 0 ⟨[], .read, [], .overwrite⟩

end Sys2Proof.Machine
end

