-- ==== Sys2Proof/Machine/Operands.lean ====
section
/-! DEFINITION. Operands: the address the chip sees, the value on the data lines, the byte source's answers, and the codes the ports
carry (10_state.md, 30_encoding.md section 3). -/

namespace Sys2Proof.Machine

open Sys2Proof.Config

/-- The chip sees bits 18:0 of the latched address (R23, R48). -/
def chipAddrOf (a : Addr) : ChipAddr := a.extractLsb' 0 19

/-- The chip address of every access: `Q[18:0]` (R48). -/
def chipAddr (s : State) : ChipAddr := chipAddrOf s.chain.q

/-- `zext_24(SCAN_A)` (R12, R116 to R118). -/
def scanAddr (s : State) : Addr := s.hidden.scanA.setWidth 24

/-- A protocol address of 16 bits is shifted as a 24-bit value (R79). -/
def protocolAddr (a : BitVec 16) : Addr := a.setWidth 24

/-- What an answer of the byte source means: kind 3 is taken as IOERR, and the byte is ignored unless the kind is BYTE (R78). -/
def SrcAnswer.result (a : SrcAnswer) : SrcResult :=
  if a.kind = 0 then .byte a.byte else if a.kind = 1 then .eos else .ioerr

/-- The reference chip drives the data lines (R68). -/
def chipDrives (s : State) : Bool := !s.bus.ceN && !s.bus.oeN && s.bus.weN

/-- BUS_MODE as the host reads it (R24). -/
def BusMode.code : BusMode → BitVec 2
  | .idle => 0
  | .read => 1
  | .write => 2

/-- PHASE as the host and the sink read it (R31). -/
def Phase.code : Phase → BitVec 3
  | .idle => 0
  | .erasing => 1
  | .verifyingErased => 2
  | .writing => 3
  | .verifyingWritten => 4
  | .failed => 5

/-- The status codes of the response port and LAST_STATUS (R76). -/
def Status.code : Status → BitVec 3
  | .ok => 0
  | .eIo => 1
  | .eNotWrite => 2
  | .eNotRead => 3
  | .eIllegalOp => 4

/-- The event kinds of the event port (R77). -/
def EvKind.code : EvKind → BitVec 2
  | .phaseStart => 0
  | .mismatch => 1
  | .phaseDone => 2
  | .fail => 3

/-- The phase a byte loop belongs to (R117, R118). -/
def ByteLoop.phase : ByteLoop → Phase
  | .write => .writing
  | .verify => .verifyingWritten

end Sys2Proof.Machine
end

