-- ==== Sys2Proof/Machine/Flags.lean ====
section
/-! DEFINITION. The status bits of the block (10_state.md R46) and the values it computes without storing: CONTENTION, MISMATCH,
`cmd_ready`, `cmd_valid`, the status outputs and lastAddressProcessed. -/

namespace Sys2Proof.Machine

open Sys2Proof.Config

/-- CONTENTION of a pin setting: the chip's output is enabled and the block drives (R30). -/
def Bus.contention (b : Bus) : Bool := !b.oeN && b.dDrive

/-- CONTENTION (R30). -/
def contention (s : State) : Bool := s.bus.contention

/-- MISMATCH: the byte comparator, all eight bits (R128). -/
def comparator (e v : Byte) : Bool := v != e

/-- `cmd_ready` (R36), 0 while `rst` is high (R154). -/
def cmdReady (s : State) : Bool := !s.busy && s.env.rstEdges == 0

/-- `cmd_valid`: the host presents a word (R37). -/
def cmdValid (s : State) : Bool := !s.env.hostWords.isEmpty

/-- Stuck: the block waits in `req_byte` and the byte source will not answer. Neither a fault nor a final state; only `rst`, or an
answer after all, ends it (R127, R141). -/
def stuckOnSource (s : State) : Bool :=
  match s.seq with
  | .reqByte _ :: _ => s.busy && s.srcReq && s.env.answers.isEmpty && s.env.rstEdges == 0
  | _ => false

/-- lastAddressProcessed: `RES_NEXT - 1`, absent when no address was processed (R131). -/
def lastAddressProcessed (s : State) : Option Count :=
  if s.orch.resNext = 0 then none else some (s.orch.resNext - 1)

/-- The status outputs the host can read at any cycle (R43). -/
structure StatusOutputs where
  busy : Bool
  busMode : BitVec 2
  phase : BitVec 3
  fault : Bool
  lastStatus : BitVec 3
  resCount : Count
  resNext : Count
  addrQ : Addr
  deriving DecidableEq, Repr

/-- Each status output is wired from its register (R43). -/
def statusOutputs (s : State) : StatusOutputs where
  busy := s.busy
  busMode := s.bus.mode.code
  phase := s.orch.phase.code
  fault := s.fault
  lastStatus := s.lastStatus.code
  resCount := s.orch.resCount
  resNext := s.orch.resNext
  addrQ := s.chain.q

end Sys2Proof.Machine
end

