-- ==== Sys2Proof/Machine/Chip.lean ====
section
/-! DEFINITION. The chip's byte array and the reference chip (20_memory.md section 5). Only the write cycle changes it, only the read
drive shows it (R49). -/

namespace Sys2Proof.Machine

open Sys2Proof.Config

/-! ### The byte array -/

/-- The byte at an address. An unlisted byte reads as the erased value (entry 2). -/
def Memory.read : Memory → Nat → Byte
  | [], _ => erased
  | (k, x) :: rest, a => if a = k then x else Memory.read rest a

/-- The array with one byte set, in canonical form: a byte equal to the erased value is not listed. -/
def Memory.write : Memory → Nat → Byte → Memory
  | [], a, v => if v = erased then [] else [(a, v)]
  | (k, x) :: rest, a, v =>
    if a < k then
      if v = erased then (k, x) :: rest else (a, v) :: (k, x) :: rest
    else if a = k then
      if v = erased then rest else (a, v) :: rest
    else (k, x) :: Memory.write rest a v

/-- Listed addresses from `lo` on, strictly rising, inside the array, none at the erased value. -/
def Memory.wfFrom : Nat → Memory → Bool
  | _, [] => true
  | lo, (k, x) :: rest => lo ≤ k && k < maxAddress && x != erased && Memory.wfFrom (k + 1) rest

/-- The canonical form. -/
def Memory.wf (m : Memory) : Bool := Memory.wfFrom 0 m

/-- `MemRead(a, 1)` (R15). -/
def memRead (m : Memory) (a : ChipAddr) : Byte := Memory.read m a.toNat

/-- `MemWrite(a, 1, v)` (R15). -/
def memWrite (m : Memory) (a : ChipAddr) (v : Byte) : Memory := Memory.write m a.toNat v

/-- Every byte at the erased value (R67). -/
def memErase : Memory := []

/-! ### The reference chip -/

/-- The byte STUCK injects at an address, if any (R63): the first entry for it. -/
def stuckAt : List Host.Cell → ChipAddr → Option Byte
  | [], _ => none
  | (k, x) :: rest, a => if k = a.toNat then some x else stuckAt rest a

/-- What the reference chip drives for an address: STUCK's byte if there is one, else the array's (R68). -/
def Chip.output (c : Chip) (a : ChipAddr) : Byte :=
  match stuckAt c.stuck a with
  | some v => v
  | none => memRead c.array a

/-- A byte program (R66). -/
def Chip.program (c : Chip) (a : ChipAddr) (b : Byte) : Chip :=
  match c.progMode with
  | .overwrite => { c with array := memWrite c.array a b }
  | .andMask => { c with array := memWrite c.array a (memRead c.array a &&& b) }

/-- The column "next CSTATE" of R65's table. A write that breaks a sequence is not taken as the first of a new one. -/
def CState.next (c : CState) (a : ChipAddr) (b : Byte) : CState :=
  match c with
  | .read => if a = 0x5555 ∧ b = 0xAA then .u1 else .read
  | .u1 => if a = 0x2AAA ∧ b = 0x55 then .u2 else .read
  | .u2 => if a = 0x5555 ∧ b = 0xA0 then .prog else if a = 0x5555 ∧ b = 0x80 then .e3 else .read
  | .prog => .read
  | .e3 => if a = 0x5555 ∧ b = 0xAA then .e4 else .read
  | .e4 => if a = 0x2AAA ∧ b = 0x55 then .e5 else .read
  | .e5 => .read

/-- One write cycle: the effect of R65's table and the next command state. -/
def Chip.writeCycle (c : Chip) (a : ChipAddr) (b : Byte) : Chip :=
  let moved := { c with cstate := c.cstate.next a b }
  match c.cstate with
  | .prog => moved.program a b
  | .e5 => if a = 0x5555 ∧ b = 0x10 then { moved with array := memErase } else moved
  | _ => moved

/-- "Any CSTATE other than READ is armed" (R65). -/
def Chip.armed (c : Chip) : Bool := c.cstate != .read

end Sys2Proof.Machine
end

