-- ==== Sys2Proof/Machine/Ops.lean ====
section
/-! DEFINITION. The operations every command is made of: the micro-operations (00_scope.md R14), emit and respond, the data-line
sample, the error entry and what takes the block out of it (60_exceptions.md R134, R119, R145), acceptance (R37) and reset (R154). -/

namespace Sys2Proof.Machine

open Sys2Proof.Config

/-! ### Pins -/

/-- A new cycle in which neither `rsp_valid` nor `ev_valid` is raised (R38, R40). -/
def pulsesOff (s : State) : State := { s with pulses := ⟨false, false⟩ }

/-- The safety mark: set once a cycle shows CONTENTION, never cleared (R141). -/
def observe (s : State) : State := { s with safetyFault := s.safetyFault || contention s }

/-- One cycle with these bus pins (R14). -/
def setBus (b : Bus) (s : State) : State := observe (pulsesOff { s with bus := b })

/-- One cycle with this chain (R14). -/
def setChain (c : Chain) (s : State) : State := pulsesOff { s with chain := c }

/-- The byte a write cycle carries: the data lines, or 0x00 where nobody drives them (R64). -/
def writeCycleByte (s : State) : Byte := if s.bus.dDrive then s.bus.dOut else 0x00

/-- A rising edge of `we_n`: a write cycle of (Q[18:0], data lines) if CE# is low and OE# high then (R64), else nothing. -/
def weRises (s : State) : State :=
  if !s.bus.ceN && s.bus.oeN then
    { s with
      chip := s.chip.writeCycle (chipAddr s) (writeCycleByte s)
      env := { s.env with writeCycles := (chipAddr s, writeCycleByte s) :: s.env.writeCycles } }
  else s

/-- A rising edge of `srclk`: `SR <- {ser, SR[23:1]}` (R22). -/
def Chain.shiftEdge (c : Chain) : Chain := { c with sr := BitVec.cons c.ser (c.sr.extractLsb' 1 23) }

/-- A rising edge of `rclk`: `Q <- SR` (R22). -/
def Chain.latchEdge (c : Chain) : Chain := { c with q := c.sr }

/-- The level of a pin. -/
def pinLevel (s : State) : Pin → Bool
  | .srclk => s.chain.srclk
  | .rclk => s.chain.rclk
  | .ceN => s.bus.ceN
  | .oeN => s.bus.oeN
  | .weN => s.bus.weN

/-- `drive(p, v)` (R14). Only a change from 0 to 1 is an edge (R22). -/
def drivePin (p : Pin) (v : Bool) (s : State) : State :=
  let rises := v && !pinLevel s p
  match p with
  | .srclk => setChain { (if rises then s.chain.shiftEdge else s.chain) with srclk := v } s
  | .rclk => setChain { (if rises then s.chain.latchEdge else s.chain) with rclk := v } s
  | .ceN => setBus { s.bus with ceN := v } s
  | .oeN => setBus { s.bus with oeN := v } s
  | .weN => setBus { s.bus with weN := v } (if rises then weRises s else s)

/-- A micro-operation, whole: a `wait` changes no output (R14, R168) and ends with WAIT_CTR at 0. -/
def applyMicro (m : MicroOp) (s : State) : State :=
  match m with
  | .drive p v => drivePin p v s
  | .driveSer => setChain { s.chain with ser := s.hidden.shiftV.getLsbD 0 } s
  | .busInput => setBus { s.bus with dDrive := false } s
  | .busOutput b => setBus { s.bus with dDrive := true, dOut := b } s
  | .wait _ | .waiting => pulsesOff { s with hidden := { s.hidden with waitCtr := 0 } }
  | .loadShift v => { s with hidden := { s.hidden with shiftV := v, bitIdx := 0 } }
  | .nextBit => { s with hidden := { s.hidden with shiftV := s.hidden.shiftV >>> 1, bitIdx := s.hidden.bitIdx + 1 } }
  | .setMode m => { s with bus := { s.bus with mode := m } }
  | .setTxn k => { s with hidden := { s.hidden with txnIdx := k } }

/-- A list of micro-operations, one after another (R14, R58). -/
def runMicros (ms : List MicroOp) (s : State) : State := ms.foldl (fun s m => applyMicro m s) s

/-- Every state a list of micro-operations passes through, the first included (R152). -/
def microTrace : List MicroOp → State → List State
  | [], s => [s]
  | m :: ms, s => s :: microTrace ms (applyMicro m s)

/-- `drive` then its one `wait` (R14, D44). -/
def driveWait (p : Pin) (v : Bool) (t : Delay) : List MicroOp := [.drive p v, .wait t]

/-! ### The data lines -/

/-- `d_in` of the reference environment (R29): the block's own byte, the chip's, 0x00 from the pull-downs; where both drive it has no
defined value, and the free value of this draw stands for it (entry 9). -/
def dataIn (s : State) : Byte :=
  if s.bus.dDrive then
    if chipDrives s then contentionByte s.draws else s.bus.dOut
  else if chipDrives s then s.chip.output (chipAddr s) else 0x00

/-- `sample()`: one cycle; it uses up a free value only where both drive (R14, R29). -/
def sampleCycle (s : State) : State :=
  pulsesOff { s with draws := if s.bus.dDrive && chipDrives s then s.draws + 1 else s.draws }

/-! ### Events and responses -/

/-- `emit`: one cycle with `ev_valid` and the fields (R14, R40); the sink takes the event (R166). -/
def emit (e : Event) (s : State) : State :=
  { s with pulses := ⟨false, true⟩, ev := e, env := { s.env with sink := e :: s.env.sink } }

/-- `respond`: one cycle with `rsp_valid`; it writes LAST_STATUS (R14, R35, R38). -/
def respond (st : Status) (d : Byte) (s : State) : State :=
  { s with
    pulses := ⟨true, false⟩
    rsp := ⟨st, d⟩
    lastStatus := st
    env := { s.env with responses := (st, d) :: s.env.responses } }

/-- The cycle after a response: BUSY falls (R36), no operation runs, and the hidden registers are as they are then (R44, entry 10). -/
def finish (s : State) : State :=
  pulsesOff { s with busy := false, seq := [], hidden := Hidden.zero }

/-- `PHASE <- p` (R31). -/
def setPhase (p : Phase) (s : State) : State := { s with orch := { s.orch with phase := p } }

/-! ### Errors: entry and return -/

/-- `FAULT <- 1` (R134). -/
def setFault (s : State) : State := { s with fault := true }

/-- TAKING AN ERROR: `raise Err(code)` sets FAULT and responds with the code; the operation ends (R134). Nothing is saved and there
is no handler (R144). -/
def raiseErr (code : Status) (s : State) : State := finish (respond code 0x00 (setFault s))

/-- The FAIL event of an abort (R77, R119). -/
def failEvent (p : Phase) (s : State) : Event := ⟨.fail, p, s.hidden.scanA, 0, 0, s.orch.resCount⟩

/-- TAKING AN I/O ERROR: `abort(p)` emits FAIL, moves PHASE to Failed and responds E_IO; FAULT is not touched (R119, R139). -/
def abort (p : Phase) (s : State) : State :=
  finish (respond .eIo 0x00 (setPhase .failed (emit (failEvent p s) s)))

/-- RETURN FROM FAILED: accepting any command moves PHASE from Failed to Idle (R112, R145). -/
def Phase.onAccept : Phase → Phase
  | .failed => .idle
  | p => p

/-- The command latch takes the word's fields (R21). -/
def latchWord (w : CmdWord) : CmdLatch := ⟨w.extractLsb' 32 4, w.extractLsb' 8 24, w.extractLsb' 0 8⟩

/-- Acceptance of the presented word (R37): the latch is loaded, PHASE leaves Failed, BUSY rises, and the host goes on to its next
word. -/
def accept (w : CmdWord) (s : State) : State :=
  pulsesOff
    { s with
      latch := latchWord w
      orch := { s.orch with phase := s.orch.phase.onAccept }
      busy := true
      env := { s.env with hostWords := s.env.hostWords.tail } }

/-- A cycle in which nothing is accepted and every pin holds (R153). -/
def idleCycle (s : State) : State := pulsesOff s

/-! ### Reset -/

/-- One edge with `rst` high (R154, R155): every register of R44 takes its reset value; SR, Q, the chip and the collaborators
keep theirs (R45, R69); a running operation is abandoned without response or event. If WE# was low it rises, and the chip sees a
write cycle with the pins as they were before the edge (R157, entry 12). -/
def resetEdge (s : State) : State :=
  let seen := if s.bus.weN then s else weRises s
  { State.powerUp s.chain.sr s.chain.q seen.chip with
    env := { seen.env with rstEdges := s.env.rstEdges - 1 }
    draws := s.draws
    safetyFault := s.safetyFault }

end Sys2Proof.Machine
end

