-- ==== Sys2Proof/Machine/Serializer.lean ====
section
/-! DEFINITION. The address serializer: `shift(v)` (40_address_serializer.md R85). -/

namespace Sys2Proof.Machine

open Sys2Proof.Config

/-- One turn of the bit loop: the serial line, a pulse of the serial clock, the next bit (R85). -/
def shiftBitOps : List MicroOp :=
  [.driveSer, .wait .settle] ++ driveWait .srclk true .settle ++ driveWait .srclk false .settle ++ [.nextBit]

/-- `n` turns of the bit loop. -/
def shiftBitsOps : Nat → List MicroOp
  | 0 => []
  | n + 1 => shiftBitOps ++ shiftBitsOps n

/-- The pulse of the latch line (R85). -/
def latchOps : List MicroOp := driveWait .rclk true .settle ++ driveWait .rclk false .settle

/-- `shift(v)` (R85): least significant bit first, all 24 bits, then one latch pulse. -/
def shiftOps (v : Addr) : List MicroOp := .loadShift v :: (shiftBitsOps srBits ++ latchOps)

/-- The state after `shift(v)`. -/
def shift (v : Addr) (s : State) : State := runMicros (shiftOps v) s

end Sys2Proof.Machine
end

