-- ==== Sys2Proof/Machine/BusMode.lean ====
section
/-! DEFINITION. The bus mode multiplexer: `enterRead`, `enterWrite`, `setData` and the reading part of `readByte` (41_bus_mode.md
section 1). -/

namespace Sys2Proof.Machine

open Sys2Proof.Config

/-- `enterRead()` (R91): the block stops driving before OE# is asserted. -/
def enterReadOps : List MicroOp :=
  [.busInput, .wait .dir] ++ driveWait .oeN false .settle ++ driveWait .ceN false .settle ++ [.setMode .read]

/-- `enterWrite()` (R93, C1): OE# is de-asserted before the block drives. -/
def enterWriteOps : List MicroOp :=
  driveWait .oeN true .settle ++ [.busOutput 0x00, .wait .dir] ++ driveWait .ceN false .settle ++
    driveWait .weN true .settle ++ [.setMode .write]

/-- `setData(b)` after its mode check (R95). -/
def setDataOps (b : Byte) : List MicroOp := [.busOutput b, .wait .settle]

/-- The state after `enterRead()`. -/
def enterRead (s : State) : State := runMicros enterReadOps s

/-- The state after `enterWrite()`. -/
def enterWrite (s : State) : State := runMicros enterWriteOps s

/-- The state after `setData(b)`, whose check held. -/
def setData (b : Byte) (s : State) : State := runMicros (setDataOps b) s

/-- `readByte(a)` up to its sample, the mode check held: the address is presented and T_RD passes (R96). -/
def presentRead (a : Addr) (s : State) : State := applyMicro (.wait .rd) (shift a s)

end Sys2Proof.Machine
end

