-- ==== Sys2Proof/Machine/Sequencer.lean ====
section
/-! DEFINITION. The command sequencer: the write transaction and the byte-program and chip-erase sequences (42_command_sequencer.md
sections 1 and 2, 30_encoding.md R79 to R82). -/

namespace Sys2Proof.Machine

open Sys2Proof.Config

/-- `txn(a, b)` (R103), in the bracket order of R104. -/
def txnOps (a : Addr) (b : Byte) : List MicroOp :=
  driveWait .oeN true .settle ++ driveWait .weN true .settle ++ driveWait .ceN false .settle ++
    (shiftOps a ++
      ([.busOutput b, .wait .settle] ++ driveWait .weN false .wp ++ driveWait .weN true .settle ++ driveWait .ceN true .bp))

/-- The three unlock pairs of a byte program (R80). -/
def unlockPairs : List (Addr × Byte) :=
  [(protocolAddr 0x5555, 0xAA), (protocolAddr 0x2AAA, 0x55), (protocolAddr 0x5555, 0xA0)]

/-- The byte-program sequence: the unlock pairs, then the target pair (R80). -/
def programPairs (a : Addr) (b : Byte) : List (Addr × Byte) := unlockPairs ++ [(a, b)]

/-- The chip-erase sequence (R81). -/
def erasePairs : List (Addr × Byte) :=
  [(protocolAddr 0x5555, 0xAA), (protocolAddr 0x2AAA, 0x55), (protocolAddr 0x5555, 0x80),
   (protocolAddr 0x5555, 0xAA), (protocolAddr 0x2AAA, 0x55), (protocolAddr 0x5555, 0x10)]

/-- A sequence, sent back to back with TXN_IDX the index of the pair (R82, R106, R107). -/
def replayOps : BitVec 3 → List (Addr × Byte) → List MicroOp
  | k, [] => [.setTxn k]
  | k, (a, b) :: rest => .setTxn k :: (txnOps a b ++ replayOps (k + 1) rest)

/-- `writeByte(a, b)` after ensureWrite (R106). -/
def writeByteOps (a : Addr) (b : Byte) : List MicroOp := replayOps 0 (programPairs a b)

/-- `eraseChip()` after ensureWrite (R107). -/
def eraseChipOps : List MicroOp := replayOps 0 erasePairs ++ [.wait .sce]

/-- The state after `txn(a, b)`. -/
def txn (a : Addr) (b : Byte) (s : State) : State := runMicros (txnOps a b) s

/-- `ensureWrite()`: nothing in Write mode, else `enterWrite()` (R105). -/
def ensureWriteOps (s : State) : List MicroOp := if s.bus.mode = .write then [] else enterWriteOps

/-- The state after `ensureWrite()`. -/
def ensureWrite (s : State) : State := runMicros (ensureWriteOps s) s

/-- The state after `writeByte(a, b)` (R106). -/
def writeByte (a : Addr) (b : Byte) (s : State) : State := runMicros (writeByteOps a b) (ensureWrite s)

/-- The state after `eraseChip()` (R107). -/
def eraseChip (s : State) : State := runMicros eraseChipOps (ensureWrite s)

end Sys2Proof.Machine
end

