-- ==== Sys2Proof/Machine/Comparator.lean ====
section
/-! DEFINITION. The byte comparator and mismatch reporter (44_comparator.md). -/

namespace Sys2Proof.Machine

/-- `record(a, e, v)`: one more mismatch, and its fact emitted at once (R129). -/
def record (a : Count) (e v : Byte) (s : State) : State :=
  emit ⟨.mismatch, s.orch.phase, a, e, v, s.orch.resCount + 1⟩
    { s with orch := { s.orch with resCount := s.orch.resCount + 1 } }

/-- `compareRecord(a, e, v)`: nothing where the bytes agree (R129). -/
def compareRecord (a : Count) (e v : Byte) (s : State) : State :=
  if comparator e v then record a e v s else s

/-- The source's VerificationResult (R130). -/
structure VerificationResult where
  lastAddress : Option Count
  mismatchCount : Count
  deriving DecidableEq, Repr

/-- `finalize()`: what the result registers say (R130, R131). It takes no cycle; PHASE_DONE delivers it. -/
def finalize (s : State) : VerificationResult := ⟨lastAddressProcessed s, s.orch.resCount⟩

end Sys2Proof.Machine
end

