-- ==== Sys2Proof/Machine/Orchestrator.lean ====
section
/-! DEFINITION. The orchestrator's own operations and the phase bodies as lists of SEQ (43_orchestrator.md sections 1 and 2). -/

namespace Sys2Proof.Machine

open Sys2Proof.Config

/-- `beginPhase(p)`: the results are cleared, PHASE is `p`, PHASE_START is emitted (R113). -/
def beginPhase (p : Phase) (s : State) : State :=
  emit ⟨.phaseStart, p, 0, 0, 0, 0⟩ { s with orch := ⟨p, 0, 0⟩ }

/-- `endPhase(p)`: PHASE_DONE with the result; PHASE stays (R114). -/
def endPhase (p : Phase) (s : State) : State :=
  emit ⟨.phaseDone, p, s.orch.resNext, 0, 0, s.orch.resCount⟩ s

/-- `SCAN_A <- 0` (R116 to R118). -/
def clearScan (s : State) : State := { s with hidden := { s.hidden with scanA := 0 } }

/-- `SCAN_A <- SCAN_A + 1; RES_NEXT <- SCAN_A` (R116 to R118). -/
def nextScan (s : State) : State :=
  { s with
    hidden := { s.hidden with scanA := s.hidden.scanA + 1 }
    orch := { s.orch with resNext := s.hidden.scanA + 1 } }

/-- How many turns a scan still has before `SCAN_A == MAX_ADDRESS` (R116 to R118). -/
def scanLeft (s : State) : Nat := (maxAddr - s.hidden.scanA).toNat

/-- `readByte(a)` and what is done with its byte (R96). -/
def readByteItems (a : Addr) (u : SampleUse) : List Item :=
  [.require .read .eNotRead, .shift a, .micro (.wait .rd), .sample u]

/-- One turn of the scan of VerifyingErased (R116). -/
def scanErasedItems (s : State) : List Item :=
  readByteItems (scanAddr s) (.compareWith erased) ++ [.nextScan, .scanErased]

/-- One turn of a byte loop after its byte has arrived (R117, R118). -/
def byteItems (l : ByteLoop) (b : Byte) (s : State) : List Item :=
  match l with
  | .write => [.writeByte (scanAddr s) b, .nextScan, .byteLoop .write]
  | .verify => readByteItems (scanAddr s) (.compareWith b) ++ [.nextScan, .byteLoop .verify]

/-- `erasingPhase()` (R115). -/
def erasingPhase : List Item := [.beginPhase .erasing, .eraseChip, .endPhase .erasing]

/-- `verifyErasedPhase()` (R116). -/
def verifyErasedPhase : List Item :=
  [.beginPhase .verifyingErased, .enterRead, .clearScan, .scanErased, .endPhase .verifyingErased]

/-- `writingPhase()` (R117). -/
def writingPhase : List Item :=
  [.beginPhase .writing, .enterWrite, .clearScan, .byteLoop .write, .endPhase .writing]

/-- `verifyWrittenPhase()` (R118). -/
def verifyWrittenPhase : List Item :=
  [.beginPhase .verifyingWritten, .enterRead, .clearScan, .byteLoop .verify, .endPhase .verifyingWritten]

end Sys2Proof.Machine
end

