-- ==== Sys2Proof/Machine/Run.lean ====
section
/-! DEFINITION. Running a list of SEQ to its end: to the response, or to a request the byte source has not answered (10_state.md R20,
43_orchestrator.md R127). `Machine/Cycle.lean` takes the same list one micro-operation at a time. -/

namespace Sys2Proof.Machine

open Sys2Proof.Config

/-- Whether the operation goes on after one entry of SEQ, or ends or waits with this state. -/
inductive Flow where
  | goOn (s : State)
  | stop (s : State)
  deriving DecidableEq, Repr

/-- The block waits in `req_byte`: `src_req` is high and SEQ stands at the request (R39, R127). -/
def waitForByte (l : ByteLoop) (rest : List Item) (s : State) : State :=
  pulsesOff { s with srcReq := true, seq := .reqByte l :: rest }

/-- The answer is taken and `src_req` drops (R39). -/
def takeAnswer (more : List SrcAnswer) (s : State) : State :=
  pulsesOff { s with srcReq := false, env := { s.env with answers := more } }

/-- `readByte(zext_24(SCAN_A))` and `compareRecord(SCAN_A, e, v)` (R96, R116, R118). -/
def readCompare (e : Byte) (s : State) : Flow :=
  if s.bus.mode = .read then
    let s1 := presentRead (scanAddr s) s
    .goOn (compareRecord s1.hidden.scanA e (dataIn s1) (sampleCycle s1))
  else .stop (raiseErr .eNotRead s)

/-- The rest of a byte loop's turn, its byte being `b` (R117, R118). -/
def byteTurn (l : ByteLoop) (b : Byte) (s : State) : Flow :=
  match l with
  | .write => .goOn (nextScan (writeByte (scanAddr s) b s))
  | .verify =>
    match readCompare b s with
    | .goOn s' => .goOn (nextScan s')
    | .stop s' => .stop s'

/-- One request of a byte loop and what follows its answer; `again` is the next turn (R117 to R119). -/
def requestTurn (l : ByteLoop) (again : State → Flow) (rest : List Item) (s : State) : Flow :=
  match s.env.answers with
  | [] => .stop (waitForByte l rest s)
  | a :: more =>
    match a.result with
    | .byte b =>
      match byteTurn l b (takeAnswer more s) with
      | .goOn s' => again s'
      | .stop s' => .stop s'
    | .eos => .goOn (takeAnswer more s)
    | .ioerr => .stop (abort l.phase (takeAnswer more s))

/-- A byte loop with `n` turns left before the bound (R117, R118). -/
def runByteLoop (l : ByteLoop) (rest : List Item) : Nat → State → Flow
  | 0, s => .goOn s
  | n + 1, s => requestTurn l (runByteLoop l rest n) rest s

/-- The scan of VerifyingErased with `n` addresses left (R116). -/
def runScanErased : Nat → State → Flow
  | 0, s => .goOn s
  | n + 1, s =>
    match readCompare erased s with
    | .goOn s' => runScanErased n (nextScan s')
    | .stop s' => .stop s'

/-- One entry of SEQ, whole; `rest` is what SEQ holds behind it. -/
def runItem (i : Item) (rest : List Item) (s : State) : Flow :=
  match i with
  | .micro m => .goOn (applyMicro m s)
  | .shift v => .goOn (shift v s)
  | .enterRead => .goOn (enterRead s)
  | .enterWrite => .goOn (enterWrite s)
  | .ensureWrite => .goOn (ensureWrite s)
  | .writeByte a b => .goOn (writeByte a b s)
  | .eraseChip => .goOn (eraseChip s)
  | .require m e => if s.bus.mode = m then .goOn s else .stop (raiseErr e s)
  | .raiseErr e => .stop (raiseErr e s)
  | .sample .toHost => .goOn (respond .ok (dataIn s) (sampleCycle s))
  | .sample (.compareWith e) => .goOn (compareRecord s.hidden.scanA e (dataIn s) (sampleCycle s))
  | .compareRecord e v => .goOn (compareRecord s.hidden.scanA e v s)
  | .record e v => .goOn (record s.hidden.scanA e v s)
  | .beginPhase p => .goOn (beginPhase p s)
  | .endPhase p => .goOn (endPhase p s)
  | .setPhase p => .goOn (setPhase p s)
  | .clearScan => .goOn (clearScan s)
  | .nextScan => .goOn (nextScan s)
  | .scanErased => runScanErased (scanLeft s) s
  | .byteLoop l => runByteLoop l rest (scanLeft s) s
  | .reqByte l => requestTurn l (fun s' => runByteLoop l rest (scanLeft s') s') rest s
  | .gotByte l (.byte b) =>
    match byteTurn l b { s with srcReq := false } with
    | .goOn s' => runByteLoop l rest (scanLeft s') s'
    | .stop s' => .stop s'
  | .gotByte _ .eos => .goOn { s with srcReq := false }
  | .gotByte l .ioerr => .stop (abort l.phase { s with srcReq := false })
  | .abort p => .stop (abort p s)
  | .emitFail p => .goOn (emit (failEvent p s) s)
  | .respond st d => .goOn (respond st d s)

/-- A list of SEQ, run until the command has responded or waits for a byte. -/
def runProgram : List Item → State → State
  | [], s => finish s
  | i :: rest, s =>
    match runItem i rest s with
    | .goOn s' => runProgram rest s'
    | .stop s' => s'

end Sys2Proof.Machine
end

