-- ==== Sys2Proof/Machine/Primitives.lean ====
section
/-! DEFINITION. The meanings of the primitive commands: SHIFT_ADDR, ENTER_READ, ENTER_WRITE, SET_DATA, READ_BYTE, WRITE_BYTE,
ERASE_CHIP (files 40 to 42). Each is the list of operations its rule gives, ended by its response. -/

namespace Sys2Proof.Machine

/-- `respond(OK, 0x00)`. -/
def okResponse : List Item := [.respond .ok 0x00]

/-- R89. -/
def progShiftAddr (addr : Addr) : List Item := .shift addr :: okResponse

/-- SHIFT_ADDR (R89). -/
def execShiftAddr (addr : Addr) (s : State) : Host.Outcome State Fault Refusal := .next (runProgram (progShiftAddr addr) s)

/-- R97. -/
def progEnterRead : List Item := .enterRead :: okResponse

/-- ENTER_READ (R97). -/
def execEnterRead (s : State) : Host.Outcome State Fault Refusal := .next (runProgram progEnterRead s)

/-- R98. -/
def progEnterWrite : List Item := .enterWrite :: okResponse

/-- ENTER_WRITE (R98). -/
def execEnterWrite (s : State) : Host.Outcome State Fault Refusal := .next (runProgram progEnterWrite s)

/-- R95, R99: the mode check comes before any pin change. -/
def progSetData (data : Byte) : List Item :=
  .require .write .eNotWrite :: ((setDataOps data).map .micro ++ okResponse)

/-- SET_DATA (R99). -/
def execSetData (data : Byte) (s : State) : Host.Outcome State Fault Refusal := .next (runProgram (progSetData data) s)

/-- R96, R100: the sampled byte is the response's data. -/
def progReadByte (addr : Addr) : List Item := readByteItems addr .toHost

/-- READ_BYTE (R100). -/
def execReadByte (addr : Addr) (s : State) : Host.Outcome State Fault Refusal := .next (runProgram (progReadByte addr) s)

/-- R106, R109. -/
def progWriteByte (addr : Addr) (data : Byte) : List Item := .writeByte addr data :: okResponse

/-- WRITE_BYTE (R109). -/
def execWriteByte (addr : Addr) (data : Byte) (s : State) : Host.Outcome State Fault Refusal :=
  .next (runProgram (progWriteByte addr data) s)

/-- R107, R110. -/
def progEraseChip : List Item := .eraseChip :: okResponse

/-- ERASE_CHIP (R110). -/
def execEraseChip (s : State) : Host.Outcome State Fault Refusal := .next (runProgram progEraseChip s)

end Sys2Proof.Machine
end

