-- ==== Sys2Proof/Machine/Workflow.lean ====
section
/-! DEFINITION. The meanings of the workflow operations: OP_ERASE, OP_VERIFY_ERASED, OP_WRITE, OP_VERIFY_WRITTEN, OP_PROGRAM
(43_orchestrator.md section 3). -/

namespace Sys2Proof.Machine

/-- `PHASE <- Idle; respond(OK, 0x00)`. -/
def operationDone : List Item := .setPhase .idle :: okResponse

/-- R120. -/
def progOpErase : List Item := erasingPhase ++ operationDone

/-- OP_ERASE (R120). -/
def execOpErase (s : State) : Host.Outcome State Fault Refusal := .next (runProgram progOpErase s)

/-- R121. -/
def progOpVerifyErased : List Item := verifyErasedPhase ++ operationDone

/-- OP_VERIFY_ERASED (R121). -/
def execOpVerifyErased (s : State) : Host.Outcome State Fault Refusal := .next (runProgram progOpVerifyErased s)

/-- R122. -/
def progOpWrite : List Item := writingPhase ++ operationDone

/-- OP_WRITE (R122). -/
def execOpWrite (s : State) : Host.Outcome State Fault Refusal := .next (runProgram progOpWrite s)

/-- R123. -/
def progOpVerifyWritten : List Item := verifyWrittenPhase ++ operationDone

/-- OP_VERIFY_WRITTEN (R123). -/
def execOpVerifyWritten (s : State) : Host.Outcome State Fault Refusal := .next (runProgram progOpVerifyWritten s)

/-- R124: the four phases, one after another. -/
def progOpProgram : List Item :=
  erasingPhase ++ (verifyErasedPhase ++ (writingPhase ++ (verifyWrittenPhase ++ operationDone)))

/-- OP_PROGRAM (R124). -/
def execOpProgram (s : State) : Host.Outcome State Fault Refusal := .next (runProgram progOpProgram s)

end Sys2Proof.Machine
end

