-- ==== Sys2Proof/Machine/Reserved.lean ====
section
/-! DEFINITION. The meanings of the reserved opcodes: each takes the error E_ILLEGAL_OP as its only micro-operation (30_encoding.md
R74, 60_exceptions.md R136). -/

namespace Sys2Proof.Machine

/-- R136. -/
def progReserved : List Item := [.raiseErr .eIllegalOp]

/-- Opcode 0x0 (R74, R136). -/
def execReserved0 (s : State) : Host.Outcome State Fault Refusal := .next (runProgram progReserved s)

/-- Opcode 0xD (R74, R136). -/
def execReservedD (s : State) : Host.Outcome State Fault Refusal := .next (runProgram progReserved s)

/-- Opcode 0xE (R74, R136). -/
def execReservedE (s : State) : Host.Outcome State Fault Refusal := .next (runProgram progReserved s)

/-- Opcode 0xF (R74, R136). -/
def execReservedF (s : State) : Host.Outcome State Fault Refusal := .next (runProgram progReserved s)

end Sys2Proof.Machine
end

