-- ==== Sys2Proof/Machine/Dispatch.lean ====
section
/-! DEFINITION. Which meaning each command has: one arm per row of spec/opcode_table.json. -/

namespace Sys2Proof.Machine

/-- The meaning of a command that has been accepted. -/
def exec (i : Instr) (s : State) : Host.Outcome State Fault Refusal :=
  match i with
  | .shiftAddr addr => Sys2Proof.Machine.execShiftAddr addr s
  | .enterRead => Sys2Proof.Machine.execEnterRead s
  | .enterWrite => Sys2Proof.Machine.execEnterWrite s
  | .setData data => Sys2Proof.Machine.execSetData data s
  | .readByte addr => Sys2Proof.Machine.execReadByte addr s
  | .writeByte addr data => Sys2Proof.Machine.execWriteByte addr data s
  | .eraseChip => Sys2Proof.Machine.execEraseChip s
  | .opErase => Sys2Proof.Machine.execOpErase s
  | .opVerifyErased => Sys2Proof.Machine.execOpVerifyErased s
  | .opWrite => Sys2Proof.Machine.execOpWrite s
  | .opVerifyWritten => Sys2Proof.Machine.execOpVerifyWritten s
  | .opProgram => Sys2Proof.Machine.execOpProgram s
  | .reserved0 => Sys2Proof.Machine.execReserved0 s
  | .reservedD => Sys2Proof.Machine.execReservedD s
  | .reservedE => Sys2Proof.Machine.execReservedE s
  | .reservedF => Sys2Proof.Machine.execReservedF s

end Sys2Proof.Machine
end

