-- ==== Sys2Proof/Machine/Step.lean ====
section
/-! DEFINITION. One step of the machine as the host sees it: a whole command, one reset edge, one idle cycle, or the rest of a command
that was waiting for a byte (20_memory.md R55, entry 5). -/

namespace Sys2Proof.Machine

/-- Reset has priority over everything (R142, R154). A busy block runs what SEQ still holds. A ready block accepts the word the host
presents, decodes it and runs it (R37), or stays idle (R153). No step is taken from a state that shows, or has shown, CONTENTION
(R141). -/
def step (s : State) : Host.Outcome State Fault Refusal :=
  if s.safetyFault || contention s then .fault .busContention
  else if s.env.rstEdges != 0 then .next (resetEdge s)
  else if s.busy then .next (runProgram s.seq s)
  else
    match s.env.hostWords with
    | [] => .next (idleCycle s)
    | w :: _ => exec (decode w) (accept w s)

/-- The host presents the word `w` on a block that can take it: ready, `rst` low (R37, entry 6). -/
def State.withFetchWord (s : State) (_nbits w : Nat) : State :=
  { s with
    busy := false
    srcReq := false
    seq := []
    hidden := Hidden.zero
    env := { s.env with rstEdges := 0, hostWords := BitVec.ofNat 36 w :: s.env.hostWords.tail } }

end Sys2Proof.Machine
end

