-- ==== Sys2Proof/Machine/Assembler.lean ====
section
/-! DEFINITION. The text form of a command and its assembly (30_encoding.md R83). What R83 leaves open about blanks, letter case,
empty lines and operands left out is entry 18. -/

namespace Sys2Proof.Machine

/-- Why a line does not assemble. An operand outside its range is an error, not a truncation (R83). -/
inductive AsmError where
  /-- No command stands on the line. -/
  | emptyLine
  /-- The line's first word is no mnemonic of R72; a reserved opcode has none. -/
  | unknownMnemonic
  /-- An operand is no decimal or `0x` hexadecimal number. -/
  | badNumber
  /-- The mnemonic takes another number of operands; one left out counts as missing (DESIGN CHOICE, entry 18). -/
  | operandCount
  /-- An operand is outside its range. -/
  | operandRange
  deriving DecidableEq, Repr

/-- A blank between the words of a line. -/
def isBlank (c : Char) : Bool := c == ' ' || c == '\t'

/-- A text without the blanks at its ends. -/
def trimBlanks (cs : List Char) : List Char :=
  ((cs.dropWhile isBlank).reverse.dropWhile isBlank).reverse

/-- The value of a hexadecimal digit; a decimal digit is one below 10. -/
def digitValue (c : Char) : Option Nat :=
  if '0' ≤ c ∧ c ≤ '9' then some (c.toNat - '0'.toNat)
  else if 'a' ≤ c ∧ c ≤ 'f' then some (c.toNat - 'a'.toNat + 10)
  else if 'A' ≤ c ∧ c ≤ 'F' then some (c.toNat - 'A'.toNat + 10)
  else none

/-- Digits of a base, the value so far before them. -/
def digitsValue (base : Nat) : Nat → List Char → Option Nat
  | acc, [] => some acc
  | acc, c :: cs =>
    match digitValue c with
    | some d => if d < base then digitsValue base (acc * base + d) cs else none
    | none => none

/-- A number: decimal, or hexadecimal with a `0x` prefix (R83). -/
def numberValue : List Char → Option Nat
  | [] => none
  | ['0', 'x'] => none
  | '0' :: 'x' :: ds => digitsValue 16 0 ds
  | ds => digitsValue 10 0 ds

/-- The pieces of a text between its commas. -/
def splitCommas : List Char → List (List Char)
  | [] => [[]]
  | c :: cs =>
    if c = ',' then [] :: splitCommas cs
    else
      match splitCommas cs with
      | [] => [[c]]
      | p :: ps => (c :: p) :: ps

/-- Every piece read as a number, or none. -/
def numberValues : List (List Char) → Option (List Nat)
  | [] => some []
  | p :: ps =>
    match numberValue (trimBlanks p), numberValues ps with
    | some n, some ns => some (n :: ns)
    | _, _ => none

/-- A line read as `MNEMONIC [addr][, data]`, the comment from `;` on left out (R83). -/
def parseLine (line : List Char) : Except AsmError AsmCommand :=
  let text := trimBlanks (line.takeWhile (· != ';'))
  let word := text.takeWhile (fun c => !isBlank c)
  let rest := trimBlanks (text.dropWhile (fun c => !isBlank c))
  if word.isEmpty then .error .emptyLine
  else if rest.isEmpty then .ok ⟨String.ofList word, []⟩
  else
    match numberValues (splitCommas rest) with
    | some ns => .ok ⟨String.ofList word, ns⟩
    | none => .error .badNumber

/-- The command of a mnemonic and its operands, which have been checked (R72, R83). -/
def commandOf : String → List Nat → Option Instr
  | "SHIFT_ADDR", [a] => some (.shiftAddr (BitVec.ofNat 24 a))
  | "ENTER_READ", [] => some .enterRead
  | "ENTER_WRITE", [] => some .enterWrite
  | "SET_DATA", [d] => some (.setData (BitVec.ofNat 8 d))
  | "READ_BYTE", [a] => some (.readByte (BitVec.ofNat 24 a))
  | "WRITE_BYTE", [a, d] => some (.writeByte (BitVec.ofNat 24 a) (BitVec.ofNat 8 d))
  | "ERASE_CHIP", [] => some .eraseChip
  | "OP_ERASE", [] => some .opErase
  | "OP_VERIFY_ERASED", [] => some .opVerifyErased
  | "OP_WRITE", [] => some .opWrite
  | "OP_VERIFY_WRITTEN", [] => some .opVerifyWritten
  | "OP_PROGRAM", [] => some .opProgram
  | _, _ => none

/-- Assembly of a command: its operands are checked, then its word is packed with omitted fields 0 (R83). DESIGN CHOICE (entry 18): every
operand R72 lists for the mnemonic must be on the line, so the fields that are omitted are those R72 does not list; R83's
`[addr][, data]` could also be read as letting a listed operand be left out. -/
def assembleCommand (c : AsmCommand) : Except AsmError CmdWord :=
  match operandKinds c.mnemonic with
  | none => .error .unknownMnemonic
  | some ks =>
    if ks.length ≠ c.operands.length then .error .operandCount
    else if !operandsFit ks c.operands then .error .operandRange
    else
      match commandOf c.mnemonic c.operands with
      | some i => .ok (encode i)
      | none => .error .unknownMnemonic

/-- Assembly of one line of text (R83). -/
def assembleLine (line : String) : Except AsmError CmdWord :=
  match parseLine line.toList with
  | .ok c => assembleCommand c
  | .error e => .error e

end Sys2Proof.Machine
end

