-- ==== Sys2Proof/Machine/Cycle.lean ====
section
/-! DEFINITION. The machine one micro-operation at a time, with its cycle costs (00_scope.md R13, R14; 70_reset_and_hazards.md R167,
R168). It runs the same programs and the same operations as `step`; every pin transition, every cycle of a wait, every cycle of a
request is a state of its own, so reset can land at each of them (R157) and CONTENTION is seen in each of them (R102). -/

namespace Sys2Proof.Machine

open Sys2Proof.Config

/-- The operation list an accepted command starts (R37). -/
def program : Instr → List Item
  | .shiftAddr addr => progShiftAddr addr
  | .enterRead => progEnterRead
  | .enterWrite => progEnterWrite
  | .setData data => progSetData data
  | .readByte addr => progReadByte addr
  | .writeByte addr data => progWriteByte addr data
  | .eraseChip => progEraseChip
  | .opErase => progOpErase
  | .opVerifyErased => progOpVerifyErased
  | .opWrite => progOpWrite
  | .opVerifyWritten => progOpVerifyWritten
  | .opProgram => progOpProgram
  | .reserved0 | .reservedD | .reservedE | .reservedF => progReserved

/-- SEQ set to a list. -/
def setSeq (is : List Item) (s : State) : State := { s with seq := is }

/-- Micro-operations as entries of SEQ. -/
def microItems (ms : List MicroOp) : List Item := ms.map .micro

/-- One cycle of a `wait` that has `n` cycles left, this one included; WAIT_CTR keeps what remains after it (R41). -/
def waitCycle (n : Nat) (rest : List Item) (s : State) : State :=
  pulsesOff
    { s with
      hidden := { s.hidden with waitCtr := n - 1 }
      seq := if n ≤ 1 then rest else .micro .waiting :: rest }

/-- One cycle of `req_byte` (R14, R39): `src_req` is high; an answer that has waited out its delay is taken in this cycle. -/
def requestCycle (l : ByteLoop) (rest : List Item) (s : State) : State :=
  match s.env.answers with
  | [] => pulsesOff { s with srcReq := true }
  | a :: more =>
    if a.delay = 0 then
      pulsesOff { s with srcReq := true, env := { s.env with answers := more }, seq := .gotByte l a.result :: rest }
    else
      pulsesOff { s with srcReq := true, env := { s.env with answers := { a with delay := a.delay - 1 } :: more } }

/-- The first entry of SEQ, `i`, is taken: a micro-operation runs, a named operation is replaced by its list, an error replaces all
that is left. -/
def microItem (T : Timing) (i : Item) (rest : List Item) (s : State) : State :=
  match i with
  | .micro (.wait t) => waitCycle (T.cycles t) rest s
  | .micro .waiting => waitCycle s.hidden.waitCtr rest s
  | .micro m => setSeq rest (applyMicro m s)
  | .shift v => setSeq (microItems (shiftOps v) ++ rest) s
  | .enterRead => setSeq (microItems enterReadOps ++ rest) s
  | .enterWrite => setSeq (microItems enterWriteOps ++ rest) s
  | .ensureWrite => setSeq (microItems (ensureWriteOps s) ++ rest) s
  | .writeByte a b => setSeq (.ensureWrite :: (microItems (writeByteOps a b) ++ rest)) s
  | .eraseChip => setSeq (.ensureWrite :: (microItems eraseChipOps ++ rest)) s
  | .require m e => if s.bus.mode = m then setSeq rest s else setSeq [.raiseErr e] s
  | .raiseErr e => setSeq [.respond e 0x00] (setFault s)
  | .sample .toHost => setSeq (.respond .ok (dataIn s) :: rest) (sampleCycle s)
  | .sample (.compareWith e) => setSeq (.compareRecord e (dataIn s) :: rest) (sampleCycle s)
  | .compareRecord e v => if comparator e v then setSeq (.record e v :: rest) s else setSeq rest s
  | .record e v => setSeq rest (record s.hidden.scanA e v s)
  | .beginPhase p => setSeq rest (beginPhase p s)
  | .endPhase p => setSeq rest (endPhase p s)
  | .setPhase p => setSeq rest (setPhase p s)
  | .clearScan => setSeq rest (clearScan s)
  | .nextScan => setSeq rest (nextScan s)
  | .scanErased => if s.hidden.scanA = maxAddr then setSeq rest s else setSeq (scanErasedItems s ++ rest) s
  | .byteLoop l => if s.hidden.scanA = maxAddr then setSeq rest s else setSeq (.reqByte l :: rest) s
  | .reqByte l => requestCycle l rest s
  | .gotByte l (.byte b) => setSeq (byteItems l b s ++ rest) { s with srcReq := false }
  | .gotByte _ .eos => setSeq rest { s with srcReq := false }
  | .gotByte l .ioerr => setSeq [.abort l.phase] { s with srcReq := false }
  | .abort p => setSeq [.emitFail p, .setPhase .failed, .respond .eIo 0x00] s
  | .emitFail p => setSeq rest (emit (failEvent p s) s)
  | .respond st d => setSeq rest (respond st d s)

/-- One micro-step. A state that shows CONTENTION, or has shown it, is marked and stays (R141). -/
def microStep (T : Timing) (s : State) : State :=
  if s.safetyFault || contention s then { s with safetyFault := true }
  else if s.env.rstEdges != 0 then resetEdge s
  else if s.busy then
    match s.seq with
    | [] => finish s
    | i :: rest => microItem T i rest s
  else
    match s.env.hostWords with
    | [] => idleCycle s
    | w :: _ => setSeq (program (decode w)) (accept w s)

/-- `n` micro-steps. -/
def microRun (T : Timing) : Nat → State → State
  | 0, s => s
  | n + 1, s => microRun T n (microStep T s)

/-- Whether a micro-operation takes a cycle (R13, R14). -/
def MicroOp.timed : MicroOp → Bool
  | .drive _ _ | .driveSer | .busInput | .busOutput _ | .wait _ | .waiting => true
  | .loadShift _ | .nextBit | .setMode _ | .setTxn _ => false

/-- Whether taking an entry of SEQ takes a cycle: drive, one cycle of a wait, sample, one cycle of a request, emit, respond do; a
register write, a check and a call do not (R13, R14). -/
def Item.timed : Item → Bool
  | .micro m => m.timed
  | .sample _ | .record _ _ | .beginPhase _ | .endPhase _ | .reqByte _ | .emitFail _ | .respond _ _ => true
  | .shift _ | .enterRead | .enterWrite | .ensureWrite | .writeByte _ _ | .eraseChip | .require _ _ | .raiseErr _
  | .compareRecord _ _ | .setPhase _ | .clearScan | .nextScan | .scanErased | .byteLoop _ | .gotByte _ _ | .abort _ => false

/-- How many cycles the next micro-step takes. Acceptance happens at an edge and takes none (R37); an idle cycle, a reset edge and
the cycle after a response take one each. -/
def microCost (s : State) : Nat :=
  if s.env.rstEdges != 0 then 1
  else if s.busy then
    match s.seq with
    | [] => 1
    | i :: _ => if i.timed then 1 else 0
  else if s.env.hostWords.isEmpty then 1 else 0

/-- How many cycles `n` micro-steps take. -/
def microCycles (T : Timing) : Nat → State → Nat
  | 0, _ => 0
  | n + 1, s => microCost s + microCycles T n (microStep T s)

/-- The cycles of a list of micro-operations (R14). -/
def opsCycles (T : Timing) : List MicroOp → Nat
  | [] => 0
  | .wait t :: ms => T.cycles t + opsCycles T ms
  | m :: ms => (if m.timed then 1 else 0) + opsCycles T ms

end Sys2Proof.Machine
end

