-- ==== Sys2Proof/Safety.lean ====
section
/-! DEFINITION. The terms claims are stated in: a safe pin setting, the invariant of the machine between steps, the moves of the
outside world, the reachable states, and what a command's rules say its response, its chip and its events are. -/

namespace Sys2Proof.Machine

open Sys2Proof.Config

/-! ### Between steps -/

/-- The pin values that hold in each mode whenever no operation is running (R25). -/
def Bus.settled (b : Bus) : Bool :=
  match b.mode with
  | .idle => !b.dDrive && b.oeN && b.weN && !b.ceN && b.dOut == 0
  | .read => !b.dDrive && !b.oeN && b.weN && !b.ceN
  | .write => b.dDrive && b.oeN && b.weN

/-- The serial clock and the latch line rest at 0 (R17, R87). -/
def Chain.atRest (c : Chain) : Bool := !c.srclk && !c.rclk

/-- RES_COUNT is at most RES_NEXT, and RES_NEXT at most MAX_ADDRESS (R32, R33, R126, R132). -/
def Orch.bounded (o : Orch) : Bool := o.resCount ≤ o.resNext && o.resNext ≤ maxAddr

/-- Pins and chain as a command finds them (R25, R87). -/
def Ready (s : State) : Prop := s.bus.settled = true ∧ s.chain.atRest = true

/-- What SEQ holds behind the request of a byte loop: the rest of OP_WRITE, of OP_VERIFY_WRITTEN, of OP_PROGRAM (R122 to R124). -/
def waitingRests : ByteLoop → List (List Item)
  | .write =>
    [.endPhase .writing :: operationDone, .endPhase .writing :: (verifyWrittenPhase ++ operationDone)]
  | .verify => [.endPhase .verifyingWritten :: operationDone]

/-- No operation runs (R44). -/
def IdleShape (s : State) : Prop :=
  s.seq = [] ∧ s.hidden = Hidden.zero ∧ s.srcReq = false ∧ (s.orch.phase = .idle ∨ s.orch.phase = .failed)

/-- An operation waits for the byte of the current scan address (R117, R118, R127). -/
def WaitingShape (s : State) : Prop :=
  ∃ l : ByteLoop, ∃ rest ∈ waitingRests l,
    s.seq = .reqByte l :: rest ∧ s.srcReq = true ∧ s.orch.phase = l.phase ∧ s.hidden.scanA = s.orch.resNext ∧
      s.orch.resNext < maxAddr ∧ s.bus.mode = (match l with | .write => .write | .verify => .read) ∧
      (l = .write → s.orch.resCount = 0)

/-- The invariant between steps. -/
structure Inv (s : State) : Prop where
  ready : Ready s
  arrayCanonical : s.chip.array.wf = true
  resultsBounded : s.orch.bounded = true
  noContentionSeen : s.safetyFault = false
  pulsesLow : s.pulses = ⟨false, false⟩
  idle : s.busy = false → IdleShape s
  waiting : s.busy = true → WaitingShape s

/-! ### The outside world -/

/-- What the host, the byte source and the reset line may do at any moment (R150). -/
inductive EnvMove where
  | present (w : CmdWord)
  | answer (a : SrcAnswer)
  | holdReset (edges : Nat)
  deriving DecidableEq, Repr

/-- The effect of a move: only the input side of a port changes. -/
def envMove (m : EnvMove) (s : State) : State :=
  match m with
  | .present w => { s with env := { s.env with hostWords := s.env.hostWords ++ [w] } }
  | .answer a => { s with env := { s.env with answers := s.env.answers ++ [a] } }
  | .holdReset n => { s with env := { s.env with rstEdges := n } }

/-- The states the machine passes through, micro-operation by micro-operation, from power-up with any draw, whatever the outside
does and when (R45, R58, R150, R157). -/
inductive Reachable (T : Timing) : State → Prop where
  | powerUp (sr q : Addr) (chip : Chip) : Reachable T (State.powerUp sr q chip)
  | micro (s : State) : Reachable T s → Reachable T (microStep T s)
  | outside (m : EnvMove) (s : State) : Reachable T s → Reachable T (envMove m s)

/-! ### The column "fields" of R72 -/

/-- The opcodes whose row lists `addr`: SHIFT_ADDR, READ_BYTE, WRITE_BYTE. -/
def listsAddr (op : BitVec 4) : Bool := op == 0x1 || op == 0x5 || op == 0x6

/-- The opcodes whose row lists `data`: SET_DATA, WRITE_BYTE. -/
def listsData (op : BitVec 4) : Bool := op == 0x4 || op == 0x6

/-- A word with its own `op` and listed fields, and zero in every field its operation does not list (R73). -/
def unlistedZeroed (w : CmdWord) : CmdWord :=
  packWord (opField w) (if listsAddr (opField w) then addrField w else 0) (if listsData (opField w) then dataField w else 0)

/-! ### The text form -/

/-- The opcode R72 gives a mnemonic. -/
def textOpcode : String → Nat
  | "SHIFT_ADDR" => 0x1
  | "ENTER_READ" => 0x2
  | "ENTER_WRITE" => 0x3
  | "SET_DATA" => 0x4
  | "READ_BYTE" => 0x5
  | "WRITE_BYTE" => 0x6
  | "ERASE_CHIP" => 0x7
  | "OP_ERASE" => 0x8
  | "OP_VERIFY_ERASED" => 0x9
  | "OP_WRITE" => 0xA
  | "OP_VERIFY_WRITTEN" => 0xB
  | "OP_PROGRAM" => 0xC
  | _ => 0x0

/-- The operand of a kind among a mnemonic's operands; 0 where the mnemonic has none, the field being omitted (R83). -/
def operandOf (k : OperandKind) : List OperandKind → List Nat → Nat
  | k' :: ks, n :: ns => if k' = k then n else operandOf k ks ns
  | _, _ => 0

/-- The word R83 gives a text command: `op << 32 | addr << 8 | data`. -/
def textWord (c : AsmCommand) : Nat :=
  let ks := (operandKinds c.mnemonic).getD []
  textOpcode c.mnemonic <<< 32 ||| operandOf .addr ks c.operands <<< 8 ||| operandOf .data ks c.operands

/-! ### R112's table -/

/-- The row of `beginPhase(p)`: PHASE before it is Idle, or the phase before `p` in OP_PROGRAM's chain. -/
def Phase.mayBegin : Phase → Phase → Bool
  | .idle, .erasing | .idle, .verifyingErased | .idle, .writing | .idle, .verifyingWritten => true
  | .erasing, .verifyingErased | .verifyingErased, .writing | .writing, .verifyingWritten => true
  | _, _ => false

/-- A phase that has a body: the last phase an operation can have run. -/
def Phase.runs : Phase → Bool
  | .erasing | .verifyingErased | .writing | .verifyingWritten => true
  | .idle | .failed => false

/-- A phase that reads the byte source: the row of `abort(p)`. -/
def Phase.reads : Phase → Bool
  | .writing | .verifyingWritten => true
  | .idle | .erasing | .verifyingErased | .failed => false

/-! ### What a command leaves -/

/-- `s` after a response: status, data, LAST_STATUS; the block is ready and no operation runs (R14, R35, R36, R38). Nothing else
differs from `s`. -/
def responded (st : Status) (d : Byte) (s : State) : State :=
  { s with
    rsp := ⟨st, d⟩
    lastStatus := st
    busy := false
    seq := []
    hidden := Hidden.zero
    pulses := ⟨false, false⟩
    env := { s.env with responses := (st, d) :: s.env.responses } }

/-- `s` with a value latched in the chain (R87). -/
def latched (v : Addr) (s : State) : State := { s with chain := ⟨v, v, v.getLsbD 23, false, false⟩ }

/-- The chain in which `shift(v)` has left `v` (R87). -/
def chainOf (v : Addr) : Chain := ⟨v, v, v.getLsbD 23, false, false⟩

/-- The chain after the addresses 0 to `n - 1` of a scan have been presented, one after another: the last one is in it (R87, R116 to
R118). -/
def Chain.afterScan (n : Nat) (c : Chain) : Chain := if n = 0 then c else chainOf (BitVec.ofNat 24 (n - 1))

/-- The chip after a list of write pairs, the first one first (R79, R82). -/
def Chip.afterPairs (c : Chip) (ps : List (Addr × Byte)) : Chip :=
  ps.foldl (fun c p => c.writeCycle (chipAddrOf p.1) p.2) c

/-- `s` after a sequence of write pairs in Write mode whose last pair is `(a, b)`: the chip and the bench have seen exactly those
pairs in that order, and the pins are as the last transaction leaves them (R82, R103, R109). -/
def sequenceSent (ps : List (Addr × Byte)) (a : Addr) (b : Byte) (s : State) : State :=
  { latched a s with
    bus := ⟨.write, true, true, true, true, b⟩
    chip := s.chip.afterPairs ps
    env := { s.env with
      writeCycles := (ps.map fun p => (chipAddrOf p.1, p.2)).reverse ++ s.env.writeCycles } }

/-- The MISMATCH events of a scan that expects `es` from address `i` on, with `n` mismatches counted before, oldest first (R77,
R129). -/
def scanEvents (p : Phase) (c : Chip) : Count → Count → List Byte → List Event
  | _, _, [] => []
  | i, n, e :: es =>
    let v := c.output (i.setWidth 19)
    if v = e then scanEvents p c (i + 1) n es else ⟨.mismatch, p, i, e, v, n + 1⟩ :: scanEvents p c (i + 1) (n + 1) es

/-- How many bytes of a chip differ from `es`, from address `i` on (R132). -/
def mismatches (c : Chip) : Count → List Byte → Nat
  | _, [] => 0
  | i, e :: es => (if c.output (i.setWidth 19) = e then 0 else 1) + mismatches c (i + 1) es

/-- PHASE_START (R77, R113). -/
def startEvent (p : Phase) : Event := ⟨.phaseStart, p, 0, 0, 0, 0⟩

/-- PHASE_DONE with a result (R77, R114). -/
def doneEvent (p : Phase) (next count : Count) : Event := ⟨.phaseDone, p, next, 0, 0, count⟩

/-- The chip-erase sequence (R81). -/
def chipEraseSequence : List (Addr × Byte) :=
  [(0x005555, 0xAA), (0x002AAA, 0x55), (0x005555, 0x80), (0x005555, 0xAA), (0x002AAA, 0x55), (0x005555, 0x10)]

/-- The write cycles of a list of pairs as the bench has recorded them, newest first (R64). -/
def writeCyclesOf (ps : List (Addr × Byte)) : List (ChipAddr × Byte) := (ps.map fun p => (p.1.extractLsb' 0 19, p.2)).reverse

/-- The data lines and control pins after Writing has written `bs`: CE# is high once a transaction has run (R93, R103, R117). -/
def busAfterWriting (bs : List Byte) : Bus := ⟨.write, !bs.isEmpty, true, true, true, bs.getLastD 0x00⟩

/-- The MISMATCH events and the ends of a phase that compared `es` with a chip, newest first, from PHASE_START to PHASE_DONE (R113, R114,
R129). -/
def verifyEvents (p : Phase) (c : Chip) (es : List Byte) : List Event :=
  doneEvent p (BitVec.ofNat 20 es.length) (BitVec.ofNat 20 (mismatches c 0 es)) :: ((scanEvents p c 0 0 es).reverse ++ [startEvent p])

/-- The events of OP_PROGRAM before Writing, newest first, the erase having left the chip `blank` (R115, R116, R124). -/
def eventsBeforeWriting (blank : Chip) : List Event :=
  verifyEvents .verifyingErased blank (List.replicate maxAddress 0xFF) ++ [doneEvent .erasing 0 0, startEvent .erasing]

/-- The answers begin with the stream `bs` and what ends it, and `rest` is left: the end is EOS, or the bound is reached and no
further request is made (R117, R118, R126). -/
def StreamTaken (answers : List SrcAnswer) (bs : List Byte) (rest : List SrcAnswer) : Prop :=
  bs.length ≤ maxAddress ∧
    ∃ head, answers = head ++ rest ∧
      head.map SrcAnswer.result = bs.map .byte ++ (if bs.length = maxAddress then [] else [.eos])

/-- The answers begin with the bytes `bs` and then IOERR, and `rest` is left (R119). -/
def StreamFails (answers : List SrcAnswer) (bs : List Byte) (rest : List SrcAnswer) : Prop :=
  bs.length < maxAddress ∧
    ∃ head, answers = head ++ rest ∧ head.map SrcAnswer.result = bs.map .byte ++ [.ioerr]

/-- The answers are the bytes `bs` and then the source never answers (R127). -/
def StreamStalls (answers : List SrcAnswer) (bs : List Byte) : Prop :=
  bs.length < maxAddress ∧ answers.map SrcAnswer.result = bs.map .byte

/-- What every workflow operation leaves of a state `s` it began in, whatever it found: the response `st`, the block ready, and
nothing written of the command latch, FAULT, the host's words, the reset line, the safety mark or the draws (R119 to R124, R133). -/
structure OperationEnded (st : Status) (s t : State) : Prop where
  rsp : t.rsp = ⟨st, 0x00⟩
  lastStatus : t.lastStatus = st
  busy : t.busy = false
  srcReq : t.srcReq = false
  seq : t.seq = []
  hidden : t.hidden = Hidden.zero
  pulses : t.pulses = ⟨false, false⟩
  responses : t.env.responses = (st, 0x00) :: s.env.responses
  latch : t.latch = s.latch
  fault : t.fault = s.fault
  hostWords : t.env.hostWords = s.env.hostWords
  rstEdges : t.env.rstEdges = s.env.rstEdges
  draws : t.draws = s.draws
  safetyFault : t.safetyFault = s.safetyFault
  event : t.env.sink.head? = some t.ev

/-- What a workflow operation has done to a state `s` it began in when it stands at a request the source does not answer: SEQ is at
the request with `rest` behind it, `src_req` is high, the block is busy, no response has been given, and what `OperationEnded` says is
not written is not (R127). -/
structure OperationWaiting (l : ByteLoop) (rest : List Item) (s t : State) : Prop where
  busy : t.busy = true
  srcReq : t.srcReq = true
  seq : t.seq = .reqByte l :: rest
  scanA : t.hidden.scanA = t.orch.resNext
  pulses : t.pulses = ⟨false, false⟩
  answers : t.env.answers = []
  rsp : t.rsp = s.rsp
  lastStatus : t.lastStatus = s.lastStatus
  responses : t.env.responses = s.env.responses
  latch : t.latch = s.latch
  fault : t.fault = s.fault
  hostWords : t.env.hostWords = s.env.hostWords
  rstEdges : t.env.rstEdges = s.env.rstEdges
  draws : t.draws = s.draws
  safetyFault : t.safetyFault = s.safetyFault

/-- The write pairs of a stream written from address `i` on (R52, R117). -/
def streamPairs : Count → List Byte → List (Addr × Byte)
  | _, [] => []
  | i, b :: bs => programPairs (i.setWidth 24) b ++ streamPairs (i + 1) bs

/-- The byte an array position holds after the bytes `bs` were programmed from address 0 on over an array `m` (R52, R66). -/
def streamByte (mode : ProgMode) (m : Memory) (bs : List Byte) (a : ChipAddr) : Byte :=
  match bs[a.toNat]? with
  | none => memRead m a
  | some b =>
    match mode with
    | .overwrite => b
    | .andMask => memRead m a &&& b

end Sys2Proof.Machine
end

