-- ==== Sys2Proof/Certificates/Slice0/Obligations.lean ====
section
/-! DEFINITION. The statements about this model, each the claim its docstring cites. `Ready s` and `Bus.settled` are the pin
settings R25 gives between operations; `MachineInvariantKeptByEveryStep` says every step keeps them. -/

open Sys2Proof Sys2Proof.Machine Sys2Proof.Config

/-! ### Encodings and the text form -/

/-- R70, R72, R83: decoding the word of a command gives the command back, every operand at every value. -/
def Obligations.DecodeOfEncodeIsTheCommand : Prop := ∀ i : Instr, decode (encode i) = i

/-- R75: every word selects exactly one row of R72: the command decoded has the word's opcode, and no other command of another
opcode could. -/
def Obligations.EveryWordSelectsItsOpcodeRow : Prop :=
  ∀ w : CmdWord, (decode w).opcode = opField w ∧
    (∀ i : Instr, i.opcode = opField w → i.addrBits = (decode w).addrBits → i.dataBits = (decode w).dataBits → i = decode w)

/-- R73: a word decodes as the word with the same opcode and the same listed fields and zero in every field R72 does not list for it, and
no command's behaviour depends on the command latch, the only register in which those fields are kept. -/
def Obligations.UnlistedFieldsAreIgnored : Prop :=
  (∀ w : CmdWord, decode w = decode (unlistedZeroed w)) ∧
    (∀ (i : Instr) (l : CmdLatch) (s t : State), exec i s = .next t →
      exec i { s with latch := l } = .next { t with latch := l }) ∧
    decode 0x2FFFFFFFF#36 = .enterRead

/-- The words of R83's four examples decode to the commands it writes beside them. -/
def Obligations.ExampleWordsDecode : Prop :=
  decode 0x600012342#36 = .writeByte 0x000123#24 0x42#8 ∧
    decode 0x100555500#36 = .shiftAddr 0x005555#24 ∧
    decode 0x4000000A5#36 = .setData 0xA5#8 ∧
    decode 0xC00000000#36 = .opProgram

/-- R72, R83: a text command whose mnemonic is known and whose operands are there and fit assembles to `op << 32 | addr << 8 | data`, the
mnemonic's opcode and its operands with omitted fields 0, and that word is a legal command's; any other text command is an error. That a
listed operand left out is an error is the model's choice (entry 18). -/
def Obligations.AssemblyAcceptsExactlyWellFormedCommands : Prop :=
  ∀ c : AsmCommand,
    (c.wellFormed = true →
      assembleCommand c = .ok (BitVec.ofNat 36 (textWord c)) ∧ (decode (BitVec.ofNat 36 (textWord c))).legal = true) ∧
      (c.wellFormed = false → ∃ e : AsmError, assembleCommand c = .error e)

/-- R83: an operand outside its range is an error, not a truncation. -/
def Obligations.OperandOutOfRangeIsAnError : Prop :=
  ∀ a d : Nat,
    (0xFFFFFF < a → assembleCommand ⟨"SHIFT_ADDR", [a]⟩ = .error .operandRange ∧
      assembleCommand ⟨"READ_BYTE", [a]⟩ = .error .operandRange ∧
      assembleCommand ⟨"WRITE_BYTE", [a, d]⟩ = .error .operandRange) ∧
    (0xFF < d → assembleCommand ⟨"SET_DATA", [d]⟩ = .error .operandRange ∧
      assembleCommand ⟨"WRITE_BYTE", [a, d]⟩ = .error .operandRange)

/-! ### Steps, acceptance, reset -/

/-- R37, R55: on a ready block whose host presents a word, a step is the meaning of the decoded command, run from the state of
acceptance. -/
def Obligations.StepRunsTheDecodedCommand : Prop :=
  ∀ (s : State) (w : CmdWord) (ws : List CmdWord),
    s.safetyFault = false → contention s = false → s.env.rstEdges = 0 → s.busy = false → s.env.hostWords = w :: ws →
      step s = exec (decode w) (accept w s)

/-- R37, R112, R145: what acceptance does, whole: the latch holds the word's fields, PHASE leaves Failed and no other value, BUSY
rises, the host goes on to its next word; nothing else changes but the one-cycle pulses. -/
def Obligations.AcceptanceLoadsTheLatchAndLeavesFailed : Prop :=
  ∀ (w : CmdWord) (s : State),
    accept w s =
      { s with
        latch := ⟨opField w, addrField w, dataField w⟩
        orch := { s.orch with phase := if s.orch.phase = .failed then .idle else s.orch.phase }
        busy := true
        pulses := ⟨false, false⟩
        env := { s.env with hostWords := s.env.hostWords.tail } }

/-- R21: acceptance copies the word's fields into the three registers of the latch; from then until the next acceptance or a reset
edge no micro-step writes them; no status output shows them. -/
def Obligations.LatchHoldsUntilNextAcceptance : Prop :=
  (∀ (w : CmdWord) (s : State), (accept w s).latch = ⟨w.extractLsb' 32 4, w.extractLsb' 8 24, w.extractLsb' 0 8⟩) ∧
    (∀ (T : Timing) (s : State), s.env.rstEdges = 0 → (s.busy = true ∨ s.env.hostWords = []) →
      (microStep T s).latch = s.latch) ∧
    ∀ (l : CmdLatch) (s : State), statusOutputs { s with latch := l } = statusOutputs s

/-- R36, R37: while the block is busy the command port plays no part in a micro-step. -/
def Obligations.BusyBlockIgnoresTheCommandPort : Prop :=
  ∀ (T : Timing) (s : State) (ws : List CmdWord), s.busy = true →
    microStep T { s with env := { s.env with hostWords := ws } } =
      { microStep T s with env := { (microStep T s).env with hostWords := ws } }

/-- R44, R154, R155: one edge with `rst` high, whatever was running: every register named has its reset value; SR and Q, and with WE#
at rest the chip, keep theirs; there is no response and no event. -/
def Obligations.ResetEdgeGivesTheResetValues : Prop :=
  ∀ s : State, s.safetyFault = false → contention s = false → s.env.rstEdges ≠ 0 → s.bus.weN = true →
    step s = .next
      { latch := ⟨0, 0, 0⟩
        chain := ⟨s.chain.sr, s.chain.q, false, false, false⟩
        bus := ⟨.idle, false, true, true, false, 0x00⟩
        orch := ⟨.idle, 0, 0⟩
        fault := false
        lastStatus := .ok
        busy := false
        rsp := ⟨.ok, 0x00⟩
        ev := ⟨.phaseStart, .idle, 0, 0, 0, 0⟩
        pulses := ⟨false, false⟩
        srcReq := false
        seq := []
        hidden := ⟨0, 0, 0, 0, 0⟩
        chip := s.chip
        env := { s.env with rstEdges := s.env.rstEdges - 1 }
        draws := s.draws
        safetyFault := false }

/-- R157 item 2: a reset edge in the WE# strobe of a write transaction is a write cycle of (Q[18:0], d_out as it was). -/
def Obligations.ResetDuringStrobeIsAWriteCycle : Prop :=
  ∀ (T : Timing) (s : State), s.safetyFault = false → s.env.rstEdges ≠ 0 →
    s.bus.weN = false → s.bus.ceN = false → s.bus.oeN = true → s.bus.dDrive = true →
      (microStep T s).chip = s.chip.writeCycle (chipAddr s) s.bus.dOut ∧
        (microStep T s).env.writeCycles = (chipAddr s, s.bus.dOut) :: s.env.writeCycles ∧
        (microStep T s).bus = ⟨.idle, false, true, true, false, 0x00⟩ ∧
        (microStep T s).chain.q = s.chain.q ∧ (microStep T s).busy = false

/-- R153: a ready block to which nothing is presented stays ready and holds everything; only a one-cycle pulse ends. -/
def Obligations.ReadyBlockIdles : Prop :=
  ∀ s : State, s.safetyFault = false → contention s = false → cmdReady s = true → s.env.hostWords = [] →
    step s = .next { s with pulses := ⟨false, false⟩ }

/-- R127: a block whose request is not answered is busy with `src_req` high, no host word ends the wait, and a reset edge does. R127 and
R141 give such a state no step of the block: that the model's `step` and `microStep` answer the same state again is its choice (entry
8), and so is an empty list of answers for a source that never answers (entry 7). -/
def Obligations.UnansweredRequestWaitsForever : Prop :=
  ∀ (T : Timing) (s : State), s.safetyFault = false → contention s = false → s.pulses = ⟨false, false⟩ → stuckOnSource s = true →
    s.busy = true ∧ s.srcReq = true ∧ step s = .next s ∧ (∀ n : Nat, microRun T n s = s) ∧
      (∀ (n : Nat) (w : CmdWord), microRun T n (envMove (.present w) s) = envMove (.present w) s) ∧
      (microStep T (envMove (.holdReset 1) s)).busy = false

/-! ### The address serializer -/

/-- R87: the state after `shift(v)`, whole, and the shift stage after `k` rising edges of the serial clock. -/
def Obligations.ShiftLeavesItsValueInTheChain : Prop :=
  ∀ (v : Addr) (s : State), s.chain.atRest = true →
    (∃ h : Hidden, shift v s = { latched v s with hidden := h, pulses := ⟨false, false⟩ }) ∧
      ∀ k : Nat, k ≤ 24 →
        (runMicros (.loadShift v :: shiftBitsOps k) s).chain.sr = (v <<< (24 - k)) ||| (s.chain.sr >>> k)

/-- R86: Q changes at one edge of `shift(v)`, the rising edge of the latch line: every state before it shows the old address, every
state from it on shows `v`. -/
def Obligations.LatchIsAtomic : Prop :=
  ∀ (v : Addr) (s : State), s.chain.atRest = true →
    let before : List MicroOp := .loadShift v :: shiftBitsOps srBits
    let after : List MicroOp := [.wait .settle, .drive .rclk false, .wait .settle]
    shiftOps v = before ++ (.drive .rclk true :: after) ∧
      (∀ t ∈ microTrace before s, t.chain.q = s.chain.q ∧ t.chain.rclk = false) ∧
      (∀ t ∈ microTrace after (applyMicro (.drive .rclk true) (runMicros before s)), t.chain.q = v) ∧
      (shift v s).chain.q = v

/-- R89, R90: SHIFT_ADDR latches its address and responds OK; nothing else changes, in every bus mode. -/
def Obligations.ShiftAddrLatchesItsAddress : Prop :=
  ∀ (a : Addr) (s : State), s.chain.atRest = true →
    exec (.shiftAddr a) s = .next (responded .ok 0x00 (latched a s)) ∧ chipAddr (latched a s) = a.extractLsb' 0 19

/-! ### The bus mode multiplexer -/

/-- R97: ENTER_READ from any state: Read mode's pins, WE# and d_out as they were, nothing else changed. -/
def Obligations.EnterReadGivesReadMode : Prop :=
  ∀ s : State,
    exec .enterRead s = .next (responded .ok 0x00 { s with bus := ⟨.read, false, false, s.bus.weN, false, s.bus.dOut⟩ })

/-- R92: the state after `enterRead()` does not depend on the mode, CE#, OE# or the direction before it, and a second one changes
nothing. -/
def Obligations.EnterReadIsIdempotent : Prop :=
  (∀ (s : State) (m : BusMode) (ce oe dd : Bool),
      enterRead { s with bus := ⟨m, ce, oe, s.bus.weN, dd, s.bus.dOut⟩ } = enterRead s) ∧
    (∀ s : State, (enterRead s).bus = ⟨.read, false, false, s.bus.weN, false, s.bus.dOut⟩ ∧
      (enterRead s).chain = s.chain ∧ (enterRead s).chip = s.chip) ∧
    ∀ s : State, enterRead (enterRead s) = enterRead s

/-- R98: ENTER_WRITE from a pin setting of R25: Write mode's pins, d_out 0x00, nothing else changed. -/
def Obligations.EnterWriteGivesWriteMode : Prop :=
  ∀ s : State, s.bus.settled = true →
    exec .enterWrite s = .next (responded .ok 0x00 { s with bus := ⟨.write, false, true, true, true, 0x00⟩ })

/-- R94: whatever the state before, `enterWrite()` leaves Write mode and its control lines, and d_out 0x00, so an earlier byte is lost. -/
def Obligations.EnterWriteForcesDataToZero : Prop :=
  ∀ s : State, (enterWrite s).bus = ⟨.write, false, true, true, true, 0x00⟩ ∧
    (enterWrite (setData 0x55 (enterWrite s))).bus.dOut = 0x00

/-- R95, R99: SET_DATA in Write mode drives its byte and changes nothing else; no write cycle reaches the chip. -/
def Obligations.SetDataDrivesItsByte : Prop :=
  ∀ (d : Byte) (s : State), s.bus.settled = true → s.bus.mode = .write →
    exec (.setData d) s = .next (responded .ok 0x00 { s with bus := { s.bus with dOut := d } })

/-- R95, R99, R137: SET_DATA outside Write mode responds E_NOT_WRITE and sets FAULT; that is all it does. -/
def Obligations.SetDataOutsideWriteModeIsRefused : Prop :=
  ∀ (d : Byte) (s : State), s.bus.mode ≠ .write →
    exec (.setData d) s = .next (responded .eNotWrite 0x00 { s with fault := true })

/-- R96, R100, R68: READ_BYTE in Read mode latches its address and responds with the byte the chip drives for its low 19 bits;
nothing else changes. -/
def Obligations.ReadByteReturnsTheChipsByte : Prop :=
  ∀ (a : Addr) (s : State), Ready s → s.bus.mode = .read →
    exec (.readByte a) s = .next (responded .ok (s.chip.output (a.extractLsb' 0 19)) (latched a s))

/-- R96, R100, R138: READ_BYTE outside Read mode responds E_NOT_READ and sets FAULT; that is all it does: nothing is shifted. -/
def Obligations.ReadByteOutsideReadModeIsRefused : Prop :=
  ∀ (a : Addr) (s : State), s.bus.mode ≠ .read →
    exec (.readByte a) s = .next (responded .eNotRead 0x00 { s with fault := true })

/-- R28, R101: in every state the machine passes through, a micro-step that changes the data lines' direction is a drive of
`enterRead()` or `enterWrite()` (the group drive to input, or to output with 0x00 from an input setting), or a reset edge. -/
def Obligations.DirectionChangesOnlyInModeTransitions : Prop :=
  ∀ (T : Timing) (s : State), Reachable T s → (microStep T s).bus.dDrive ≠ s.bus.dDrive → s.env.rstEdges = 0 →
    ∃ rest : List Item, s.seq = .micro .busInput :: rest ∨
      (s.seq = .micro (.busOutput 0x00) :: rest ∧ rest.take 1 = [.micro (.wait .dir)])

/-- R102, R30: CONTENTION is false in every state the machine passes through, micro-operation by micro-operation, whatever the host,
the byte source and the reset line do. So the safety mark of R141 (kept as entry 9 says) is never set. -/
def Obligations.NoContentionInAnyCycle : Prop :=
  ∀ (T : Timing) (s : State), Reachable T s → contention s = false ∧ s.safetyFault = false

/-! ### The command sequencer -/

/-- R105: `ensureWrite()` does nothing in Write mode and is `enterWrite()` otherwise; a write transaction after it runs in Write mode
with the block driving and OE# high. -/
def Obligations.EnsureWriteEntersWriteModeOnce : Prop :=
  ∀ s : State, s.bus.settled = true →
    (s.bus.mode = .write → ensureWrite s = s) ∧
      (s.bus.mode ≠ .write → ensureWrite s = enterWrite s) ∧
      (ensureWrite s).bus.mode = .write ∧ (ensureWrite s).bus.dDrive = true ∧ (ensureWrite s).bus.oeN = true

/-- R103, R104: the bracket order of a write transaction, over every state it passes through. CE# is low in every state of the shift. In
every state with WE# low the address and the byte are the transaction's, CE# is low, OE# is high, the block drives, and the chip has
seen nothing. Up to the rising edge of WE# the chip has seen nothing; from it on it has seen exactly one write cycle of the pair, and
address and byte are still the transaction's; CE# is released after it, before the last wait. -/
def Obligations.StrobeSeesAddressAndDataStable : Prop :=
  ∀ (a : Addr) (b : Byte) (s : State), Ready s → s.bus.mode = .write →
    let opened : List MicroOp :=
      [.drive .oeN true, .wait .settle, .drive .weN true, .wait .settle, .drive .ceN false, .wait .settle]
    let before : List MicroOp := opened ++ (shiftOps a ++ [.busOutput b, .wait .settle, .drive .weN false, .wait .wp])
    let edge : State := applyMicro (.drive .weN true) (runMicros before s)
    let after : List MicroOp := [.wait .settle, .drive .ceN true, .wait .bp]
    txnOps a b = before ++ (.drive .weN true :: after) ∧
      (∀ t ∈ microTrace (shiftOps a) (runMicros opened s), t.bus.ceN = false) ∧
      (∀ t ∈ microTrace (txnOps a b) s, t.bus.weN = false →
        t.chain.q = a ∧ t.bus.dOut = b ∧ t.bus.ceN = false ∧ t.bus.oeN = true ∧ t.bus.dDrive = true ∧
          t.chip = s.chip ∧ t.env.writeCycles = s.env.writeCycles) ∧
      (∀ t ∈ microTrace before s, t.chip = s.chip ∧ t.env.writeCycles = s.env.writeCycles) ∧
      (runMicros before s).bus.weN = false ∧ edge.bus.weN = true ∧ edge.bus.ceN = false ∧
      (∀ t ∈ microTrace after edge,
        t.chip = s.chip.writeCycle (a.extractLsb' 0 19) b ∧
          t.env.writeCycles = (a.extractLsb' 0 19, b) :: s.env.writeCycles ∧ t.chain.q = a ∧ t.bus.dOut = b) ∧
      (txn a b s).bus.ceN = true

/-- R111: in every state of the two sequences after `ensureWrite()`, no byte has been requested or taken, no event or response sent, and
the mode is Write. -/
def Obligations.SequencesHaveNoInterruptionPoint : Prop :=
  ∀ (a : Addr) (b : Byte) (s : State), s.bus.mode = .write →
    ∀ t ∈ microTrace (writeByteOps a b) s ++ microTrace eraseChipOps s,
      t.srcReq = s.srcReq ∧ t.env.answers = s.env.answers ∧ t.env.sink = s.env.sink ∧
        t.env.responses = s.env.responses ∧ t.bus.mode = .write ∧ t.orch = s.orch ∧ t.busy = s.busy

/-- R106, R109: WRITE_BYTE sends the unlock pairs and its own pair in order and responds OK; pins and chain are as the last
transaction leaves them; nothing else changes. -/
def Obligations.WriteByteSendsItsFourPairs : Prop :=
  ∀ (a : Addr) (b : Byte) (s : State), Ready s →
    exec (.writeByte a b) s = .next (responded .ok 0x00
      (sequenceSent [(0x005555, 0xAA), (0x002AAA, 0x55), (0x005555, 0xA0), (a, b)] a b s))

/-- R66, R108, R109 (the reference chip, entry 4): WRITE_BYTE on a chip that is not armed programs the byte at the low 19 address bits,
and every other byte of the array reads as before; the chip is not armed after it. -/
def Obligations.WriteByteProgramsOnlyItsByte : Prop :=
  ∀ (a : Addr) (b : Byte) (s : State), Ready s → s.chip.cstate = .read → s.chip.array.wf = true →
    ∃ t : State, exec (.writeByte a b) s = .next t ∧
      memRead t.chip.array (a.extractLsb' 0 19) =
        (match s.chip.progMode with
          | .overwrite => b
          | .andMask => memRead s.chip.array (a.extractLsb' 0 19) &&& b) ∧
      (∀ c : ChipAddr, c ≠ a.extractLsb' 0 19 → memRead t.chip.array c = memRead s.chip.array c) ∧
      t.chip.cstate = .read ∧ t.chip.stuck = s.chip.stuck ∧ t.chip.progMode = s.chip.progMode ∧ t.chip.array.wf = true

/-- R107, R110: ERASE_CHIP sends its six pairs in order and responds OK; pins and chain are as the last transaction leaves them;
nothing else changes: no phase, no event. -/
def Obligations.EraseChipSendsItsSixPairs : Prop :=
  ∀ s : State, Ready s →
    exec .eraseChip s = .next (responded .ok 0x00
      (sequenceSent [(0x005555, 0xAA), (0x002AAA, 0x55), (0x005555, 0x80), (0x005555, 0xAA), (0x002AAA, 0x55), (0x005555, 0x10)]
        0x005555 0x10 s))

/-- R67, R108, R110 (the reference chip, entry 4): ERASE_CHIP on a chip that is not armed leaves every byte of the array at 0xFF. -/
def Obligations.EraseChipErasesEveryByte : Prop :=
  ∀ s : State, Ready s → s.chip.cstate = .read →
    ∃ t : State, exec .eraseChip s = .next t ∧ (∀ c : ChipAddr, memRead t.chip.array c = 0xFF) ∧ t.chip.cstate = .read

/-- R108, R63: the block observes nothing of the chip during the sequences: with another chip attached, WRITE_BYTE, ERASE_CHIP and
OP_ERASE leave the same state but for the chip. -/
def Obligations.SequencesObserveNothingOfTheChip : Prop :=
  ∀ (i : Instr) (s t : State) (c : Chip), Ready s → (i = .eraseChip ∨ i = .opErase ∨ ∃ a b, i = .writeByte a b) →
    exec i s = .next t →
      ∃ t' : State, exec i { s with chip := c } = .next t' ∧ t' = { t with chip := t'.chip }

/-- W7, R108: WRITE_BYTE, ENTER_READ, READ_BYTE of one address, on an Overwrite chip that is not armed and injects nothing there:
the byte read is the byte written. -/
def Obligations.WrittenByteReadsBack : Prop :=
  ∀ (a : Addr) (b : Byte) (s : State), Ready s → s.chip.cstate = .read → s.chip.array.wf = true →
    s.chip.progMode = .overwrite → stuckAt s.chip.stuck (a.extractLsb' 0 19) = none →
      ∃ t u v : State, exec (.writeByte a b) s = .next t ∧ exec .enterRead t = .next u ∧
        exec (.readByte a) u = .next v ∧ v.rsp = ⟨.ok, b⟩

/-! ### The orchestrator and the comparator -/

/-- R128, R129: `compareRecord` of differing bytes counts one and emits the fact with the new count; of equal bytes it does nothing. -/
def Obligations.RecordCountsAndEmitsEachMismatch : Prop :=
  ∀ (a : Count) (e v : Byte) (s : State),
    (v = e → compareRecord a e v s = s) ∧
      (v ≠ e →
        compareRecord a e v s =
          { s with
            orch := { s.orch with resCount := s.orch.resCount + 1 }
            ev := ⟨.mismatch, s.orch.phase, a, e, v, s.orch.resCount + 1⟩
            pulses := ⟨false, true⟩
            env := { s.env with sink := ⟨.mismatch, s.orch.phase, a, e, v, s.orch.resCount + 1⟩ :: s.env.sink } })

/-- R113, R114: `beginPhase(p)` clears the results, sets PHASE and emits PHASE_START; `endPhase(p)` emits PHASE_DONE with the results and
leaves PHASE and the results. Each drives no pin. -/
def Obligations.PhasesOpenClearedAndCloseWithTheirResult : Prop :=
  ∀ (p : Phase) (s : State),
    beginPhase p s =
      { s with
        orch := ⟨p, 0, 0⟩
        ev := ⟨.phaseStart, p, 0, 0, 0, 0⟩
        pulses := ⟨false, true⟩
        env := { s.env with sink := ⟨.phaseStart, p, 0, 0, 0, 0⟩ :: s.env.sink } } ∧
      endPhase p s =
        { s with
          ev := ⟨.phaseDone, p, s.orch.resNext, 0, 0, s.orch.resCount⟩
          pulses := ⟨false, true⟩
          env := { s.env with sink := ⟨.phaseDone, p, s.orch.resNext, 0, 0, s.orch.resCount⟩ :: s.env.sink } }

/-- R115, R120: OP_ERASE is the erase sequence between PHASE_START and PHASE_DONE with a zero result; it ends in PHASE Idle, OK. -/
def Obligations.OpEraseErasesAsAPhase : Prop :=
  ∀ s : State, Ready s →
    exec .opErase s = .next (responded .ok 0x00
      { sequenceSent [(0x005555, 0xAA), (0x002AAA, 0x55), (0x005555, 0x80), (0x005555, 0xAA), (0x002AAA, 0x55), (0x005555, 0x10)]
          0x005555 0x10 s with
        orch := ⟨.idle, 0, 0⟩
        ev := doneEvent .erasing 0 0
        env := { (sequenceSent [(0x005555, 0xAA), (0x002AAA, 0x55), (0x005555, 0x80), (0x005555, 0xAA), (0x002AAA, 0x55),
            (0x005555, 0x10)] 0x005555 0x10 s).env with
          sink := doneEvent .erasing 0 0 :: startEvent .erasing :: s.env.sink } })

/-- R116, R121, R133: OP_VERIFY_ERASED compares every chip byte with 0xFF: it counts the bytes that differ, emits each as it is found,
ends OK at RES_NEXT = MAX_ADDRESS in Read mode with Q = 0x07FFFF, and changes no chip byte. -/
def Obligations.OpVerifyErasedCountsEveryMismatch : Prop :=
  ∀ s : State, Ready s → s.srcReq = false →
    ∃ t : State, exec .opVerifyErased s = .next t ∧ OperationEnded .ok s t ∧
      t.orch = ⟨.idle, BitVec.ofNat 20 (mismatches s.chip 0 (List.replicate maxAddress 0xFF)), 0x80000⟩ ∧
      t.env.sink =
        doneEvent .verifyingErased 0x80000 (BitVec.ofNat 20 (mismatches s.chip 0 (List.replicate maxAddress 0xFF))) ::
          ((scanEvents .verifyingErased s.chip 0 0 (List.replicate maxAddress 0xFF)).reverse ++
            startEvent .verifyingErased :: s.env.sink) ∧
      t.bus = ⟨.read, false, false, true, false, s.bus.dOut⟩ ∧ t.chain = chainOf 0x07FFFF ∧ t.chip = s.chip ∧
      t.env.answers = s.env.answers ∧ t.env.writeCycles = s.env.writeCycles

/-- R32, R132: after a scan RES_COUNT, as a number, is the number of bytes that differed and the number of MISMATCH events emitted, and at
most MAX_ADDRESS: nothing wraps. For OP_VERIFY_ERASED over the whole chip, and for OP_VERIFY_WRITTEN over a stream of any length. -/
def Obligations.MismatchCountNeverWraps : Prop :=
  (∀ s : State, Ready s →
    ∃ t : State, exec .opVerifyErased s = .next t ∧
      t.orch.resCount.toNat = mismatches s.chip 0 (List.replicate maxAddress 0xFF) ∧ t.orch.resCount.toNat ≤ maxAddress ∧
      ∃ evs : List Event, t.env.sink = evs ++ s.env.sink ∧
        (evs.filter fun e => e.kind = .mismatch).length = t.orch.resCount.toNat) ∧
    ∀ (s : State) (bs : List Byte) (left : List SrcAnswer), Ready s → StreamTaken s.env.answers bs left →
      ∃ t : State, exec .opVerifyWritten s = .next t ∧
        t.orch.resCount.toNat = mismatches s.chip 0 bs ∧ t.orch.resCount.toNat ≤ bs.length ∧ bs.length ≤ maxAddress ∧
        ∃ evs : List Event, t.env.sink = evs ++ s.env.sink ∧
          (evs.filter fun e => e.kind = .mismatch).length = t.orch.resCount.toNat

/-- R117, R122, R126: OP_WRITE writes the stream's bytes from address 0 on, byte `k` to address `k`, and stops at EOS or at MAX_ADDRESS
without a further request; it ends OK, in Write mode, RES_NEXT the number of bytes, the last address in the chain (an empty stream
leaves the chain as it was). -/
def Obligations.OpWriteWritesTheStream : Prop :=
  ∀ (s : State) (bs : List Byte) (left : List SrcAnswer), Ready s → s.srcReq = false → StreamTaken s.env.answers bs left →
    ∃ t : State, exec .opWrite s = .next t ∧ OperationEnded .ok s t ∧
      t.orch = ⟨.idle, 0, BitVec.ofNat 20 bs.length⟩ ∧
      t.chip = s.chip.afterPairs (streamPairs 0 bs) ∧
      t.env.writeCycles = writeCyclesOf (streamPairs 0 bs) ++ s.env.writeCycles ∧
      t.env.sink = doneEvent .writing (BitVec.ofNat 20 bs.length) 0 :: startEvent .writing :: s.env.sink ∧
      t.env.answers = left ∧ t.bus = busAfterWriting bs ∧ t.bus.settled = true ∧ t.chain = s.chain.afterScan bs.length

/-- R52, R66, R122 (the reference chip, entry 4): after OP_WRITE on a chip that is not armed, array byte `k` holds what programming
stream byte `k` leaves, and every byte beyond the stream reads as before. -/
def Obligations.OpWriteProgramsExactlyTheStream : Prop :=
  ∀ (s : State) (bs : List Byte) (left : List SrcAnswer), Ready s → StreamTaken s.env.answers bs left →
    s.chip.cstate = .read → s.chip.array.wf = true →
      ∃ t : State, exec .opWrite s = .next t ∧
        ∀ c : ChipAddr, memRead t.chip.array c = streamByte s.chip.progMode s.chip.array bs c

/-- R118, R123, R126, R133: OP_VERIFY_WRITTEN compares chip byte `k` with stream byte `k`: it counts and emits each mismatch, stops at
EOS or at MAX_ADDRESS without a further request, and ends OK in Read mode with the last address compared in the chain (V48); it changes
no chip byte. -/
def Obligations.OpVerifyWrittenComparesTheStream : Prop :=
  ∀ (s : State) (bs : List Byte) (left : List SrcAnswer), Ready s → s.srcReq = false → StreamTaken s.env.answers bs left →
    ∃ t : State, exec .opVerifyWritten s = .next t ∧ OperationEnded .ok s t ∧
      t.orch = ⟨.idle, BitVec.ofNat 20 (mismatches s.chip 0 bs), BitVec.ofNat 20 bs.length⟩ ∧
      t.env.sink =
        doneEvent .verifyingWritten (BitVec.ofNat 20 bs.length) (BitVec.ofNat 20 (mismatches s.chip 0 bs)) ::
          ((scanEvents .verifyingWritten s.chip 0 0 bs).reverse ++ startEvent .verifyingWritten :: s.env.sink) ∧
      t.bus = ⟨.read, false, false, true, false, s.bus.dOut⟩ ∧ t.chip = s.chip ∧ t.env.answers = left ∧
      t.env.writeCycles = s.env.writeCycles ∧ t.chain = s.chain.afterScan bs.length

/-- R119, R124, R139: IOERR in Writing or in VerifyingWritten ends the operation with E_IO, in OP_WRITE, in OP_VERIFY_WRITTEN and in either
phase of OP_PROGRAM, none of whose later phases runs: PHASE Failed, one FAIL event with the address whose byte did not arrive and the
count, no PHASE_DONE of that phase, FAULT untouched; what was done before keeps its effect: chip, results, mode, pins and chain. -/
def Obligations.SourceErrorAbortsThePhase : Prop :=
  ∀ (s : State) (left : List SrcAnswer), Ready s → s.srcReq = false →
    let blank := s.chip.afterPairs chipEraseSequence
    (∀ bs : List Byte, StreamFails s.env.answers bs left →
      (∃ t : State, exec .opWrite s = .next t ∧ OperationEnded .eIo s t ∧
        t.orch = ⟨.failed, 0, BitVec.ofNat 20 bs.length⟩ ∧
        t.env.sink = ⟨.fail, .writing, BitVec.ofNat 20 bs.length, 0, 0, 0⟩ :: startEvent .writing :: s.env.sink ∧
        t.chip = s.chip.afterPairs (streamPairs 0 bs) ∧
        t.env.writeCycles = writeCyclesOf (streamPairs 0 bs) ++ s.env.writeCycles ∧
        t.env.answers = left ∧ t.bus = busAfterWriting bs ∧ t.chain = s.chain.afterScan bs.length) ∧
      (∃ t : State, exec .opVerifyWritten s = .next t ∧ OperationEnded .eIo s t ∧
        t.orch = ⟨.failed, BitVec.ofNat 20 (mismatches s.chip 0 bs), BitVec.ofNat 20 bs.length⟩ ∧
        t.env.sink =
          ⟨.fail, .verifyingWritten, BitVec.ofNat 20 bs.length, 0, 0, BitVec.ofNat 20 (mismatches s.chip 0 bs)⟩ ::
            ((scanEvents .verifyingWritten s.chip 0 0 bs).reverse ++ startEvent .verifyingWritten :: s.env.sink) ∧
        t.chip = s.chip ∧ t.env.writeCycles = s.env.writeCycles ∧ t.env.answers = left ∧
        t.bus = ⟨.read, false, false, true, false, s.bus.dOut⟩ ∧ t.chain = s.chain.afterScan bs.length) ∧
      ∃ t : State, exec .opProgram s = .next t ∧ OperationEnded .eIo s t ∧
        t.orch = ⟨.failed, 0, BitVec.ofNat 20 bs.length⟩ ∧
        t.env.sink = ⟨.fail, .writing, BitVec.ofNat 20 bs.length, 0, 0, 0⟩ :: startEvent .writing ::
          (eventsBeforeWriting blank ++ s.env.sink) ∧
        t.chip = blank.afterPairs (streamPairs 0 bs) ∧
        t.env.writeCycles = writeCyclesOf (chipEraseSequence ++ streamPairs 0 bs) ++ s.env.writeCycles ∧
        t.env.answers = left ∧ t.bus = busAfterWriting bs ∧ t.chain = (chainOf 0x07FFFF).afterScan bs.length) ∧
    ∀ (bs cs : List Byte) (mid : List SrcAnswer), StreamTaken s.env.answers bs mid → StreamFails mid cs left →
      let done := blank.afterPairs (streamPairs 0 bs)
      ∃ t : State, exec .opProgram s = .next t ∧ OperationEnded .eIo s t ∧
        t.orch = ⟨.failed, BitVec.ofNat 20 (mismatches done 0 cs), BitVec.ofNat 20 cs.length⟩ ∧
        t.env.sink =
          ⟨.fail, .verifyingWritten, BitVec.ofNat 20 cs.length, 0, 0, BitVec.ofNat 20 (mismatches done 0 cs)⟩ ::
            ((scanEvents .verifyingWritten done 0 0 cs).reverse ++ startEvent .verifyingWritten ::
              doneEvent .writing (BitVec.ofNat 20 bs.length) 0 :: startEvent .writing ::
                (eventsBeforeWriting blank ++ s.env.sink)) ∧
        t.chip = done ∧ t.env.writeCycles = writeCyclesOf (chipEraseSequence ++ streamPairs 0 bs) ++ s.env.writeCycles ∧
        t.env.answers = left ∧ t.bus = ⟨.read, false, false, true, false, bs.getLastD 0x00⟩ ∧
        t.chain = ((chainOf 0x07FFFF).afterScan bs.length).afterScan cs.length

/-- R127: where the source falls silent after some bytes, the operation waits in its request, in OP_WRITE, in OP_VERIFY_WRITTEN and in
either phase of OP_PROGRAM: busy, `src_req` high, no response, PHASE and results those of the running phase, SEQ holding what is left,
everything done before kept. That an empty list of answers is a silent source is the model's choice (entry 7). -/
def Obligations.SilentSourceLeavesTheOperationWaiting : Prop :=
  ∀ s : State, Ready s → s.busy = true →
    let blank := s.chip.afterPairs chipEraseSequence
    (∀ bs : List Byte, StreamStalls s.env.answers bs →
      (∃ t : State, exec .opWrite s = .next t ∧ OperationWaiting .write (.endPhase .writing :: operationDone) s t ∧
        t.orch = ⟨.writing, 0, BitVec.ofNat 20 bs.length⟩ ∧ t.env.sink = startEvent .writing :: s.env.sink ∧
        t.chip = s.chip.afterPairs (streamPairs 0 bs) ∧
        t.env.writeCycles = writeCyclesOf (streamPairs 0 bs) ++ s.env.writeCycles ∧
        t.bus = busAfterWriting bs ∧ t.chain = s.chain.afterScan bs.length) ∧
      (∃ t : State, exec .opVerifyWritten s = .next t ∧
        OperationWaiting .verify (.endPhase .verifyingWritten :: operationDone) s t ∧
        t.orch = ⟨.verifyingWritten, BitVec.ofNat 20 (mismatches s.chip 0 bs), BitVec.ofNat 20 bs.length⟩ ∧
        t.env.sink = (scanEvents .verifyingWritten s.chip 0 0 bs).reverse ++ startEvent .verifyingWritten :: s.env.sink ∧
        t.chip = s.chip ∧ t.env.writeCycles = s.env.writeCycles ∧
        t.bus = ⟨.read, false, false, true, false, s.bus.dOut⟩ ∧ t.chain = s.chain.afterScan bs.length) ∧
      ∃ t : State, exec .opProgram s = .next t ∧
        OperationWaiting .write (.endPhase .writing :: (verifyWrittenPhase ++ operationDone)) s t ∧
        t.orch = ⟨.writing, 0, BitVec.ofNat 20 bs.length⟩ ∧
        t.env.sink = startEvent .writing :: (eventsBeforeWriting blank ++ s.env.sink) ∧
        t.chip = blank.afterPairs (streamPairs 0 bs) ∧
        t.env.writeCycles = writeCyclesOf (chipEraseSequence ++ streamPairs 0 bs) ++ s.env.writeCycles ∧
        t.bus = busAfterWriting bs ∧ t.chain = (chainOf 0x07FFFF).afterScan bs.length) ∧
    ∀ (bs cs : List Byte) (mid : List SrcAnswer), StreamTaken s.env.answers bs mid → StreamStalls mid cs →
      let done := blank.afterPairs (streamPairs 0 bs)
      ∃ t : State, exec .opProgram s = .next t ∧
        OperationWaiting .verify (.endPhase .verifyingWritten :: operationDone) s t ∧
        t.orch = ⟨.verifyingWritten, BitVec.ofNat 20 (mismatches done 0 cs), BitVec.ofNat 20 cs.length⟩ ∧
        t.env.sink = (scanEvents .verifyingWritten done 0 0 cs).reverse ++ startEvent .verifyingWritten ::
          doneEvent .writing (BitVec.ofNat 20 bs.length) 0 :: startEvent .writing :: (eventsBeforeWriting blank ++ s.env.sink) ∧
        t.chip = done ∧ t.env.writeCycles = writeCyclesOf (chipEraseSequence ++ streamPairs 0 bs) ++ s.env.writeCycles ∧
        t.bus = ⟨.read, false, false, true, false, bs.getLastD 0x00⟩ ∧
        t.chain = ((chainOf 0x07FFFF).afterScan bs.length).afterScan cs.length

/-- R124, R125, R133: OP_PROGRAM runs the four phases in order over two passes of the byte source; mismatches of either scan do not
stop it; its events are the four phases' in order, its result is VerifyingWritten's, and the chain holds the last address presented. -/
def Obligations.OpProgramRunsTheFourPhases : Prop :=
  ∀ (s : State) (bs cs : List Byte) (mid left : List SrcAnswer), Ready s → s.srcReq = false →
    StreamTaken s.env.answers bs mid → StreamTaken mid cs left →
      let blank := s.chip.afterPairs [(0x005555, 0xAA), (0x002AAA, 0x55), (0x005555, 0x80), (0x005555, 0xAA),
        (0x002AAA, 0x55), (0x005555, 0x10)]
      let done := blank.afterPairs (streamPairs 0 bs)
      let all := List.replicate maxAddress 0xFF#8
      ∃ t : State, exec .opProgram s = .next t ∧ OperationEnded .ok s t ∧
        t.orch = ⟨.idle, BitVec.ofNat 20 (mismatches done 0 cs), BitVec.ofNat 20 cs.length⟩ ∧ t.chip = done ∧
        t.env.sink =
          doneEvent .verifyingWritten (BitVec.ofNat 20 cs.length) (BitVec.ofNat 20 (mismatches done 0 cs)) ::
            ((scanEvents .verifyingWritten done 0 0 cs).reverse ++
              startEvent .verifyingWritten :: doneEvent .writing (BitVec.ofNat 20 bs.length) 0 :: startEvent .writing ::
                doneEvent .verifyingErased 0x80000 (BitVec.ofNat 20 (mismatches blank 0 all)) ::
                  ((scanEvents .verifyingErased blank 0 0 all).reverse ++
                    startEvent .verifyingErased :: doneEvent .erasing 0 0 :: startEvent .erasing :: s.env.sink)) ∧
        t.env.writeCycles = writeCyclesOf (chipEraseSequence ++ streamPairs 0 bs) ++ s.env.writeCycles ∧
        t.env.answers = left ∧ t.bus = ⟨.read, false, false, true, false, bs.getLastD 0x00⟩ ∧ t.bus.settled = true ∧
        t.chain = ((chainOf 0x07FFFF).afterScan bs.length).afterScan cs.length

/-- W8, R121: on a reference chip that is not armed and injects nothing, OP_ERASE then OP_VERIFY_ERASED ends OK with RES_COUNT 0, RES_NEXT
0x80000 and no MISMATCH event. -/
def Obligations.ErasedChipVerifiesClean : Prop :=
  ∀ s : State, Ready s → s.srcReq = false → s.chip.cstate = .read → s.chip.stuck = [] →
    ∃ t u : State, exec .opErase s = .next t ∧ exec .opVerifyErased t = .next u ∧ u.rsp = ⟨.ok, 0x00⟩ ∧
      u.orch = ⟨.idle, 0, 0x80000⟩ ∧ lastAddressProcessed u = some 0x7FFFF ∧
      u.env.sink = [doneEvent .verifyingErased 0x80000 0, startEvent .verifyingErased, doneEvent .erasing 0 0,
        startEvent .erasing] ++ s.env.sink

/-- R131: lastAddressProcessed is RES_NEXT - 1 where RES_NEXT is above 0, and absent where it is 0; a full VerifyingErased gives
0x7FFFF; a VerifyingWritten over a stream of `L` bytes gives `L - 1`, and none where `L` is 0. -/
def Obligations.LastAddressIsOneBelowTheNext : Prop :=
  (∀ s : State, lastAddressProcessed s = if s.orch.resNext = 0 then none else some (s.orch.resNext - 1)) ∧
    (∀ s : State, Ready s → ∃ t : State, exec .opVerifyErased s = .next t ∧ lastAddressProcessed t = some 0x7FFFF) ∧
    ∀ (s : State) (bs : List Byte) (left : List SrcAnswer), Ready s → StreamTaken s.env.answers bs left →
      ∃ t : State, exec .opVerifyWritten s = .next t ∧
        lastAddressProcessed t = if bs = [] then none else some (BitVec.ofNat 20 (bs.length - 1))

/-! ### Errors -/

/-- R74, R136: a word whose opcode is reserved decodes to an illegal command, and each of the four illegal commands responds
E_ILLEGAL_OP and sets FAULT; that is all it does. -/
def Obligations.ReservedOpcodesAreIllegal : Prop :=
  (∀ w : CmdWord, (opField w = 0x0 ∨ opField w = 0xD ∨ opField w = 0xE ∨ opField w = 0xF) ↔ (decode w).legal = false) ∧
    ∀ (i : Instr) (s : State), i.legal = false →
      exec i s = .next (responded .eIllegalOp 0x00 { s with fault := true })

/-- R34: FAULT, once set, stays set in every micro-step that is no reset edge, and no other than `raise Err` sets it; `raise Err` does
so with each of its codes, an abort (E_IO) does not, and a reset edge clears it. -/
def Obligations.FaultIsStickyAndOnlyErrorsSetIt : Prop :=
  (∀ (T : Timing) (s : State), s.env.rstEdges = 0 →
    (s.fault = true → (microStep T s).fault = true) ∧
      ((microStep T s).fault = true → s.fault = true ∨ ∃ e rest, s.busy = true ∧ s.seq = .raiseErr e :: rest)) ∧
    (∀ (e : Status) (s : State), (raiseErr e s).fault = true ∧ (raiseErr e s).lastStatus = e) ∧
    (∀ (p : Phase) (s : State), (abort p s).fault = s.fault ∧ (abort p s).lastStatus = .eIo) ∧
    ∀ s : State, (resetEdge s).fault = false

/-- R112's table, in every state the machine passes through: a micro-step that changes PHASE is one of its rows, with PHASE before and
after as the row has them; a reset edge leaves Idle; and commands 0x1 to 0x7 and the reserved opcodes leave PHASE alone. -/
def Obligations.PhaseChangesOnlyAsTheTableSays : Prop :=
  (∀ (T : Timing) (s : State), Reachable T s → (microStep T s).orch.phase ≠ s.orch.phase →
    (s.env.rstEdges ≠ 0 ∧ (microStep T s).orch.phase = .idle) ∨
      (s.env.rstEdges = 0 ∧ s.busy = false ∧ s.env.hostWords ≠ [] ∧ s.orch.phase = .failed ∧ (microStep T s).orch.phase = .idle) ∨
      (s.busy = true ∧ ∃ p rest, s.seq = .beginPhase p :: rest ∧ s.orch.phase.mayBegin p = true ∧
        (microStep T s).orch.phase = p) ∨
      (s.busy = true ∧ s.seq = [.setPhase .failed, .respond .eIo 0x00] ∧ s.orch.phase.reads = true ∧
        (microStep T s).orch.phase = .failed) ∨
      (s.busy = true ∧ s.seq = [.setPhase .idle, .respond .ok 0x00] ∧ s.orch.phase.runs = true ∧
        (microStep T s).orch.phase = .idle)) ∧
    (∀ (T : Timing) (s : State), Reachable T s → s.env.rstEdges ≠ 0 → (microStep T s).orch.phase = .idle) ∧
    ∀ (i : Instr) (s t : State), i.opcode.toNat < 0x8 ∨ 0xC < i.opcode.toNat → exec i s = .next t → t.orch.phase = s.orch.phase

/-! ### The two views, timing, invariants -/

/-- R58, R85 to R124: a step of the host's view is a run of micro-steps: from every state of the invariant, whatever the timing
parameters, the state a step answers is reached by one or more micro-steps. -/
def Obligations.EveryStepIsARunOfMicroSteps : Prop :=
  ∀ (T : Timing) (s t : State), T.valid = true → Inv s → step s = .next t → ∃ n : Nat, 0 < n ∧ microRun T n s = t

/-- R167 (informative there): the cycles of the named operations; `readByte(a)` is its micro-operations and one cycle of `sample()`. -/
def Obligations.OperationsTakeTheirCycles : Prop :=
  ∀ (T : Timing) (v : Addr) (b : Byte),
    opsCycles T (shiftOps v) = 74 + 74 * T.tSettle ∧
      opsCycles T enterReadOps = 3 + T.tDir + 2 * T.tSettle ∧
      opsCycles T enterWriteOps = 4 + T.tDir + 3 * T.tSettle ∧
      opsCycles T (setDataOps b) = 1 + T.tSettle ∧
      opsCycles T (shiftOps v ++ [.wait .rd]) + 1 = 75 + 74 * T.tSettle + T.tRd ∧
      opsCycles T (txnOps v b) = 81 + 79 * T.tSettle + T.tWp + T.tBp ∧
      opsCycles T (writeByteOps v b) = 324 + 316 * T.tSettle + 4 * T.tWp + 4 * T.tBp ∧
      opsCycles T eraseChipOps = 486 + 474 * T.tSettle + 6 * T.tWp + 6 * T.tBp + T.tSce

/-- R14, R168: a `wait` at the head of SEQ is over after exactly its number of micro-steps, each one cycle long; until then nothing
changes but SEQ, WAIT_CTR and the end of a one-cycle pulse. -/
def Obligations.WaitHoldsEveryOutputForItsCycles : Prop :=
  ∀ (T : Timing) (t : Delay) (rest : List Item) (s : State), T.valid = true →
    s.safetyFault = false → contention s = false → s.env.rstEdges = 0 → s.busy = true → s.seq = .micro (.wait t) :: rest →
      (∀ n : Nat, 0 < n → n < T.cycles t →
        microRun T n s =
          { s with
            pulses := ⟨false, false⟩
            seq := .micro .waiting :: rest
            hidden := { s.hidden with waitCtr := T.cycles t - n } }) ∧
      microRun T (T.cycles t) s =
        { s with pulses := ⟨false, false⟩, seq := rest, hidden := { s.hidden with waitCtr := 0 } } ∧
      microCycles T (T.cycles t) s = T.cycles t

/-- R38, R89, R167 (V7): a SHIFT_ADDR presented to a ready block raises `rsp_valid` in the `75 + 74 * T_SETTLE`-th cycle after its
acceptance, with the address latched. -/
def Obligations.ShiftAddrRespondsInItsCycle : Prop :=
  ∀ (T : Timing) (s : State) (a : Addr) (ws : List CmdWord), T.valid = true → Inv s → s.env.rstEdges = 0 → s.busy = false →
    s.env.hostWords = encode (.shiftAddr a) :: ws →
      ∃ n : Nat, microCycles T n s = 75 + 74 * T.tSettle ∧ (microRun T n s).pulses.rspValid = true ∧
        (microRun T n s).busy = true ∧ (microRun T n s).chain.q = a ∧ (microRun T n s).rsp = ⟨.ok, 0x00⟩

/-- R44, R156: the machine after power-up and reset, for any draw of SR, Q and a canonical chip array, meets the invariant, is ready,
and shows the status outputs of R156. -/
def Obligations.PowerUpMeetsTheInvariant : Prop :=
  (∀ (sr q : Addr) (chip : Chip), chip.array.wf = true →
    Inv (State.powerUp sr q chip) ∧ cmdReady (State.powerUp sr q chip) = true ∧
      statusOutputs (State.powerUp sr q chip) = ⟨false, 0, 0, false, 0, 0, 0, q⟩) ∧
    Inv State.reset

/-- R25, R32, R33, R44, R102, R112, R126, R127: from every state of the invariant, every step that answers a next state keeps it, and
a step always does. -/
def Obligations.MachineInvariantKeptByEveryStep : Prop :=
  ∀ s : State, Inv s → ∃ t : State, step s = .next t ∧ Inv t

/-- R49, R63: the array stays canonical in every micro-step, and what the tester has set (STUCK, PROG_MODE) never changes. -/
def Obligations.EveryMicroStepKeepsTheArrayCanonical : Prop :=
  ∀ (T : Timing) (s : State), s.chip.array.wf = true →
    (microStep T s).chip.array.wf = true ∧ (microStep T s).chip.stuck = s.chip.stuck ∧
      (microStep T s).chip.progMode = s.chip.progMode

/-- R14, R167: the counted cycles are those the micro-steps take. A list of micro-operations at the head of SEQ, with no CONTENTION on its way,
is run by micro-steps that take exactly `opsCycles` of it; and a `readByte(a)` at the head of SEQ in Read mode has its byte sampled
after 75 + 74 * T_SETTLE + T_RD cycles. -/
def Obligations.MicroStepsTakeTheCountedCycles : Prop :=
  ∀ (T : Timing) (s : State) (rest : List Item), T.valid = true → s.safetyFault = false → s.env.rstEdges = 0 → s.busy = true →
    (∀ ms : List MicroOp, MicroOp.waiting ∉ ms → s.seq = microItems ms ++ rest → (∀ t ∈ microTrace ms s, contention t = false) →
      ∃ n : Nat, microRun T n s = { runMicros ms s with seq := rest } ∧ microCycles T n s = opsCycles T ms) ∧
    ∀ (a : Addr) (u : SampleUse), Ready s → s.bus.mode = .read → s.seq = readByteItems a u ++ rest →
      ∃ n : Nat, microCycles T n s = 75 + 74 * T.tSettle + T.tRd ∧ (microRun T n s).chain = chainOf a ∧
        (microRun T n s).seq =
          (match u with
            | .toHost => .respond .ok (s.chip.output (a.extractLsb' 0 19))
            | .compareWith e => .compareRecord e (s.chip.output (a.extractLsb' 0 19))) :: rest
end

