-- ==== Sys2Proof/Laws/State.lean ====
section
/-! SUPPORT. What each field of State is after each shared update: one lemma per field per update, each true by `rfl`. -/

namespace Sys2Proof.Machine

/-! ### `pulsesOff` -/

@[simp] theorem pulsesOff_latch (s : State) : (pulsesOff s).latch = s.latch := rfl
@[simp] theorem pulsesOff_chain (s : State) : (pulsesOff s).chain = s.chain := rfl
@[simp] theorem pulsesOff_bus (s : State) : (pulsesOff s).bus = s.bus := rfl
@[simp] theorem pulsesOff_orch (s : State) : (pulsesOff s).orch = s.orch := rfl
@[simp] theorem pulsesOff_fault (s : State) : (pulsesOff s).fault = s.fault := rfl
@[simp] theorem pulsesOff_lastStatus (s : State) : (pulsesOff s).lastStatus = s.lastStatus := rfl
@[simp] theorem pulsesOff_busy (s : State) : (pulsesOff s).busy = s.busy := rfl
@[simp] theorem pulsesOff_rsp (s : State) : (pulsesOff s).rsp = s.rsp := rfl
@[simp] theorem pulsesOff_ev (s : State) : (pulsesOff s).ev = s.ev := rfl
@[simp] theorem pulsesOff_pulses (s : State) : (pulsesOff s).pulses = ⟨false, false⟩ := rfl
@[simp] theorem pulsesOff_srcReq (s : State) : (pulsesOff s).srcReq = s.srcReq := rfl
@[simp] theorem pulsesOff_seq (s : State) : (pulsesOff s).seq = s.seq := rfl
@[simp] theorem pulsesOff_hidden (s : State) : (pulsesOff s).hidden = s.hidden := rfl
@[simp] theorem pulsesOff_chip (s : State) : (pulsesOff s).chip = s.chip := rfl
@[simp] theorem pulsesOff_env (s : State) : (pulsesOff s).env = s.env := rfl
@[simp] theorem pulsesOff_draws (s : State) : (pulsesOff s).draws = s.draws := rfl
@[simp] theorem pulsesOff_safetyFault (s : State) : (pulsesOff s).safetyFault = s.safetyFault := rfl

/-! ### `observe` -/

@[simp] theorem observe_latch (s : State) : (observe s).latch = s.latch := rfl
@[simp] theorem observe_chain (s : State) : (observe s).chain = s.chain := rfl
@[simp] theorem observe_bus (s : State) : (observe s).bus = s.bus := rfl
@[simp] theorem observe_orch (s : State) : (observe s).orch = s.orch := rfl
@[simp] theorem observe_fault (s : State) : (observe s).fault = s.fault := rfl
@[simp] theorem observe_lastStatus (s : State) : (observe s).lastStatus = s.lastStatus := rfl
@[simp] theorem observe_busy (s : State) : (observe s).busy = s.busy := rfl
@[simp] theorem observe_rsp (s : State) : (observe s).rsp = s.rsp := rfl
@[simp] theorem observe_ev (s : State) : (observe s).ev = s.ev := rfl
@[simp] theorem observe_pulses (s : State) : (observe s).pulses = s.pulses := rfl
@[simp] theorem observe_srcReq (s : State) : (observe s).srcReq = s.srcReq := rfl
@[simp] theorem observe_seq (s : State) : (observe s).seq = s.seq := rfl
@[simp] theorem observe_hidden (s : State) : (observe s).hidden = s.hidden := rfl
@[simp] theorem observe_chip (s : State) : (observe s).chip = s.chip := rfl
@[simp] theorem observe_env (s : State) : (observe s).env = s.env := rfl
@[simp] theorem observe_draws (s : State) : (observe s).draws = s.draws := rfl
@[simp] theorem observe_safetyFault (s : State) : (observe s).safetyFault = (s.safetyFault || contention s) := rfl

/-! ### `setBus` -/

@[simp] theorem setBus_latch (b : Bus) (s : State) : (setBus b s).latch = s.latch := rfl
@[simp] theorem setBus_chain (b : Bus) (s : State) : (setBus b s).chain = s.chain := rfl
@[simp] theorem setBus_bus (b : Bus) (s : State) : (setBus b s).bus = b := rfl
@[simp] theorem setBus_orch (b : Bus) (s : State) : (setBus b s).orch = s.orch := rfl
@[simp] theorem setBus_fault (b : Bus) (s : State) : (setBus b s).fault = s.fault := rfl
@[simp] theorem setBus_lastStatus (b : Bus) (s : State) : (setBus b s).lastStatus = s.lastStatus := rfl
@[simp] theorem setBus_busy (b : Bus) (s : State) : (setBus b s).busy = s.busy := rfl
@[simp] theorem setBus_rsp (b : Bus) (s : State) : (setBus b s).rsp = s.rsp := rfl
@[simp] theorem setBus_ev (b : Bus) (s : State) : (setBus b s).ev = s.ev := rfl
@[simp] theorem setBus_pulses (b : Bus) (s : State) : (setBus b s).pulses = ⟨false, false⟩ := rfl
@[simp] theorem setBus_srcReq (b : Bus) (s : State) : (setBus b s).srcReq = s.srcReq := rfl
@[simp] theorem setBus_seq (b : Bus) (s : State) : (setBus b s).seq = s.seq := rfl
@[simp] theorem setBus_hidden (b : Bus) (s : State) : (setBus b s).hidden = s.hidden := rfl
@[simp] theorem setBus_chip (b : Bus) (s : State) : (setBus b s).chip = s.chip := rfl
@[simp] theorem setBus_env (b : Bus) (s : State) : (setBus b s).env = s.env := rfl
@[simp] theorem setBus_draws (b : Bus) (s : State) : (setBus b s).draws = s.draws := rfl
@[simp] theorem setBus_safetyFault (b : Bus) (s : State) : (setBus b s).safetyFault = (s.safetyFault || b.contention) := rfl

/-! ### `setChain` -/

@[simp] theorem setChain_latch (c : Chain) (s : State) : (setChain c s).latch = s.latch := rfl
@[simp] theorem setChain_chain (c : Chain) (s : State) : (setChain c s).chain = c := rfl
@[simp] theorem setChain_bus (c : Chain) (s : State) : (setChain c s).bus = s.bus := rfl
@[simp] theorem setChain_orch (c : Chain) (s : State) : (setChain c s).orch = s.orch := rfl
@[simp] theorem setChain_fault (c : Chain) (s : State) : (setChain c s).fault = s.fault := rfl
@[simp] theorem setChain_lastStatus (c : Chain) (s : State) : (setChain c s).lastStatus = s.lastStatus := rfl
@[simp] theorem setChain_busy (c : Chain) (s : State) : (setChain c s).busy = s.busy := rfl
@[simp] theorem setChain_rsp (c : Chain) (s : State) : (setChain c s).rsp = s.rsp := rfl
@[simp] theorem setChain_ev (c : Chain) (s : State) : (setChain c s).ev = s.ev := rfl
@[simp] theorem setChain_pulses (c : Chain) (s : State) : (setChain c s).pulses = ⟨false, false⟩ := rfl
@[simp] theorem setChain_srcReq (c : Chain) (s : State) : (setChain c s).srcReq = s.srcReq := rfl
@[simp] theorem setChain_seq (c : Chain) (s : State) : (setChain c s).seq = s.seq := rfl
@[simp] theorem setChain_hidden (c : Chain) (s : State) : (setChain c s).hidden = s.hidden := rfl
@[simp] theorem setChain_chip (c : Chain) (s : State) : (setChain c s).chip = s.chip := rfl
@[simp] theorem setChain_env (c : Chain) (s : State) : (setChain c s).env = s.env := rfl
@[simp] theorem setChain_draws (c : Chain) (s : State) : (setChain c s).draws = s.draws := rfl
@[simp] theorem setChain_safetyFault (c : Chain) (s : State) : (setChain c s).safetyFault = s.safetyFault := rfl

/-! ### `sampleCycle` -/

@[simp] theorem sampleCycle_latch (s : State) : (sampleCycle s).latch = s.latch := rfl
@[simp] theorem sampleCycle_chain (s : State) : (sampleCycle s).chain = s.chain := rfl
@[simp] theorem sampleCycle_bus (s : State) : (sampleCycle s).bus = s.bus := rfl
@[simp] theorem sampleCycle_orch (s : State) : (sampleCycle s).orch = s.orch := rfl
@[simp] theorem sampleCycle_fault (s : State) : (sampleCycle s).fault = s.fault := rfl
@[simp] theorem sampleCycle_lastStatus (s : State) : (sampleCycle s).lastStatus = s.lastStatus := rfl
@[simp] theorem sampleCycle_busy (s : State) : (sampleCycle s).busy = s.busy := rfl
@[simp] theorem sampleCycle_rsp (s : State) : (sampleCycle s).rsp = s.rsp := rfl
@[simp] theorem sampleCycle_ev (s : State) : (sampleCycle s).ev = s.ev := rfl
@[simp] theorem sampleCycle_pulses (s : State) : (sampleCycle s).pulses = ⟨false, false⟩ := rfl
@[simp] theorem sampleCycle_srcReq (s : State) : (sampleCycle s).srcReq = s.srcReq := rfl
@[simp] theorem sampleCycle_seq (s : State) : (sampleCycle s).seq = s.seq := rfl
@[simp] theorem sampleCycle_hidden (s : State) : (sampleCycle s).hidden = s.hidden := rfl
@[simp] theorem sampleCycle_chip (s : State) : (sampleCycle s).chip = s.chip := rfl
@[simp] theorem sampleCycle_env (s : State) : (sampleCycle s).env = s.env := rfl
@[simp] theorem sampleCycle_draws (s : State) : (sampleCycle s).draws = (if s.bus.dDrive && chipDrives s then s.draws + 1 else s.draws) := rfl
@[simp] theorem sampleCycle_safetyFault (s : State) : (sampleCycle s).safetyFault = s.safetyFault := rfl

/-! ### `emit` -/

@[simp] theorem emit_latch (e : Event) (s : State) : (emit e s).latch = s.latch := rfl
@[simp] theorem emit_chain (e : Event) (s : State) : (emit e s).chain = s.chain := rfl
@[simp] theorem emit_bus (e : Event) (s : State) : (emit e s).bus = s.bus := rfl
@[simp] theorem emit_orch (e : Event) (s : State) : (emit e s).orch = s.orch := rfl
@[simp] theorem emit_fault (e : Event) (s : State) : (emit e s).fault = s.fault := rfl
@[simp] theorem emit_lastStatus (e : Event) (s : State) : (emit e s).lastStatus = s.lastStatus := rfl
@[simp] theorem emit_busy (e : Event) (s : State) : (emit e s).busy = s.busy := rfl
@[simp] theorem emit_rsp (e : Event) (s : State) : (emit e s).rsp = s.rsp := rfl
@[simp] theorem emit_ev (e : Event) (s : State) : (emit e s).ev = e := rfl
@[simp] theorem emit_pulses (e : Event) (s : State) : (emit e s).pulses = ⟨false, true⟩ := rfl
@[simp] theorem emit_srcReq (e : Event) (s : State) : (emit e s).srcReq = s.srcReq := rfl
@[simp] theorem emit_seq (e : Event) (s : State) : (emit e s).seq = s.seq := rfl
@[simp] theorem emit_hidden (e : Event) (s : State) : (emit e s).hidden = s.hidden := rfl
@[simp] theorem emit_chip (e : Event) (s : State) : (emit e s).chip = s.chip := rfl
@[simp] theorem emit_env (e : Event) (s : State) : (emit e s).env = { s.env with sink := e :: s.env.sink } := rfl
@[simp] theorem emit_draws (e : Event) (s : State) : (emit e s).draws = s.draws := rfl
@[simp] theorem emit_safetyFault (e : Event) (s : State) : (emit e s).safetyFault = s.safetyFault := rfl

/-! ### `respond` -/

@[simp] theorem respond_latch (st : Status) (d : Byte) (s : State) : (respond st d s).latch = s.latch := rfl
@[simp] theorem respond_chain (st : Status) (d : Byte) (s : State) : (respond st d s).chain = s.chain := rfl
@[simp] theorem respond_bus (st : Status) (d : Byte) (s : State) : (respond st d s).bus = s.bus := rfl
@[simp] theorem respond_orch (st : Status) (d : Byte) (s : State) : (respond st d s).orch = s.orch := rfl
@[simp] theorem respond_fault (st : Status) (d : Byte) (s : State) : (respond st d s).fault = s.fault := rfl
@[simp] theorem respond_lastStatus (st : Status) (d : Byte) (s : State) : (respond st d s).lastStatus = st := rfl
@[simp] theorem respond_busy (st : Status) (d : Byte) (s : State) : (respond st d s).busy = s.busy := rfl
@[simp] theorem respond_rsp (st : Status) (d : Byte) (s : State) : (respond st d s).rsp = ⟨st, d⟩ := rfl
@[simp] theorem respond_ev (st : Status) (d : Byte) (s : State) : (respond st d s).ev = s.ev := rfl
@[simp] theorem respond_pulses (st : Status) (d : Byte) (s : State) : (respond st d s).pulses = ⟨true, false⟩ := rfl
@[simp] theorem respond_srcReq (st : Status) (d : Byte) (s : State) : (respond st d s).srcReq = s.srcReq := rfl
@[simp] theorem respond_seq (st : Status) (d : Byte) (s : State) : (respond st d s).seq = s.seq := rfl
@[simp] theorem respond_hidden (st : Status) (d : Byte) (s : State) : (respond st d s).hidden = s.hidden := rfl
@[simp] theorem respond_chip (st : Status) (d : Byte) (s : State) : (respond st d s).chip = s.chip := rfl
@[simp] theorem respond_env (st : Status) (d : Byte) (s : State) : (respond st d s).env = { s.env with responses := (st, d) :: s.env.responses } := rfl
@[simp] theorem respond_draws (st : Status) (d : Byte) (s : State) : (respond st d s).draws = s.draws := rfl
@[simp] theorem respond_safetyFault (st : Status) (d : Byte) (s : State) : (respond st d s).safetyFault = s.safetyFault := rfl

/-! ### `finish` -/

@[simp] theorem finish_latch (s : State) : (finish s).latch = s.latch := rfl
@[simp] theorem finish_chain (s : State) : (finish s).chain = s.chain := rfl
@[simp] theorem finish_bus (s : State) : (finish s).bus = s.bus := rfl
@[simp] theorem finish_orch (s : State) : (finish s).orch = s.orch := rfl
@[simp] theorem finish_fault (s : State) : (finish s).fault = s.fault := rfl
@[simp] theorem finish_lastStatus (s : State) : (finish s).lastStatus = s.lastStatus := rfl
@[simp] theorem finish_busy (s : State) : (finish s).busy = false := rfl
@[simp] theorem finish_rsp (s : State) : (finish s).rsp = s.rsp := rfl
@[simp] theorem finish_ev (s : State) : (finish s).ev = s.ev := rfl
@[simp] theorem finish_pulses (s : State) : (finish s).pulses = ⟨false, false⟩ := rfl
@[simp] theorem finish_srcReq (s : State) : (finish s).srcReq = s.srcReq := rfl
@[simp] theorem finish_seq (s : State) : (finish s).seq = [] := rfl
@[simp] theorem finish_hidden (s : State) : (finish s).hidden = Hidden.zero := rfl
@[simp] theorem finish_chip (s : State) : (finish s).chip = s.chip := rfl
@[simp] theorem finish_env (s : State) : (finish s).env = s.env := rfl
@[simp] theorem finish_draws (s : State) : (finish s).draws = s.draws := rfl
@[simp] theorem finish_safetyFault (s : State) : (finish s).safetyFault = s.safetyFault := rfl

/-! ### `setPhase` -/

@[simp] theorem setPhase_latch (p : Phase) (s : State) : (setPhase p s).latch = s.latch := rfl
@[simp] theorem setPhase_chain (p : Phase) (s : State) : (setPhase p s).chain = s.chain := rfl
@[simp] theorem setPhase_bus (p : Phase) (s : State) : (setPhase p s).bus = s.bus := rfl
@[simp] theorem setPhase_orch (p : Phase) (s : State) : (setPhase p s).orch = { s.orch with phase := p } := rfl
@[simp] theorem setPhase_fault (p : Phase) (s : State) : (setPhase p s).fault = s.fault := rfl
@[simp] theorem setPhase_lastStatus (p : Phase) (s : State) : (setPhase p s).lastStatus = s.lastStatus := rfl
@[simp] theorem setPhase_busy (p : Phase) (s : State) : (setPhase p s).busy = s.busy := rfl
@[simp] theorem setPhase_rsp (p : Phase) (s : State) : (setPhase p s).rsp = s.rsp := rfl
@[simp] theorem setPhase_ev (p : Phase) (s : State) : (setPhase p s).ev = s.ev := rfl
@[simp] theorem setPhase_pulses (p : Phase) (s : State) : (setPhase p s).pulses = s.pulses := rfl
@[simp] theorem setPhase_srcReq (p : Phase) (s : State) : (setPhase p s).srcReq = s.srcReq := rfl
@[simp] theorem setPhase_seq (p : Phase) (s : State) : (setPhase p s).seq = s.seq := rfl
@[simp] theorem setPhase_hidden (p : Phase) (s : State) : (setPhase p s).hidden = s.hidden := rfl
@[simp] theorem setPhase_chip (p : Phase) (s : State) : (setPhase p s).chip = s.chip := rfl
@[simp] theorem setPhase_env (p : Phase) (s : State) : (setPhase p s).env = s.env := rfl
@[simp] theorem setPhase_draws (p : Phase) (s : State) : (setPhase p s).draws = s.draws := rfl
@[simp] theorem setPhase_safetyFault (p : Phase) (s : State) : (setPhase p s).safetyFault = s.safetyFault := rfl

/-! ### `setFault` -/

@[simp] theorem setFault_latch (s : State) : (setFault s).latch = s.latch := rfl
@[simp] theorem setFault_chain (s : State) : (setFault s).chain = s.chain := rfl
@[simp] theorem setFault_bus (s : State) : (setFault s).bus = s.bus := rfl
@[simp] theorem setFault_orch (s : State) : (setFault s).orch = s.orch := rfl
@[simp] theorem setFault_fault (s : State) : (setFault s).fault = true := rfl
@[simp] theorem setFault_lastStatus (s : State) : (setFault s).lastStatus = s.lastStatus := rfl
@[simp] theorem setFault_busy (s : State) : (setFault s).busy = s.busy := rfl
@[simp] theorem setFault_rsp (s : State) : (setFault s).rsp = s.rsp := rfl
@[simp] theorem setFault_ev (s : State) : (setFault s).ev = s.ev := rfl
@[simp] theorem setFault_pulses (s : State) : (setFault s).pulses = s.pulses := rfl
@[simp] theorem setFault_srcReq (s : State) : (setFault s).srcReq = s.srcReq := rfl
@[simp] theorem setFault_seq (s : State) : (setFault s).seq = s.seq := rfl
@[simp] theorem setFault_hidden (s : State) : (setFault s).hidden = s.hidden := rfl
@[simp] theorem setFault_chip (s : State) : (setFault s).chip = s.chip := rfl
@[simp] theorem setFault_env (s : State) : (setFault s).env = s.env := rfl
@[simp] theorem setFault_draws (s : State) : (setFault s).draws = s.draws := rfl
@[simp] theorem setFault_safetyFault (s : State) : (setFault s).safetyFault = s.safetyFault := rfl

/-! ### `clearScan` -/

@[simp] theorem clearScan_latch (s : State) : (clearScan s).latch = s.latch := rfl
@[simp] theorem clearScan_chain (s : State) : (clearScan s).chain = s.chain := rfl
@[simp] theorem clearScan_bus (s : State) : (clearScan s).bus = s.bus := rfl
@[simp] theorem clearScan_orch (s : State) : (clearScan s).orch = s.orch := rfl
@[simp] theorem clearScan_fault (s : State) : (clearScan s).fault = s.fault := rfl
@[simp] theorem clearScan_lastStatus (s : State) : (clearScan s).lastStatus = s.lastStatus := rfl
@[simp] theorem clearScan_busy (s : State) : (clearScan s).busy = s.busy := rfl
@[simp] theorem clearScan_rsp (s : State) : (clearScan s).rsp = s.rsp := rfl
@[simp] theorem clearScan_ev (s : State) : (clearScan s).ev = s.ev := rfl
@[simp] theorem clearScan_pulses (s : State) : (clearScan s).pulses = s.pulses := rfl
@[simp] theorem clearScan_srcReq (s : State) : (clearScan s).srcReq = s.srcReq := rfl
@[simp] theorem clearScan_seq (s : State) : (clearScan s).seq = s.seq := rfl
@[simp] theorem clearScan_hidden (s : State) : (clearScan s).hidden = { s.hidden with scanA := 0 } := rfl
@[simp] theorem clearScan_chip (s : State) : (clearScan s).chip = s.chip := rfl
@[simp] theorem clearScan_env (s : State) : (clearScan s).env = s.env := rfl
@[simp] theorem clearScan_draws (s : State) : (clearScan s).draws = s.draws := rfl
@[simp] theorem clearScan_safetyFault (s : State) : (clearScan s).safetyFault = s.safetyFault := rfl

/-! ### `nextScan` -/

@[simp] theorem nextScan_latch (s : State) : (nextScan s).latch = s.latch := rfl
@[simp] theorem nextScan_chain (s : State) : (nextScan s).chain = s.chain := rfl
@[simp] theorem nextScan_bus (s : State) : (nextScan s).bus = s.bus := rfl
@[simp] theorem nextScan_orch (s : State) : (nextScan s).orch = { s.orch with resNext := s.hidden.scanA + 1 } := rfl
@[simp] theorem nextScan_fault (s : State) : (nextScan s).fault = s.fault := rfl
@[simp] theorem nextScan_lastStatus (s : State) : (nextScan s).lastStatus = s.lastStatus := rfl
@[simp] theorem nextScan_busy (s : State) : (nextScan s).busy = s.busy := rfl
@[simp] theorem nextScan_rsp (s : State) : (nextScan s).rsp = s.rsp := rfl
@[simp] theorem nextScan_ev (s : State) : (nextScan s).ev = s.ev := rfl
@[simp] theorem nextScan_pulses (s : State) : (nextScan s).pulses = s.pulses := rfl
@[simp] theorem nextScan_srcReq (s : State) : (nextScan s).srcReq = s.srcReq := rfl
@[simp] theorem nextScan_seq (s : State) : (nextScan s).seq = s.seq := rfl
@[simp] theorem nextScan_hidden (s : State) : (nextScan s).hidden = { s.hidden with scanA := s.hidden.scanA + 1 } := rfl
@[simp] theorem nextScan_chip (s : State) : (nextScan s).chip = s.chip := rfl
@[simp] theorem nextScan_env (s : State) : (nextScan s).env = s.env := rfl
@[simp] theorem nextScan_draws (s : State) : (nextScan s).draws = s.draws := rfl
@[simp] theorem nextScan_safetyFault (s : State) : (nextScan s).safetyFault = s.safetyFault := rfl

/-! ### `takeAnswer` -/

@[simp] theorem takeAnswer_latch (more : List SrcAnswer) (s : State) : (takeAnswer more s).latch = s.latch := rfl
@[simp] theorem takeAnswer_chain (more : List SrcAnswer) (s : State) : (takeAnswer more s).chain = s.chain := rfl
@[simp] theorem takeAnswer_bus (more : List SrcAnswer) (s : State) : (takeAnswer more s).bus = s.bus := rfl
@[simp] theorem takeAnswer_orch (more : List SrcAnswer) (s : State) : (takeAnswer more s).orch = s.orch := rfl
@[simp] theorem takeAnswer_fault (more : List SrcAnswer) (s : State) : (takeAnswer more s).fault = s.fault := rfl
@[simp] theorem takeAnswer_lastStatus (more : List SrcAnswer) (s : State) : (takeAnswer more s).lastStatus = s.lastStatus := rfl
@[simp] theorem takeAnswer_busy (more : List SrcAnswer) (s : State) : (takeAnswer more s).busy = s.busy := rfl
@[simp] theorem takeAnswer_rsp (more : List SrcAnswer) (s : State) : (takeAnswer more s).rsp = s.rsp := rfl
@[simp] theorem takeAnswer_ev (more : List SrcAnswer) (s : State) : (takeAnswer more s).ev = s.ev := rfl
@[simp] theorem takeAnswer_pulses (more : List SrcAnswer) (s : State) : (takeAnswer more s).pulses = ⟨false, false⟩ := rfl
@[simp] theorem takeAnswer_srcReq (more : List SrcAnswer) (s : State) : (takeAnswer more s).srcReq = false := rfl
@[simp] theorem takeAnswer_seq (more : List SrcAnswer) (s : State) : (takeAnswer more s).seq = s.seq := rfl
@[simp] theorem takeAnswer_hidden (more : List SrcAnswer) (s : State) : (takeAnswer more s).hidden = s.hidden := rfl
@[simp] theorem takeAnswer_chip (more : List SrcAnswer) (s : State) : (takeAnswer more s).chip = s.chip := rfl
@[simp] theorem takeAnswer_env (more : List SrcAnswer) (s : State) : (takeAnswer more s).env = { s.env with answers := more } := rfl
@[simp] theorem takeAnswer_draws (more : List SrcAnswer) (s : State) : (takeAnswer more s).draws = s.draws := rfl
@[simp] theorem takeAnswer_safetyFault (more : List SrcAnswer) (s : State) : (takeAnswer more s).safetyFault = s.safetyFault := rfl

end Sys2Proof.Machine
end

