-- ==== Sys2Proof/Laws/Ops.lean ====
section
/-! SUPPORT. Lists of micro-operations, errors and reset: what the shared operations of Machine/Ops.lean do. -/

namespace Sys2Proof.Machine

@[simp] theorem runMicros_nil (s : State) : runMicros [] s = s := rfl

@[simp] theorem runMicros_cons (m : MicroOp) (ms : List MicroOp) (s : State) :
    runMicros (m :: ms) s = runMicros ms (applyMicro m s) := rfl

theorem runMicros_append (xs ys : List MicroOp) (s : State) :
    runMicros (xs ++ ys) s = runMicros ys (runMicros xs s) := by
  simp [runMicros, List.foldl_append]

/-- R134: an error's whole effect. -/
theorem raiseErr_eq (code : Status) (s : State) :
    raiseErr code s =
      { s with
        fault := true
        lastStatus := code
        rsp := ⟨code, 0⟩
        env := { s.env with responses := (code, 0) :: s.env.responses }
        busy := false
        seq := []
        hidden := Hidden.zero
        pulses := ⟨false, false⟩ } := rfl

/-- R119: an abort's whole effect; FAULT is not in it. -/
theorem abort_eq (p : Phase) (s : State) :
    abort p s =
      { s with
        orch := { s.orch with phase := .failed }
        lastStatus := .eIo
        rsp := ⟨.eIo, 0⟩
        ev := failEvent p s
        env := { s.env with
          sink := failEvent p s :: s.env.sink
          responses := (.eIo, 0) :: s.env.responses }
        busy := false
        seq := []
        hidden := Hidden.zero
        pulses := ⟨false, false⟩ } := rfl

/-- Reset leaves the power-up values of R44, for the chain and the chip it finds; the safety mark and the draws stay. -/
theorem resetEdge_eq (s : State) (h : s.bus.weN = true) :
    resetEdge s =
      { State.powerUp s.chain.sr s.chain.q s.chip with
        env := { s.env with rstEdges := s.env.rstEdges - 1 }
        draws := s.draws
        safetyFault := s.safetyFault } := by
  simp [resetEdge, h]

end Sys2Proof.Machine
end

