-- ==== Sys2Proof/Laws/Serializer.lean ====
section
/-! SUPPORT. What `shift(v)` does (40_address_serializer.md R85 to R88). -/

namespace Sys2Proof.Machine

open Sys2Proof.Config

/-- The shift stage after one rising edge of the serial clock (R22). -/
def srStep (b : Bool) (sr : Addr) : Addr := BitVec.cons b (sr.extractLsb' 1 23)

/-- The shift stage after `n` of them, the bits of `x` entering least significant first (R87). -/
def srAfter : Nat → Addr → Addr → Addr
  | 0, _, sr => sr
  | n + 1, x, sr => srAfter n (x >>> 1) (srStep (x.getLsbD 0) sr)

/-- The serial line after `n` turns. -/
def serAfter : Nat → Addr → Bool → Bool
  | 0, _, ser => ser
  | n + 1, x, _ => serAfter n (x >>> 1) (x.getLsbD 0)

/-- One turn of the bit loop, the serial clock at rest before it. -/
theorem shiftBit_turn (s : State) (h : s.chain.srclk = false) :
    runMicros shiftBitOps s =
      { s with
        chain := { s.chain with
          sr := srStep (s.hidden.shiftV.getLsbD 0) s.chain.sr
          ser := s.hidden.shiftV.getLsbD 0
          srclk := false }
        hidden := { s.hidden with
          shiftV := s.hidden.shiftV >>> 1
          bitIdx := s.hidden.bitIdx + 1
          waitCtr := 0 }
        pulses := ⟨false, false⟩ } := by
  rcases s with ⟨latch, ⟨sr, q, ser, srclk, rclk⟩, rest⟩
  simp only at h
  subst h
  rfl

/-- `n` turns of the bit loop, `n` at least 1. -/
theorem shiftBits_turns (n : Nat) (s : State) (h : s.chain.srclk = false) :
    runMicros (shiftBitsOps (n + 1)) s =
      { s with
        chain := { s.chain with
          sr := srAfter (n + 1) s.hidden.shiftV s.chain.sr
          ser := serAfter (n + 1) s.hidden.shiftV s.chain.ser
          srclk := false }
        hidden := { s.hidden with
          shiftV := s.hidden.shiftV >>> (n + 1)
          bitIdx := s.hidden.bitIdx + BitVec.ofNat 5 (n + 1)
          waitCtr := 0 }
        pulses := ⟨false, false⟩ } := by
  induction n generalizing s with
  | zero =>
    rw [shiftBitsOps, runMicros_append, shiftBit_turn s h]
    rfl
  | succ n ih =>
    rw [shiftBitsOps, runMicros_append, shiftBit_turn s h, ih _ rfl]
    simp [srAfter, serAfter, BitVec.shiftRight_add, Nat.add_comm, BitVec.add_assoc, BitVec.ofNat_add]

theorem srStep_bit (b : Bool) (sr : Addr) (j : Nat) (hj : j < 24) :
    (srStep b sr).getLsbD j = if j = 23 then b else sr.getLsbD (j + 1) := by
  simp only [srStep, BitVec.getLsbD_cons, BitVec.getLsbD_extractLsb']
  by_cases h : j = 23
  · simp [h]
  · have : j < 23 := by omega
    simp [h, this, Nat.add_comm]

/-- Bit `j` of the shift stage after `n` edges: `SR = (v[n-1:0], SR_old[23:n])` (R87). -/
theorem srAfter_bit (n : Nat) (x sr : Addr) (hn : n ≤ 24) (j : Nat) (hj : j < 24) :
    (srAfter n x sr).getLsbD j = if j + n < 24 then sr.getLsbD (j + n) else x.getLsbD (j + n - 24) := by
  induction n generalizing x sr with
  | zero => simp [srAfter, hj]
  | succ n ih =>
    rw [srAfter, ih _ _ (by omega)]
    by_cases h : j + n < 24
    · rw [if_pos h, srStep_bit _ _ _ h]
      by_cases h2 : j + n = 23
      · simp [h2, show j + (n + 1) = 24 by omega]
      · simp [h2, show j + (n + 1) < 24 by omega, Nat.add_assoc]
    · rw [if_neg h, if_neg (by omega), BitVec.getLsbD_ushiftRight]
      congr 1
      omega

/-- All 24 bits in: the shift stage holds the value, whatever it held before (R87). -/
theorem srAfter_all (x sr : Addr) : srAfter 24 x sr = x := by
  apply BitVec.eq_of_getLsbD_eq
  intro j hj
  rw [srAfter_bit 24 x sr (Nat.le_refl _) j hj]
  simp

/-- The last bit driven is bit 23 (R87). -/
theorem serAfter_all (x : Addr) (b : Bool) : serAfter 24 x b = x.getLsbD 23 := by
  simp [serAfter]

/-- R87: what `shift(v)` leaves, from clock lines at rest: SR and Q hold `v`, `ser` its bit 23, the clock lines are at rest
again, the hidden shift registers are spent, and nothing else has changed. -/
theorem shift_eq (v : Addr) (s : State) (hs : s.chain.srclk = false) (hr : s.chain.rclk = false) :
    shift v s =
      { s with
        chain := ⟨v, v, v.getLsbD 23, false, false⟩
        hidden := { s.hidden with shiftV := 0, bitIdx := 24, waitCtr := 0 }
        pulses := ⟨false, false⟩ } := by
  rw [shift, shiftOps, runMicros_cons, runMicros_append, show srBits = 23 + 1 from rfl,
    shiftBits_turns 23 _ (by simpa [applyMicro] using hs)]
  rcases s with ⟨latch, ⟨sr, q, ser, srclk, rclk⟩, rest⟩
  simp only at hs hr
  subst hs hr
  simp [latchOps, driveWait, applyMicro, drivePin, pinLevel, setChain, pulsesOff, Chain.latchEdge, srAfter_all,
    serAfter_all]
  exact BitVec.ushiftRight_eq_zero (Nat.le_refl 24)

end Sys2Proof.Machine
end

