-- ==== Sys2Proof/Laws/BusMode.lean ====
section
/-! SUPPORT. What the bus-mode operations do (41_bus_mode.md R91 to R96). -/

namespace Sys2Proof.Machine

/-- R91, R92: what `enterRead()` leaves, from any state. -/
theorem enterRead_eq (s : State) :
    enterRead s =
      { s with
        bus := ⟨.read, false, false, s.bus.weN, false, s.bus.dOut⟩
        hidden := { s.hidden with waitCtr := 0 }
        pulses := ⟨false, false⟩ } := by
  simp [enterRead, enterReadOps, driveWait, applyMicro, drivePin, setBus, observe, pulsesOff, contention, Bus.contention]

/-- R93, R94: what `enterWrite()` leaves, WE# at rest before it. -/
theorem enterWrite_eq (s : State) (hw : s.bus.weN = true) :
    enterWrite s =
      { s with
        bus := ⟨.write, false, true, true, true, 0⟩
        hidden := { s.hidden with waitCtr := 0 }
        pulses := ⟨false, false⟩ } := by
  simp [enterWrite, enterWriteOps, driveWait, applyMicro, drivePin, pinLevel, setBus, observe, pulsesOff, contention,
    Bus.contention, hw]

/-- R95: what `setData(b)` leaves once its check held, OE# high. -/
theorem setData_eq (b : Byte) (s : State) (ho : s.bus.oeN = true) :
    setData b s =
      { s with
        bus := { s.bus with dDrive := true, dOut := b }
        hidden := { s.hidden with waitCtr := 0 }
        pulses := ⟨false, false⟩ } := by
  simp [setData, setDataOps, applyMicro, setBus, observe, pulsesOff, contention, Bus.contention, ho]

/-- R96: what presenting a read address leaves. -/
theorem presentRead_eq (a : Addr) (s : State) (hs : s.chain.srclk = false) (hr : s.chain.rclk = false) :
    presentRead a s =
      { s with
        chain := ⟨a, a, a.getLsbD 23, false, false⟩
        hidden := { s.hidden with shiftV := 0, bitIdx := 24, waitCtr := 0 }
        pulses := ⟨false, false⟩ } := by
  rw [presentRead, shift_eq a s hs hr]
  rfl

/-- In Read mode's pin setting (R25) the sample is the byte the chip drives (R29, R68). -/
theorem dataIn_of_chip_driving (s : State) (hd : s.bus.dDrive = false) (hc : chipDrives s = true) :
    dataIn s = s.chip.output (chipAddr s) := by
  simp [dataIn, hd, hc]

end Sys2Proof.Machine
end

