-- ==== Sys2Proof/Laws/Sequencer.lean ====
section
/-! SUPPORT. What the write transaction and the two sequences do (42_command_sequencer.md R103 to R107). -/

namespace Sys2Proof.Machine

open Sys2Proof.Config

/-- R103: what one write transaction leaves: the pair is latched and driven, the chip has seen one write cycle of it, CE# is
released, everything else is as before. -/
theorem txn_eq (a : Addr) (b : Byte) (s : State) (hs : s.chain.srclk = false) (hr : s.chain.rclk = false)
    (hw : s.bus.weN = true) :
    txn a b s =
      { s with
        chain := ⟨a, a, a.getLsbD 23, false, false⟩
        bus := ⟨s.bus.mode, true, true, true, true, b⟩
        chip := s.chip.writeCycle (chipAddrOf a) b
        env := { s.env with writeCycles := (chipAddrOf a, b) :: s.env.writeCycles }
        hidden := { s.hidden with shiftV := 0, bitIdx := 24, waitCtr := 0 }
        pulses := ⟨false, false⟩ } := by
  rw [txn, txnOps, runMicros_append, runMicros_append]
  change runMicros _ (shift a _) = _
  rw [shift_eq]
  · simp [driveWait, applyMicro, drivePin, pinLevel, setBus, observe, pulsesOff, contention, Bus.contention, hw, weRises,
      chipAddr, writeCycleByte]
  all_goals simp [driveWait, applyMicro, drivePin, pinLevel, setBus, observe, pulsesOff, hs, hr, hw]

/-- `s` after a sequence, the hidden registers as they are before the response: `k` is TXN_IDX. -/
def afterSequence (ps : List (Addr × Byte)) (a : Addr) (b : Byte) (k : BitVec 3) (s : State) : State :=
  { sequenceSent (ps ++ [(a, b)]) a b s with
    hidden := { s.hidden with shiftV := 0, bitIdx := 24, waitCtr := 0, txnIdx := k }
    pulses := ⟨false, false⟩ }

theorem replayOps_cons (k : BitVec 3) (a : Addr) (b : Byte) (rest : List (Addr × Byte)) (s : State) :
    runMicros (replayOps k ((a, b) :: rest)) s =
      runMicros (replayOps (k + 1) rest) (txn a b (applyMicro (.setTxn k) s)) := by
  rw [replayOps, runMicros_cons, runMicros_append, txn]

/-- R82: a sequence sends its pairs in order, and only they reach the chip. -/
theorem replay_eq (ps : List (Addr × Byte)) (a : Addr) (b : Byte) (k : BitVec 3) (s : State)
    (hs : s.chain.srclk = false) (hr : s.chain.rclk = false) (hw : s.bus.weN = true) (hm : s.bus.mode = .write) :
    runMicros (replayOps k (ps ++ [(a, b)])) s =
      afterSequence ps a b (k + BitVec.ofNat 3 (ps.length + 1)) s := by
  induction ps generalizing k s with
  | nil =>
    rw [List.nil_append, replayOps_cons, txn_eq _ _ (applyMicro (.setTxn k) s) hs hr hw]
    simp [afterSequence, sequenceSent, latched, applyMicro, replayOps, hm, Chip.afterPairs]
  | cons p ps ih =>
    rw [List.cons_append, replayOps_cons, txn_eq _ _ (applyMicro (.setTxn k) s) hs hr hw, ih]
    case hs | hr | hw => rfl
    case hm => exact hm
    simp [afterSequence, sequenceSent, latched, Chip.afterPairs, applyMicro, BitVec.ofNat_add, BitVec.add_assoc]
    bv_omega

/-- R105: what `ensureWrite()` leaves, from a pin setting of R25. -/
theorem ensureWrite_eq (s : State) (hw : s.bus.weN = true) :
    ensureWrite s =
      if s.bus.mode = .write then s
      else
        { s with
          bus := ⟨.write, false, true, true, true, 0⟩
          hidden := { s.hidden with waitCtr := 0 }
          pulses := ⟨false, false⟩ } := by
  rw [ensureWrite, ensureWriteOps]
  split
  · rfl
  · exact enterWrite_eq s hw

/-- R106, R109: what `writeByte(a, b)` leaves. -/
theorem writeByte_eq (a : Addr) (b : Byte) (s : State)
    (hs : s.chain.srclk = false) (hr : s.chain.rclk = false) (hw : s.bus.weN = true) :
    writeByte a b s = afterSequence unlockPairs a b 4 s := by
  rw [writeByte, ensureWrite_eq s hw, writeByteOps, programPairs]
  split
  · next h =>
    rw [replay_eq _ _ _ _ _ hs hr hw h]
    rfl
  · rw [replay_eq]
    · rfl
    · exact hs
    · exact hr
    · rfl
    · rfl

/-- The first five pairs of the chip-erase sequence (R81). -/
def eraseLead : List (Addr × Byte) :=
  [(protocolAddr 0x5555, 0xAA), (protocolAddr 0x2AAA, 0x55), (protocolAddr 0x5555, 0x80),
   (protocolAddr 0x5555, 0xAA), (protocolAddr 0x2AAA, 0x55)]

theorem erasePairs_split : erasePairs = eraseLead ++ [(protocolAddr 0x5555, 0x10)] := rfl

/-- R107, R110: what `eraseChip()` leaves. -/
theorem eraseChip_eq (s : State) (hs : s.chain.srclk = false) (hr : s.chain.rclk = false) (hw : s.bus.weN = true) :
    eraseChip s =
      afterSequence eraseLead (protocolAddr 0x5555) 0x10 6 s := by
  rw [eraseChip, eraseChipOps, runMicros_append, ensureWrite_eq s hw, erasePairs_split]
  split
  · next h =>
    rw [replay_eq _ _ _ _ _ hs hr hw h]
    rfl
  · rw [replay_eq]
    · rfl
    · exact hs
    · exact hr
    · rfl
    · rfl

end Sys2Proof.Machine
end

