-- ==== Sys2Proof/Laws/Chip.lean ====
section
/-! SUPPORT. The byte array's basic laws and its canonical form, and what the two sequences do to a reference chip that is not armed
(20_memory.md section 5). -/

namespace Sys2Proof.Machine

open Sys2Proof.Config

/-! ### Reading what was written -/

/-- Every listed address lies at or above a bound that the canonical form gives. -/
theorem read_below (m : Memory) (lo a : Nat) (h : Memory.wfFrom lo m = true) (ha : a < lo) : Memory.read m a = erased := by
  induction m generalizing lo with
  | nil => rfl
  | cons c rest ih =>
    obtain ⟨k, x⟩ := c
    simp only [Memory.wfFrom, Bool.and_eq_true, decide_eq_true_eq] at h
    rw [Memory.read, if_neg (by omega)]
    exact ih (k + 1) h.2 (by omega)

theorem read_write_same (m : Memory) (lo a : Nat) (v : Byte) (h : Memory.wfFrom lo m = true) :
    Memory.read (Memory.write m a v) a = v := by
  induction m generalizing lo with
  | nil =>
    by_cases hv : v = erased
    · simp [Memory.write, Memory.read, hv]
    · simp [Memory.write, Memory.read, hv]
  | cons c rest ih =>
    obtain ⟨k, x⟩ := c
    simp only [Memory.wfFrom, Bool.and_eq_true, decide_eq_true_eq] at h
    rw [Memory.write]
    by_cases h1 : a < k
    · rw [if_pos h1]
      by_cases hv : v = erased
      · rw [if_pos hv, Memory.read, if_neg (by omega), read_below rest (k + 1) a h.2 (by omega), hv]
      · rw [if_neg hv, Memory.read, if_pos rfl]
    · rw [if_neg h1]
      by_cases h2 : a = k
      · subst h2
        rw [if_pos rfl]
        by_cases hv : v = erased
        · rw [if_pos hv, read_below rest (a + 1) a h.2 (by omega), hv]
        · rw [if_neg hv, Memory.read, if_pos rfl]
      · rw [if_neg h2, Memory.read, if_neg h2]
        exact ih (k + 1) h.2

theorem read_write_other (m : Memory) (a c : Nat) (v : Byte) (hc : c ≠ a) :
    Memory.read (Memory.write m a v) c = Memory.read m c := by
  induction m with
  | nil =>
    by_cases hv : v = erased <;> simp [Memory.write, Memory.read, hv, hc]
  | cons p rest ih =>
    obtain ⟨k, x⟩ := p
    rw [Memory.write]
    by_cases h1 : a < k
    · by_cases hv : v = erased <;> simp [h1, hv, Memory.read, hc]
    · rw [if_neg h1]
      by_cases h2 : a = k
      · subst h2
        by_cases hv : v = erased <;> simp [hv, Memory.read, hc]
      · rw [if_neg h2, Memory.read, Memory.read, ih]

/-! ### The canonical form -/

theorem wfFrom_mono (m : Memory) (lo hi : Nat) (h : Memory.wfFrom hi m = true) (hle : lo ≤ hi) :
    Memory.wfFrom lo m = true := by
  cases m with
  | nil => rfl
  | cons c rest =>
    simp only [Memory.wfFrom, Bool.and_eq_true, decide_eq_true_eq] at h ⊢
    exact ⟨⟨⟨by omega, h.1.1.2⟩, h.1.2⟩, h.2⟩

/-- A write inside the array keeps the canonical form. -/
theorem write_wfFrom (m : Memory) (lo a : Nat) (v : Byte) (h : Memory.wfFrom lo m = true) (hlo : lo ≤ a)
    (ha : a < maxAddress) : Memory.wfFrom lo (Memory.write m a v) = true := by
  induction m generalizing lo with
  | nil =>
    by_cases hv : v = erased <;> simp [Memory.write, Memory.wfFrom, hv, hlo, ha]
  | cons c rest ih =>
    obtain ⟨k, x⟩ := c
    have hk := h
    simp only [Memory.wfFrom, Bool.and_eq_true, decide_eq_true_eq] at h
    rw [Memory.write]
    by_cases h1 : a < k
    · by_cases hv : v = erased
      · simpa [h1, hv] using hk
      · have : Memory.wfFrom (a + 1) ((k, x) :: rest) = true := by
          simp only [Memory.wfFrom, Bool.and_eq_true, decide_eq_true_eq]
          exact ⟨⟨⟨by omega, h.1.1.2⟩, h.1.2⟩, h.2⟩
        rw [if_pos h1, if_neg hv, Memory.wfFrom, this]
        simp [hlo, ha, hv]
    · rw [if_neg h1]
      by_cases h2 : a = k
      · subst h2
        by_cases hv : v = erased
        · simpa [hv] using wfFrom_mono rest lo (a + 1) h.2 (by omega)
        · simp [hv, Memory.wfFrom, hlo, ha, h.2]
      · have : Memory.wfFrom (k + 1) (Memory.write rest a v) = true := ih (k + 1) h.2 (by omega)
        rw [if_neg h2, Memory.wfFrom, this]
        simpa using h.1

theorem memWrite_wf (m : Memory) (a : ChipAddr) (v : Byte) (h : m.wf = true) : (memWrite m a v).wf = true :=
  write_wfFrom m 0 a.toNat v h (Nat.zero_le _) a.isLt

theorem memErase_wf : memErase.wf = true := rfl

theorem memRead_memWrite_same (m : Memory) (a : ChipAddr) (v : Byte) (h : m.wf = true) :
    memRead (memWrite m a v) a = v := read_write_same m 0 a.toNat v h

theorem memRead_memWrite_other (m : Memory) (a c : ChipAddr) (v : Byte) (h : c ≠ a) :
    memRead (memWrite m a v) c = memRead m c :=
  read_write_other m a.toNat c.toNat v (fun e => h (BitVec.eq_of_toNat_eq e))

@[simp] theorem memRead_memErase (a : ChipAddr) : memRead memErase a = erased := rfl

/-- Equal arrays are equal data: two canonical lists that read alike are one list. -/
theorem eq_of_read_eq (m n : Memory) (lo : Nat) (hm : Memory.wfFrom lo m = true) (hn : Memory.wfFrom lo n = true)
    (h : ∀ a, Memory.read m a = Memory.read n a) : m = n := by
  induction m generalizing lo n with
  | nil =>
    cases n with
    | nil => rfl
    | cons c rest =>
      obtain ⟨k, x⟩ := c
      simp only [Memory.wfFrom, Bool.and_eq_true, bne_iff_ne] at hn
      have := h k
      simp only [Memory.read, if_true] at this
      exact absurd this.symm hn.1.2
  | cons c rest ih =>
    obtain ⟨k, x⟩ := c
    simp only [Memory.wfFrom, Bool.and_eq_true, bne_iff_ne, decide_eq_true_eq] at hm
    cases n with
    | nil =>
      have := h k
      simp only [Memory.read, if_true] at this
      exact absurd this hm.1.2
    | cons d rest' =>
      obtain ⟨k', x'⟩ := d
      simp only [Memory.wfFrom, Bool.and_eq_true, bne_iff_ne, decide_eq_true_eq] at hn
      have hk : k = k' := by
        rcases Nat.lt_trichotomy k k' with hlt | heq | hgt
        · have := h k
          rw [Memory.read, if_pos rfl, Memory.read, if_neg (by omega), read_below rest' (k' + 1) k hn.2 (by omega)] at this
          exact absurd this hm.1.2
        · exact heq
        · have := h k'
          rw [Memory.read, if_neg (by omega), read_below rest (k + 1) k' hm.2 (by omega), Memory.read, if_pos rfl] at this
          exact absurd this.symm hn.1.2
      subst hk
      have hx : x = x' := by simpa [Memory.read] using h k
      subst hx
      congr 1
      refine ih rest' (k + 1) hm.2 hn.2 (fun a => ?_)
      by_cases ha : a = k
      · subst ha
        rw [read_below rest (a + 1) a hm.2 (by omega), read_below rest' (a + 1) a hn.2 (by omega)]
      · simpa [Memory.read, ha] using h a

/-! ### The reference chip -/

theorem program_wf (c : Chip) (a : ChipAddr) (b : Byte) (h : c.array.wf = true) : (c.program a b).array.wf = true := by
  unfold Chip.program
  split <;> exact memWrite_wf _ _ _ h

/-- Every write cycle keeps the array canonical. -/
theorem writeCycle_wf (c : Chip) (a : ChipAddr) (b : Byte) (h : c.array.wf = true) :
    (c.writeCycle a b).array.wf = true := by
  unfold Chip.writeCycle
  split
  · exact program_wf _ a b h
  · split
    · exact memErase_wf
    · exact h
  · exact h

theorem afterPairs_wf (c : Chip) (ps : List (Addr × Byte)) (h : c.array.wf = true) : (c.afterPairs ps).array.wf = true := by
  induction ps generalizing c with
  | nil => exact h
  | cons p ps ih => exact ih (c.writeCycle (chipAddrOf p.1) p.2) (writeCycle_wf c _ _ h)

/-- A write cycle never touches what the tester has set (R63). -/
theorem writeCycle_stuck (c : Chip) (a : ChipAddr) (b : Byte) :
    (c.writeCycle a b).stuck = c.stuck ∧ (c.writeCycle a b).progMode = c.progMode := by
  rcases c with ⟨array, cstate, stuck, mode⟩
  cases cstate <;> cases mode <;> simp [Chip.writeCycle, Chip.program] <;> split <;> simp

/-- R80, R66: the byte-program sequence on a chip in READ programs the target byte and leaves the chip in READ. -/
theorem afterPairs_program (c : Chip) (a : Addr) (b : Byte) (h : c.cstate = .read) :
    c.afterPairs (programPairs a b) = c.program (chipAddrOf a) b := by
  rcases c with ⟨array, cstate, stuck, mode⟩
  simp only at h
  subst h
  cases mode <;> rfl

/-- R81, R67: the chip-erase sequence on a chip in READ erases every byte and leaves the chip in READ. -/
theorem afterPairs_erase (c : Chip) (h : c.cstate = .read) :
    c.afterPairs erasePairs = { c with array := memErase } := by
  rcases c with ⟨array, cstate, stuck, mode⟩
  simp only at h
  subst h
  rfl

end Sys2Proof.Machine
end

