-- ==== Sys2Proof/Laws/Cycle.lean ====
section
/-! SUPPORT. Traces of micro-operations, and the micro-step by the case it takes. -/

namespace Sys2Proof.Machine

open Sys2Proof.Config

/-! ### Traces -/

theorem microTrace_append (xs ys : List MicroOp) (s : State) :
    microTrace (xs ++ ys) s = microTrace xs s ++ (microTrace ys (runMicros xs s)).tail := by
  induction xs generalizing s with
  | nil => cases ys <;> rfl
  | cons x xs ih => simp [microTrace, ih]

/-- What holds at the start and is kept by each micro-operation of a list holds in every state of its trace and at its end. -/
theorem microTrace_invariant (P : State → Prop) (ms : List MicroOp) (s : State) (h : P s)
    (hs : ∀ m ∈ ms, ∀ s, P s → P (applyMicro m s)) : (∀ t ∈ microTrace ms s, P t) ∧ P (runMicros ms s) := by
  induction ms generalizing s with
  | nil => simpa [microTrace] using h
  | cons m ms ih =>
    have := ih (applyMicro m s) (hs m (by simp) s h) (fun m' hm => hs m' (by simp [hm]))
    simp only [microTrace, List.mem_cons, forall_eq_or_imp, runMicros_cons]
    exact ⟨⟨h, this.1⟩, this.2⟩

theorem shiftBits_mem (n : Nat) (m : MicroOp) (h : m ∈ shiftBitsOps n) : m ∈ shiftBitOps := by
  induction n with
  | zero => simp [shiftBitsOps] at h
  | succ n ih => rw [shiftBitsOps, List.mem_append] at h; exact h.elim id ih

/-- `shift(v)` writes the chain, the hidden registers and the pulses only: what does not speak of them holds in every state it passes
through (R85). -/
theorem shift_trace (P : State → Prop) (hc : ∀ c s, P s → P (setChain c s)) (hh : ∀ h (s : State), P s → P { s with hidden := h })
    (hp : ∀ p (s : State), P s → P { s with pulses := p }) (v : Addr) (s : State) (h : P s) :
    (∀ t ∈ microTrace (shiftOps v) s, P t) ∧ P (runMicros (shiftOps v) s) := by
  apply microTrace_invariant P _ _ h
  intro m hm u hu
  simp only [shiftOps, List.mem_cons, List.mem_append] at hm
  rcases hm with rfl | hm | hm
  · exact hh _ _ hu
  · have := shiftBits_mem _ _ hm
    simp [shiftBitOps, driveWait] at this
    rcases this with rfl | rfl | rfl | rfl | rfl | rfl | rfl <;>
      first | exact hc _ _ hu | exact hh _ _ hu | exact hp _ _ (hh _ _ hu)
  · simp [latchOps, driveWait] at hm
    rcases hm with rfl | rfl | rfl | rfl <;> first | exact hc _ _ hu | exact hp _ _ (hh _ _ hu)

/-! ### SEQ plays no part in a micro-operation -/

theorem weRises_setSeq (q : List Item) (s : State) : weRises (setSeq q s) = setSeq q (weRises s) := by
  by_cases h : (!s.bus.ceN && s.bus.oeN) = true
  · simp only [weRises, setSeq, h, if_true]; rfl
  · simp only [weRises, setSeq, h]; rfl

theorem applyMicro_setSeq (q : List Item) (m : MicroOp) (s : State) : applyMicro m (setSeq q s) = setSeq q (applyMicro m s) := by
  cases m with
  | drive p v =>
    cases p <;> try rfl
    simp only [applyMicro, drivePin]
    rw [show pinLevel (setSeq q s) Pin.weN = pinLevel s Pin.weN from rfl]
    split
    · rw [weRises_setSeq]; rfl
    · rfl
  | _ => rfl

theorem runMicros_setSeq (q : List Item) (ms : List MicroOp) (s : State) :
    runMicros ms (setSeq q s) = setSeq q (runMicros ms s) := by
  induction ms generalizing s with
  | nil => rfl
  | cons m ms ih => rw [runMicros_cons, applyMicro_setSeq, ih, runMicros_cons]

theorem microTrace_setSeq (q : List Item) (ms : List MicroOp) (s : State) :
    microTrace ms (setSeq q s) = (microTrace ms s).map (setSeq q) := by
  induction ms generalizing s with
  | nil => rfl
  | cons m ms ih => rw [microTrace, applyMicro_setSeq, ih]; rfl

/-- A micro-operation that leads to no CONTENTION leaves the safety mark, the reset line and BUSY. -/
theorem applyMicro_fixed (m : MicroOp) (s : State) (hc : contention (applyMicro m s) = false) (hs : s.safetyFault = false) :
    (applyMicro m s).safetyFault = false ∧ (applyMicro m s).env.rstEdges = s.env.rstEdges ∧ (applyMicro m s).busy = s.busy := by
  cases m with
  | drive p v =>
    cases p <;> simp [applyMicro, drivePin, setBus, setChain, pulsesOff, observe, weRises, contention] at hc ⊢ <;>
      (repeat' split) <;> simp_all
  | busInput => simp [applyMicro, setBus, pulsesOff, observe, contention, hs] at hc ⊢; exact hc
  | busOutput b => simp [applyMicro, setBus, pulsesOff, observe, contention] at hc ⊢; simp_all
  | _ => exact ⟨hs, rfl, rfl⟩

/-! ### The micro-step -/

theorem microStep_reset (T : Timing) (s : State) (hs : s.safetyFault = false) (hc : contention s = false)
    (hr : s.env.rstEdges ≠ 0) : microStep T s = resetEdge s := by
  simp [microStep, hs, hc, hr]

theorem microStep_busy (T : Timing) (i : Item) (rest : List Item) (s : State) (hs : s.safetyFault = false)
    (hc : contention s = false) (hr : s.env.rstEdges = 0) (hb : s.busy = true) (hq : s.seq = i :: rest) :
    microStep T s = microItem T i rest s := by
  simp [microStep, hs, hc, hr, hb, hq]

theorem microStep_finish (T : Timing) (s : State) (hs : s.safetyFault = false) (hc : contention s = false)
    (hr : s.env.rstEdges = 0) (hb : s.busy = true) (hq : s.seq = []) : microStep T s = finish s := by
  simp [microStep, hs, hc, hr, hb, hq]

theorem microStep_accept (T : Timing) (w : CmdWord) (ws : List CmdWord) (s : State) (hs : s.safetyFault = false)
    (hc : contention s = false) (hr : s.env.rstEdges = 0) (hb : s.busy = false) (hw : s.env.hostWords = w :: ws) :
    microStep T s = setSeq (program (decode w)) (accept w s) := by
  simp [microStep, hs, hc, hr, hb, hw]

theorem microRun_add (T : Timing) (m n : Nat) (s : State) : microRun T (m + n) s = microRun T n (microRun T m s) := by
  induction m generalizing s with
  | zero => simp [microRun]
  | succ m ih => rw [Nat.succ_add, microRun, ih, microRun]

theorem microCycles_add (T : Timing) (m n : Nat) (s : State) :
    microCycles T (m + n) s = microCycles T m s + microCycles T n (microRun T m s) := by
  induction m generalizing s with
  | zero => simp [microRun, microCycles]
  | succ m ih => rw [Nat.succ_add, microCycles, ih, microCycles, microRun, Nat.add_assoc]

theorem opsCycles_append (T : Timing) (xs ys : List MicroOp) : opsCycles T (xs ++ ys) = opsCycles T xs + opsCycles T ys := by
  induction xs with
  | nil => simp [opsCycles]
  | cons x xs ih => cases x <;> simp only [List.cons_append, opsCycles, ih] <;> omega

end Sys2Proof.Machine
end

