-- ==== Sys2Proof/Laws/Encoding.lean ====
section
/-! SUPPORT. The fields of a packed word, and the opcode of a decoded one (30_encoding.md R70, R72). -/

namespace Sys2Proof

@[simp] theorem opField_packWord (op : BitVec 4) (a : Addr) (d : Byte) : opField (packWord op a d) = op := by
  apply BitVec.eq_of_getLsbD_eq
  intro i hi
  change BitVec.getLsbD (BitVec.extractLsb' 32 4 ((op ++ a ++ d : BitVec (4 + 24 + 8)))) i = _
  rw [BitVec.getLsbD_extractLsb', BitVec.getLsbD_append, BitVec.getLsbD_append, if_neg (by omega), if_neg (by omega),
    show 32 + i - 8 - 24 = i by omega]
  simp [hi]

@[simp] theorem addrField_packWord (op : BitVec 4) (a : Addr) (d : Byte) : addrField (packWord op a d) = a := by
  apply BitVec.eq_of_getLsbD_eq
  intro i hi
  change BitVec.getLsbD (BitVec.extractLsb' 8 24 ((op ++ a ++ d : BitVec (4 + 24 + 8)))) i = _
  rw [BitVec.getLsbD_extractLsb', BitVec.getLsbD_append, BitVec.getLsbD_append, if_neg (by omega), if_pos (by omega),
    show 8 + i - 8 = i by omega]
  simp [hi]

@[simp] theorem dataField_packWord (op : BitVec 4) (a : Addr) (d : Byte) : dataField (packWord op a d) = d := by
  apply BitVec.eq_of_getLsbD_eq
  intro i hi
  change BitVec.getLsbD (BitVec.extractLsb' 0 8 ((op ++ a ++ d : BitVec (4 + 24 + 8)))) i = _
  rw [BitVec.getLsbD_extractLsb', BitVec.getLsbD_append, if_pos (by omega), Nat.zero_add]
  simp [hi]

/-- The sixteen values of an opcode field (R72). -/
theorem opcode_cases (x : BitVec 4) :
    x = 0x0 ∨ x = 0x1 ∨ x = 0x2 ∨ x = 0x3 ∨ x = 0x4 ∨ x = 0x5 ∨ x = 0x6 ∨ x = 0x7 ∨ x = 0x8 ∨ x = 0x9 ∨ x = 0xA ∨
      x = 0xB ∨ x = 0xC ∨ x = 0xD ∨ x = 0xE ∨ x = 0xF := by
  revert x
  decide

end Sys2Proof
end

