-- ==== Sys2Proof/Laws/PerInstr.lean ====
section
/-! SUPPORT. Statements made of every command, one lemma for each constructor (30_encoding.md R72, R83). -/

namespace Sys2Proof.Laws.EncodeFields

open Sys2Proof

/-- The word of a command holds its opcode, its address or 0, and its byte or 0 in the places of R70; a command is legal unless its
opcode is one of R74's. -/
def Statement (i : Instr) : Prop :=
  opField (encode i) = i.opcode ∧ addrField (encode i) = i.addrBits ∧ dataField (encode i) = i.dataBits ∧
    (i.legal = false ↔ i.opcode = 0x0 ∨ i.opcode = 0xD ∨ i.opcode = 0xE ∨ i.opcode = 0xF)

theorem every (i : Instr) : Statement i := by
  refine ⟨?_, ?_, ?_, ?_⟩
  · simp [encode]
  · simp [encode]
  · simp [encode]
  · cases i <;> simp [Instr.legal, Instr.opcode]

theorem shiftAddr (addr : Addr) : Statement (.shiftAddr addr) := every _
theorem enterRead : Statement .enterRead := every _
theorem enterWrite : Statement .enterWrite := every _
theorem setData (data : Byte) : Statement (.setData data) := every _
theorem readByte (addr : Addr) : Statement (.readByte addr) := every _
theorem writeByte (addr : Addr) (data : Byte) : Statement (.writeByte addr data) := every _
theorem eraseChip : Statement .eraseChip := every _
theorem opErase : Statement .opErase := every _
theorem opVerifyErased : Statement .opVerifyErased := every _
theorem opWrite : Statement .opWrite := every _
theorem opVerifyWritten : Statement .opVerifyWritten := every _
theorem opProgram : Statement .opProgram := every _
theorem reserved0 : Statement .reserved0 := every _
theorem reservedD : Statement .reservedD := every _
theorem reservedE : Statement .reservedE := every _
theorem reservedF : Statement .reservedF := every _

end Sys2Proof.Laws.EncodeFields
end

