-- ==== Sys2Proof/Laws/Run.lean ====
section
/-! SUPPORT. Running SEQ: the scans and the byte loops, each said once by its whole effect (43_orchestrator.md R116 to R119). -/

namespace Sys2Proof.Machine

open Sys2Proof.Config

/-! ### The list -/

@[simp] theorem runProgram_nil (s : State) : runProgram [] s = finish s := rfl

theorem runProgram_goOn {i : Item} {rest : List Item} {s s' : State} (h : runItem i rest s = .goOn s') :
    runProgram (i :: rest) s = runProgram rest s' := by rw [runProgram, h]

theorem runProgram_stop {i : Item} {rest : List Item} {s s' : State} (h : runItem i rest s = .stop s') :
    runProgram (i :: rest) s = s' := by rw [runProgram, h]

/-- A response ends what runs: `responded` is what it leaves, whatever the hidden registers and pulses were. -/
theorem runProgram_respond (st : Status) (d : Byte) (s : State) : runProgram [.respond st d] s = responded st d s := rfl

theorem responded_orch (st : Status) (d : Byte) (s : State) : (responded st d s).orch = s.orch := rfl

/-- A primitive command that is one operation and its response (R89, R97, R98, R109, R110). -/
theorem runProgram_ok {i : Item} {s s' : State} (h : runItem i okResponse s = .goOn s') :
    runProgram (i :: okResponse) s = responded .ok 0x00 s' := by
  rw [runProgram_goOn h]
  rfl

theorem responded_hidden (st : Status) (d : Byte) (h : Hidden) (p : Pulses) (s : State) :
    responded st d { s with hidden := h, pulses := p } = responded st d s := rfl

/-! ### Reading and comparing -/

/-- A pin setting of Read mode (R25). -/
def ReadPins (s : State) : Prop := s.bus.mode = .read ∧ s.bus.settled = true ∧ s.chain.atRest = true

/-- A pin setting of Write mode (R25). -/
def WritePins (s : State) : Prop := s.bus.mode = .write ∧ s.bus.settled = true ∧ s.chain.atRest = true

theorem chain_rest {c : Chain} (h : c.atRest = true) : c.srclk = false ∧ c.rclk = false := by
  simpa [Chain.atRest] using h

theorem settled_we {b : Bus} (h : b.settled = true) : b.weN = true := by
  unfold Bus.settled at h
  split at h <;> simp_all

theorem settled_read {b : Bus} (hm : b.mode = .read) (h : b.settled = true) :
    b.dDrive = false ∧ b.oeN = false ∧ b.weN = true ∧ b.ceN = false := by
  simp_all [Bus.settled]

theorem settled_write {b : Bus} (hm : b.mode = .write) (h : b.settled = true) :
    b.dDrive = true ∧ b.oeN = true ∧ b.weN = true := by
  simp_all [Bus.settled]

/-- The state in which a read in Read mode samples: the address is latched, the chip drives its byte. -/
def presented (a : Addr) (s : State) : State :=
  { latched a s with
    hidden := { s.hidden with shiftV := 0, bitIdx := 24, waitCtr := 0 }
    pulses := ⟨false, false⟩ }

theorem presentRead_presented (a : Addr) (s : State) (h : ReadPins s) : presentRead a s = presented a s := by
  obtain ⟨hs, hr⟩ := chain_rest h.2.2
  exact presentRead_eq a s hs hr

theorem chipDrives_read {s : State} (hm : s.bus.mode = .read) (hb : s.bus.settled = true) : chipDrives s = true := by
  obtain ⟨_, ho, hw, hc⟩ := settled_read hm hb
  simp [chipDrives, ho, hw, hc]

theorem dataIn_presented (a : Addr) (s : State) (h : ReadPins s) :
    dataIn (presented a s) = s.chip.output (chipAddrOf a) :=
  dataIn_of_chip_driving (presented a s) (settled_read h.1 h.2.1).1 (chipDrives_read (s := presented a s) h.1 h.2.1)

theorem sampleCycle_presented (a : Addr) (s : State) (h : ReadPins s) : sampleCycle (presented a s) = presented a s := by
  have hd : (presented a s).bus.dDrive = false := (settled_read h.1 h.2.1).1
  simp only [sampleCycle, hd, Bool.false_and]
  rfl

/-- One read and comparison in Read mode (R116, R118). -/
theorem readCompare_eq (e : Byte) (s : State) (h : ReadPins s) :
    readCompare e s =
      .goOn (compareRecord s.hidden.scanA e (s.chip.output (chipAddrOf (scanAddr s))) (presented (scanAddr s) s)) := by
  rw [readCompare, if_pos h.1]
  simp only [presentRead_presented _ _ h, dataIn_presented _ _ h, sampleCycle_presented _ _ h]
  rfl

theorem chipAddrOf_scanAddr (i : Count) : chipAddrOf (i.setWidth 24) = i.setWidth 19 := by
  apply BitVec.eq_of_getLsbD_eq
  intro j hj
  simp [chipAddrOf, hj, show j < 24 by omega]

/-! ### Scans that compare -/

/-- The chain after the addresses `i`, `i + 1`, ... of a scan over a list have been presented. -/
def scanChain : Count → List Byte → Chain → Chain
  | _, [], c => c
  | i, _ :: es, _ => scanChain (i + 1) es ⟨i.setWidth 24, i.setWidth 24, (i.setWidth 24).getLsbD 23, false, false⟩

/-- What a scan that compares the bytes from SCAN_A on with `es` does to `s`. It says nothing of the answers, `src_req`, the event
port's held fields and pulses, and the hidden registers other than SCAN_A. -/
structure Scanned (es : List Byte) (s t : State) : Prop where
  latch : t.latch = s.latch
  chain : t.chain = scanChain s.hidden.scanA es s.chain
  bus : t.bus = s.bus
  phase : t.orch.phase = s.orch.phase
  resCount : t.orch.resCount = s.orch.resCount + BitVec.ofNat 20 (mismatches s.chip s.hidden.scanA es)
  resNext : t.orch.resNext = if es = [] then s.orch.resNext else s.hidden.scanA + BitVec.ofNat 20 es.length
  scanA : t.hidden.scanA = s.hidden.scanA + BitVec.ofNat 20 es.length
  fault : t.fault = s.fault
  lastStatus : t.lastStatus = s.lastStatus
  busy : t.busy = s.busy
  rsp : t.rsp = s.rsp
  seq : t.seq = s.seq
  chip : t.chip = s.chip
  draws : t.draws = s.draws
  safetyFault : t.safetyFault = s.safetyFault
  hostWords : t.env.hostWords = s.env.hostWords
  rstEdges : t.env.rstEdges = s.env.rstEdges
  responses : t.env.responses = s.env.responses
  writeCycles : t.env.writeCycles = s.env.writeCycles
  sink : t.env.sink =
    (scanEvents s.orch.phase s.chip s.hidden.scanA s.orch.resCount es).reverse ++ s.env.sink

theorem Scanned.nil (s : State) : Scanned [] s s := by
  constructor <;> simp [scanChain, mismatches, scanEvents]

/-- Answers and `src_req` play no part in `Scanned`. -/
theorem Scanned.afterAnswer {es : List Byte} {s t : State} {more : List SrcAnswer} (h : Scanned es (takeAnswer more s) t) :
    Scanned es s t := ⟨h.1, h.2, h.3, h.4, h.5, h.6, h.7, h.8, h.9, h.10, h.11, h.12, h.13, h.14, h.15, h.16, h.17, h.18, h.19, h.20⟩

/-- The state after one turn of such a scan (R116, R118). -/
def verifyTurn (e : Byte) (s : State) : State :=
  nextScan (compareRecord s.hidden.scanA e (s.chip.output (chipAddrOf (scanAddr s))) (presented (scanAddr s) s))

theorem Scanned.cons {e : Byte} {es : List Byte} {s t : State} (h : Scanned es (verifyTurn e s) t) :
    Scanned (e :: es) s t := by
  have hout : s.chip.output (chipAddrOf (scanAddr s)) = s.chip.output (s.hidden.scanA.setWidth 19) := by
    rw [scanAddr, chipAddrOf_scanAddr]
  have hlen : s.hidden.scanA + 1 + BitVec.ofNat 20 es.length = s.hidden.scanA + BitVec.ofNat 20 (es.length + 1) := by
    rw [BitVec.ofNat_add]; ac_rfl
  by_cases hv : s.chip.output (s.hidden.scanA.setWidth 19) = e
  · have hturn : verifyTurn e s = nextScan (presented (scanAddr s) s) := by
      simp [verifyTurn, compareRecord, comparator, hout, hv]
    rw [hturn] at h
    obtain ⟨h1, h2, h3, h4, h5, h6, h7, h8, h9, h10, h11, h12, h13, h14, h15, h16, h17, h18, h19, h20⟩ := h
    refine ⟨h1, h2, h3, h4, ?_, ?_, ?_, h8, h9, h10, h11, h12, h13, h14, h15, h16, h17, h18, h19, ?_⟩
    · rw [h5, mismatches, if_pos hv, Nat.zero_add]; rfl
    · rw [h6, if_neg (List.cons_ne_nil e es), List.length_cons]
      split
      · next hnil => subst hnil; rfl
      · exact hlen
    · rw [h7]; exact hlen
    · rw [h20, scanEvents, if_pos hv]; rfl
  · have hturn : verifyTurn e s =
        nextScan (record s.hidden.scanA e (s.chip.output (s.hidden.scanA.setWidth 19)) (presented (scanAddr s) s)) := by
      simp [verifyTurn, compareRecord, comparator, hout, hv]
    rw [hturn] at h
    obtain ⟨h1, h2, h3, h4, h5, h6, h7, h8, h9, h10, h11, h12, h13, h14, h15, h16, h17, h18, h19, h20⟩ := h
    refine ⟨h1, h2, h3, h4, ?_, ?_, ?_, h8, h9, h10, h11, h12, h13, h14, h15, h16, h17, h18, h19, ?_⟩
    · rw [h5, mismatches, if_neg hv, BitVec.ofNat_add]
      exact BitVec.add_assoc _ _ _
    · rw [h6, if_neg (List.cons_ne_nil e es), List.length_cons]
      split
      · next hnil => subst hnil; rfl
      · exact hlen
    · rw [h7]; exact hlen
    · rw [h20, scanEvents, if_neg hv]
      simp
      rfl

theorem verifyTurn_pins (e : Byte) (s : State) (h : ReadPins s) : ReadPins (verifyTurn e s) := by
  unfold verifyTurn compareRecord
  split
  · exact ⟨h.1, h.2.1, rfl⟩
  · exact ⟨h.1, h.2.1, rfl⟩

/-- R116: the scan of VerifyingErased in Read mode goes through its addresses and cannot end early. -/
theorem runScanErased_eq (n : Nat) (s : State) (h : ReadPins s) :
    ∃ t, runScanErased n s = .goOn t ∧ Scanned (List.replicate n erased) s t ∧ t.env.answers = s.env.answers ∧
      t.srcReq = s.srcReq := by
  induction n generalizing s with
  | zero => exact ⟨s, rfl, Scanned.nil s, rfl, rfl⟩
  | succ n ih =>
    obtain ⟨t, ht, hsc, ha, hq⟩ := ih (verifyTurn erased s) (verifyTurn_pins _ _ h)
    refine ⟨t, ?_, Scanned.cons hsc, ?_, ?_⟩
    · rw [runScanErased, readCompare_eq _ _ h]; exact ht
    · rw [ha]; unfold verifyTurn compareRecord; split <;> rfl
    · rw [hq]; unfold verifyTurn compareRecord; split <;> rfl

/-! ### The loop of Writing -/

/-- The bus pins after a list of bytes has been written. -/
def writtenBus : List Byte → Bus → Bus
  | [], b => b
  | d :: bs, _ => writtenBus bs ⟨.write, true, true, true, true, d⟩

/-- What writing the stream `bs` from SCAN_A on does to `s`; silent on the same things as `Scanned`. -/
structure Written (bs : List Byte) (s t : State) : Prop where
  latch : t.latch = s.latch
  chain : t.chain = scanChain s.hidden.scanA bs s.chain
  bus : t.bus = writtenBus bs s.bus
  phase : t.orch.phase = s.orch.phase
  resCount : t.orch.resCount = s.orch.resCount
  resNext : t.orch.resNext = if bs = [] then s.orch.resNext else s.hidden.scanA + BitVec.ofNat 20 bs.length
  scanA : t.hidden.scanA = s.hidden.scanA + BitVec.ofNat 20 bs.length
  fault : t.fault = s.fault
  lastStatus : t.lastStatus = s.lastStatus
  busy : t.busy = s.busy
  rsp : t.rsp = s.rsp
  seq : t.seq = s.seq
  chip : t.chip = s.chip.afterPairs (streamPairs s.hidden.scanA bs)
  draws : t.draws = s.draws
  safetyFault : t.safetyFault = s.safetyFault
  hostWords : t.env.hostWords = s.env.hostWords
  rstEdges : t.env.rstEdges = s.env.rstEdges
  responses : t.env.responses = s.env.responses
  writeCycles : t.env.writeCycles =
    ((streamPairs s.hidden.scanA bs).map fun p => (chipAddrOf p.1, p.2)).reverse ++ s.env.writeCycles
  sink : t.env.sink = s.env.sink

theorem Written.nil (s : State) : Written [] s s := by
  constructor <;> simp [scanChain, writtenBus, streamPairs, Chip.afterPairs]

theorem Written.afterAnswer {bs : List Byte} {s t : State} {more : List SrcAnswer} (h : Written bs (takeAnswer more s) t) :
    Written bs s t := ⟨h.1, h.2, h.3, h.4, h.5, h.6, h.7, h.8, h.9, h.10, h.11, h.12, h.13, h.14, h.15, h.16, h.17, h.18, h.19, h.20⟩

/-- The state after one turn of Writing (R117). -/
def writeTurn (b : Byte) (s : State) : State := nextScan (afterSequence unlockPairs (scanAddr s) b 4 s)

theorem writeTurn_eq (b : Byte) (s : State) (h : WritePins s) :
    nextScan (writeByte (scanAddr s) b s) = writeTurn b s := by
  obtain ⟨hs, hr⟩ := chain_rest h.2.2
  rw [writeByte_eq _ _ s hs hr (settled_write h.1 h.2.1).2.2, writeTurn]

theorem writeTurn_pins (b : Byte) (s : State) : WritePins (writeTurn b s) := ⟨rfl, rfl, rfl⟩

theorem afterPairs_append (c : Chip) (ps qs : List (Addr × Byte)) :
    c.afterPairs (ps ++ qs) = (c.afterPairs ps).afterPairs qs := by
  simp [Chip.afterPairs, List.foldl_append]

theorem Written.cons {b : Byte} {bs : List Byte} {s t : State} (h : Written bs (writeTurn b s) t) :
    Written (b :: bs) s t := by
  have hlen : s.hidden.scanA + 1 + BitVec.ofNat 20 bs.length = s.hidden.scanA + BitVec.ofNat 20 (bs.length + 1) := by
    rw [BitVec.ofNat_add]; ac_rfl
  obtain ⟨h1, h2, h3, h4, h5, h6, h7, h8, h9, h10, h11, h12, h13, h14, h15, h16, h17, h18, h19, h20⟩ := h
  refine ⟨h1, h2, h3, h4, h5, ?_, ?_, h8, h9, h10, h11, h12, ?_, h14, h15, h16, h17, h18, ?_, h20⟩
  · rw [h6, if_neg (List.cons_ne_nil b bs), List.length_cons]
    split
    · next hnil => subst hnil; rfl
    · exact hlen
  · rw [h7]; exact hlen
  · rw [h13, streamPairs, afterPairs_append]; rfl
  · rw [h19, streamPairs, List.map_append, List.reverse_append, List.append_assoc]; rfl

/-! ### Byte loops -/

/-- The pins the turns of a byte loop need and keep. -/
def LoopPins : ByteLoop → State → Prop
  | .write => WritePins
  | .verify => ReadPins

/-- What the bytes `bs` do in a byte loop. -/
def LoopDone : ByteLoop → List Byte → State → State → Prop
  | .write => Written
  | .verify => Scanned

/-- The turn of a byte loop with its byte (R117, R118). -/
def loopTurn (l : ByteLoop) (b : Byte) (s : State) : State :=
  match l with
  | .write => writeTurn b s
  | .verify => verifyTurn b s

theorem byteTurn_eq (l : ByteLoop) (b : Byte) (s : State) (h : LoopPins l s) : byteTurn l b s = .goOn (loopTurn l b s) := by
  cases l with
  | write => rw [byteTurn, writeTurn_eq b s h]; rfl
  | verify => rw [byteTurn, readCompare_eq b s h]; rfl

theorem loopTurn_pins (l : ByteLoop) (b : Byte) (s : State) (h : LoopPins l s) : LoopPins l (loopTurn l b s) := by
  cases l with
  | write => exact writeTurn_pins b s
  | verify => exact verifyTurn_pins b s h

theorem loopTurn_env (l : ByteLoop) (b : Byte) (s : State) :
    (loopTurn l b s).env.answers = s.env.answers ∧ (loopTurn l b s).srcReq = s.srcReq := by
  cases l with
  | write => exact ⟨rfl, rfl⟩
  | verify => simp only [loopTurn, verifyTurn, compareRecord]; split <;> exact ⟨rfl, rfl⟩

theorem loopDone_nil (l : ByteLoop) (s : State) : LoopDone l [] s s := by
  cases l with
  | write => exact Written.nil s
  | verify => exact Scanned.nil s

theorem loopDone_cons {l : ByteLoop} {b : Byte} {bs : List Byte} {s t : State} {more : List SrcAnswer}
    (h : LoopDone l bs (loopTurn l b (takeAnswer more s)) t) : LoopDone l (b :: bs) s t := by
  cases l with
  | write => exact Written.afterAnswer (Written.cons h)
  | verify => exact Scanned.afterAnswer (Scanned.cons h)

theorem loopPins_takeAnswer {l : ByteLoop} {s : State} (more : List SrcAnswer) (h : LoopPins l s) :
    LoopPins l (takeAnswer more s) := by
  cases l <;> exact h

/-- One request that is answered with a byte, in the pins of its loop. -/
theorem requestTurn_byte (l : ByteLoop) (again : State → Flow) (rest : List Item) (s : State) (a : SrcAnswer)
    (more : List SrcAnswer) (b : Byte) (ha : s.env.answers = a :: more) (hb : a.result = .byte b) (h : LoopPins l s) :
    requestTurn l again rest s = again (loopTurn l b (takeAnswer more s)) := by
  simp only [requestTurn, ha, hb, byteTurn_eq l b _ (loopPins_takeAnswer more h)]

/-- The bytes of a stream, each requested and used in its turn (R52, R117, R118). -/
theorem runByteLoop_bytes (l : ByteLoop) (rest : List Item) (bs : List Byte) (head more : List SrcAnswer) (n : Nat)
    (s : State) (hhead : head.map SrcAnswer.result = bs.map .byte) (ha : s.env.answers = head ++ more)
    (hn : bs.length ≤ n) (h : LoopPins l s) :
    ∃ t, runByteLoop l rest n s = runByteLoop l rest (n - bs.length) t ∧ LoopDone l bs s t ∧ LoopPins l t ∧
      t.env.answers = more ∧ (s.srcReq = false → t.srcReq = false) := by
  induction bs generalizing head n s with
  | nil =>
    have : head = [] := by simpa using hhead
    subst this
    exact ⟨s, rfl, loopDone_nil l s, h, ha, id⟩
  | cons b bs ih =>
    cases head with
    | nil => simp at hhead
    | cons a head =>
      simp only [List.map_cons, List.cons.injEq] at hhead
      cases n with
      | zero => simp at hn
      | succ n =>
        have hp := loopPins_takeAnswer (head ++ more) h
        obtain ⟨he, hq⟩ := loopTurn_env l b (takeAnswer (head ++ more) s)
        obtain ⟨t, ht, hd, hpt, hat, hqt⟩ :=
          ih head n (loopTurn l b (takeAnswer (head ++ more) s)) hhead.2 he (by simpa using hn) (loopTurn_pins l b _ hp)
        refine ⟨t, ?_, loopDone_cons hd, hpt, hat, fun _ => hqt (by rw [hq]; rfl)⟩
        rw [runByteLoop, requestTurn_byte l _ rest s a (head ++ more) b ha hhead.1 h, ht, List.length_cons, Nat.add_sub_add_right]

/-- R117, R118, R126: a stream and its end. -/
theorem runByteLoop_taken (l : ByteLoop) (rest : List Item) (bs : List Byte) (left : List SrcAnswer) (s : State)
    (hst : StreamTaken s.env.answers bs left) (h : LoopPins l s) :
    ∃ t, runByteLoop l rest maxAddress s = .goOn t ∧ LoopDone l bs s t ∧ LoopPins l t ∧ t.env.answers = left ∧
      (s.srcReq = false → t.srcReq = false) := by
  obtain ⟨hle, head, ha, hhead⟩ := hst
  by_cases hmax : bs.length = maxAddress
  · rw [if_pos hmax, List.append_nil] at hhead
    obtain ⟨t, ht, hd, hp, hat, hq⟩ := runByteLoop_bytes l rest bs head left maxAddress s hhead ha hle h
    refine ⟨t, ?_, hd, hp, hat, hq⟩
    rw [ht, hmax, Nat.sub_self]; rfl
  · rw [if_neg hmax] at hhead
    obtain ⟨head1, head2, rfl, h1, h2⟩ := List.map_eq_append_iff.mp hhead
    obtain ⟨a, rest2, rfl, hra, hr2⟩ := List.map_eq_cons_iff.mp h2
    have hr2' : rest2 = [] := by simpa using hr2
    subst hr2'
    obtain ⟨t, ht, hd, hp, hat, hq⟩ :=
      runByteLoop_bytes l rest bs head1 ([a] ++ left) maxAddress s h1 (by simpa using ha) hle h
    obtain ⟨m, hm⟩ : ∃ m, maxAddress - bs.length = m + 1 := ⟨maxAddress - bs.length - 1, by omega⟩
    refine ⟨takeAnswer left t, ?_, ?_, loopPins_takeAnswer left hp, rfl, fun _ => rfl⟩
    · rw [ht, hm, runByteLoop]
      simp only [requestTurn, hat, List.singleton_append, hra]
    · cases l with
      | write => exact ⟨hd.1, hd.2, hd.3, hd.4, hd.5, hd.6, hd.7, hd.8, hd.9, hd.10, hd.11, hd.12, hd.13, hd.14, hd.15, hd.16, hd.17, hd.18, hd.19, hd.20⟩
      | verify => exact ⟨hd.1, hd.2, hd.3, hd.4, hd.5, hd.6, hd.7, hd.8, hd.9, hd.10, hd.11, hd.12, hd.13, hd.14, hd.15, hd.16, hd.17, hd.18, hd.19, hd.20⟩

/-- R119: IOERR after some bytes aborts the phase. -/
theorem runByteLoop_fails (l : ByteLoop) (rest : List Item) (bs : List Byte) (left : List SrcAnswer) (s : State)
    (hst : StreamFails s.env.answers bs left) (h : LoopPins l s) :
    ∃ t, runByteLoop l rest maxAddress s = .stop (abort l.phase (takeAnswer left t)) ∧ LoopDone l bs s t ∧ LoopPins l t := by
  obtain ⟨hlt, head, ha, hhead⟩ := hst
  obtain ⟨head1, head2, rfl, h1, h2⟩ := List.map_eq_append_iff.mp hhead
  obtain ⟨a, rest2, rfl, hra, hr2⟩ := List.map_eq_cons_iff.mp h2
  have hr2' : rest2 = [] := by simpa using hr2
  subst hr2'
  obtain ⟨t, ht, hd, hp, hat, hq⟩ :=
    runByteLoop_bytes l rest bs head1 ([a] ++ left) maxAddress s h1 (by simpa using ha) (Nat.le_of_lt hlt) h
  obtain ⟨m, hm⟩ : ∃ m, maxAddress - bs.length = m + 1 := ⟨maxAddress - bs.length - 1, by omega⟩
  refine ⟨t, ?_, hd, hp⟩
  rw [ht, hm, runByteLoop]
  simp only [requestTurn, hat, List.singleton_append, hra]

/-- R127: after some bytes the source never answers, and the block waits. -/
theorem runByteLoop_stalls (l : ByteLoop) (rest : List Item) (bs : List Byte) (s : State)
    (hst : StreamStalls s.env.answers bs) (h : LoopPins l s) :
    ∃ t, runByteLoop l rest maxAddress s = .stop (waitForByte l rest t) ∧ LoopDone l bs s t ∧ LoopPins l t ∧
      t.env.answers = [] := by
  obtain ⟨hlt, hhead⟩ := hst
  obtain ⟨t, ht, hd, hp, hat, hq⟩ :=
    runByteLoop_bytes l rest bs s.env.answers [] maxAddress s hhead (by simp) (Nat.le_of_lt hlt) h
  obtain ⟨m, hm⟩ : ∃ m, maxAddress - bs.length = m + 1 := ⟨maxAddress - bs.length - 1, by omega⟩
  refine ⟨t, ?_, hd, hp, hat⟩
  rw [ht, hm, runByteLoop]
  simp only [requestTurn, hat]

end Sys2Proof.Machine
end

