-- ==== Sys2Proof/Laws/Phases.lean ====
section
/-! SUPPORT. The phases of the orchestrator, each as what its body leaves before `endPhase` (43_orchestrator.md R115 to R118). -/

namespace Sys2Proof.Machine

open Sys2Proof.Config

theorem scanChain_atRest (i : Count) (es : List Byte) (c : Chain) (h : c.atRest = true) : (scanChain i es c).atRest = true := by
  induction es generalizing i c with
  | nil => exact h
  | cons e es ih => exact ih _ _ rfl

/-- The last address a scan of `n + 1` bytes presents. -/
theorem scanChain_q (i : Count) (es : List Byte) (c : Chain) (n : Nat) (h : es.length = n + 1) :
    (scanChain i es c).q = (i + BitVec.ofNat 20 n).setWidth 24 := by
  induction n generalizing i es c with
  | zero => match es, h with
    | [e], _ => simp [scanChain]
  | succ n ih => match es, h with
    | e :: es, h =>
      rw [scanChain, ih _ _ _ (by simpa using h),
        show i + 1 + BitVec.ofNat 20 n = i + BitVec.ofNat 20 (n + 1) by rw [BitVec.ofNat_add]; ac_rfl]

/-- The data lines after a stream has been written: its last byte, or what they held (R117). -/
theorem writtenBus_dOut (bs : List Byte) (b : Bus) : (writtenBus bs b).dOut = bs.getLastD b.dOut := by
  induction bs generalizing b with
  | nil => rfl
  | cons x xs ih => rw [writtenBus, ih]; cases xs <;> rfl

/-! ### Where a scan starts -/

/-- `s` at the head of a scan that reads: the phase begun, Read mode entered, SCAN_A 0 (R116, R118). -/
def readStart (p : Phase) (s : State) : State := clearScan (enterRead (beginPhase p s))

/-- `s` at the head of the scan of Writing (R117). -/
def writeStart (p : Phase) (s : State) : State := clearScan (enterWrite (beginPhase p s))

theorem readStart_eq (p : Phase) (s : State) (h : Ready s) :
    readStart p s =
      { s with
        bus := ⟨.read, false, false, true, false, s.bus.dOut⟩
        orch := ⟨p, 0, 0⟩
        hidden := { s.hidden with waitCtr := 0, scanA := 0 }
        pulses := ⟨false, false⟩
        ev := startEvent p
        env := { s.env with sink := startEvent p :: s.env.sink } } := by
  unfold readStart
  rw [enterRead_eq]
  have hw : s.bus.weN = true := settled_we h.1
  simp [clearScan, beginPhase, emit, hw, startEvent]

theorem writeStart_eq (p : Phase) (s : State) (h : Ready s) :
    writeStart p s =
      { s with
        bus := ⟨.write, false, true, true, true, 0⟩
        orch := ⟨p, 0, 0⟩
        hidden := { s.hidden with waitCtr := 0, scanA := 0 }
        pulses := ⟨false, false⟩
        ev := startEvent p
        env := { s.env with sink := startEvent p :: s.env.sink } } := by
  unfold writeStart
  rw [enterWrite_eq (beginPhase p s) (settled_we (b := s.bus) h.1)]
  simp [clearScan, beginPhase, emit, startEvent]

theorem readStart_pins (p : Phase) (s : State) (h : Ready s) : ReadPins (readStart p s) := by
  rw [readStart_eq p s h]
  exact ⟨rfl, rfl, h.2⟩

theorem writeStart_pins (p : Phase) (s : State) (h : Ready s) : WritePins (writeStart p s) := by
  rw [writeStart_eq p s h]
  exact ⟨rfl, rfl, h.2⟩

/-- The fields of `readStart` that a scan's effect speaks of. -/
theorem readStart_fields (p : Phase) (s : State) (h : Ready s) :
    (readStart p s).hidden.scanA = 0 ∧ (readStart p s).orch = ⟨p, 0, 0⟩ ∧ (readStart p s).chip = s.chip ∧
      (readStart p s).env.sink = startEvent p :: s.env.sink ∧ (readStart p s).env.answers = s.env.answers ∧
      (readStart p s).srcReq = s.srcReq := by
  rw [readStart_eq p s h]
  exact ⟨rfl, rfl, rfl, rfl, rfl, rfl⟩

/-- The fields of `writeStart` that a scan's effect speaks of. -/
theorem writeStart_fields (p : Phase) (s : State) (h : Ready s) :
    (writeStart p s).hidden.scanA = 0 ∧ (writeStart p s).orch = ⟨p, 0, 0⟩ ∧ (writeStart p s).chip = s.chip ∧
      (writeStart p s).env.sink = startEvent p :: s.env.sink ∧ (writeStart p s).env.answers = s.env.answers ∧
      (writeStart p s).srcReq = s.srcReq := by
  rw [writeStart_eq p s h]
  exact ⟨rfl, rfl, rfl, rfl, rfl, rfl⟩

theorem scanLeft_start (s : State) (h : s.hidden.scanA = 0) : scanLeft s = maxAddress := by
  simp [scanLeft, h, maxAddr, maxAddress]

/-! ### The bodies -/

theorem runProgram_endPhase (p : Phase) (rest : List Item) (s : State) :
    runProgram (.endPhase p :: rest) s = runProgram rest (endPhase p s) := rfl

/-- The end of a workflow operation (R120 to R124). -/
theorem runProgram_done (p : Phase) (s : State) :
    runProgram (.endPhase p :: operationDone) s = responded .ok 0 (setPhase .idle (endPhase p s)) := rfl

/-- R115. -/
theorem erasingPhase_run (rest : List Item) (s : State) (h : Ready s) :
    runProgram (erasingPhase ++ rest) s =
      runProgram rest (endPhase .erasing (afterSequence eraseLead (protocolAddr 0x5555) 0x10 6 (beginPhase .erasing s))) := by
  obtain ⟨hs, hr⟩ := chain_rest h.2
  simp only [erasingPhase, List.cons_append, List.nil_append]
  rw [runProgram_goOn rfl, runProgram_goOn rfl, eraseChip_eq (beginPhase .erasing s) hs hr (settled_we h.1)]
  rfl

/-- R116. -/
theorem verifyErasedPhase_run (rest : List Item) (s : State) (h : Ready s) :
    ∃ t, runProgram (verifyErasedPhase ++ rest) s = runProgram (.endPhase .verifyingErased :: rest) t ∧
      Scanned (List.replicate maxAddress erased) (readStart .verifyingErased s) t ∧
      t.env.answers = s.env.answers ∧ t.srcReq = s.srcReq := by
  obtain ⟨ha, -, -, -, hans, hreq⟩ := readStart_fields .verifyingErased s h
  obtain ⟨t, h1, h2, h3, h4⟩ := runScanErased_eq maxAddress (readStart .verifyingErased s) (readStart_pins _ s h)
  refine ⟨t, ?_, h2, h3.trans hans, h4.trans hreq⟩
  simp only [verifyErasedPhase, List.cons_append, List.nil_append]
  rw [runProgram_goOn rfl, runProgram_goOn rfl, runProgram_goOn rfl]
  change runProgram _ (readStart .verifyingErased s) = _
  rw [runProgram_goOn (s' := t)]
  simp only [runItem]
  rw [scanLeft_start _ ha, h1]

/-- R117. -/
theorem writingPhase_run (rest : List Item) (bs : List Byte) (left : List SrcAnswer) (s : State) (h : Ready s)
    (hst : StreamTaken s.env.answers bs left) :
    ∃ t, runProgram (writingPhase ++ rest) s = runProgram (.endPhase .writing :: rest) t ∧
      Written bs (writeStart .writing s) t ∧ WritePins t ∧ t.env.answers = left ∧ (s.srcReq = false → t.srcReq = false) := by
  obtain ⟨ha, -, -, -, hans, hreq⟩ := writeStart_fields .writing s h
  obtain ⟨t, h1, h2, h3, h4, h5⟩ :=
    runByteLoop_taken .write (.endPhase .writing :: rest) bs left (writeStart .writing s) (by rw [hans]; exact hst)
      (writeStart_pins _ s h)
  refine ⟨t, ?_, h2, h3, h4, fun hq => h5 (by rw [hreq]; exact hq)⟩
  simp only [writingPhase, List.cons_append, List.nil_append]
  rw [runProgram_goOn rfl, runProgram_goOn rfl, runProgram_goOn rfl]
  change runProgram _ (writeStart .writing s) = _
  rw [runProgram_goOn (s' := t)]
  simp only [runItem]
  rw [scanLeft_start _ ha, h1]

/-- R118. -/
theorem verifyWrittenPhase_run (rest : List Item) (bs : List Byte) (left : List SrcAnswer) (s : State) (h : Ready s)
    (hst : StreamTaken s.env.answers bs left) :
    ∃ t, runProgram (verifyWrittenPhase ++ rest) s = runProgram (.endPhase .verifyingWritten :: rest) t ∧
      Scanned bs (readStart .verifyingWritten s) t ∧ ReadPins t ∧ t.env.answers = left ∧
      (s.srcReq = false → t.srcReq = false) := by
  obtain ⟨ha, -, -, -, hans, hreq⟩ := readStart_fields .verifyingWritten s h
  obtain ⟨t, h1, h2, h3, h4, h5⟩ :=
    runByteLoop_taken .verify (.endPhase .verifyingWritten :: rest) bs left (readStart .verifyingWritten s)
      (by rw [hans]; exact hst) (readStart_pins _ s h)
  refine ⟨t, ?_, h2, h3, h4, fun hq => h5 (by rw [hreq]; exact hq)⟩
  simp only [verifyWrittenPhase, List.cons_append, List.nil_append]
  rw [runProgram_goOn rfl, runProgram_goOn rfl, runProgram_goOn rfl]
  change runProgram _ (readStart .verifyingWritten s) = _
  rw [runProgram_goOn (s' := t)]
  simp only [runItem]
  rw [scanLeft_start _ ha, h1]

/-- R119: IOERR in Writing. -/
theorem writingPhase_fails (rest : List Item) (bs : List Byte) (left : List SrcAnswer) (s : State) (h : Ready s)
    (hst : StreamFails s.env.answers bs left) :
    ∃ t, runProgram (writingPhase ++ rest) s = abort .writing (takeAnswer left t) ∧ Written bs (writeStart .writing s) t := by
  obtain ⟨ha, -, -, -, hans, -⟩ := writeStart_fields .writing s h
  obtain ⟨t, h1, h2, -⟩ :=
    runByteLoop_fails .write (.endPhase .writing :: rest) bs left (writeStart .writing s) (by rw [hans]; exact hst)
      (writeStart_pins _ s h)
  refine ⟨t, ?_, h2⟩
  simp only [writingPhase, List.cons_append, List.nil_append]
  rw [runProgram_goOn rfl, runProgram_goOn rfl, runProgram_goOn rfl]
  refine runProgram_stop (s := writeStart .writing s) ?_
  simp only [runItem]
  rw [scanLeft_start _ ha, h1]
  rfl

/-- R119: IOERR in VerifyingWritten. -/
theorem verifyWrittenPhase_fails (rest : List Item) (bs : List Byte) (left : List SrcAnswer) (s : State) (h : Ready s)
    (hst : StreamFails s.env.answers bs left) :
    ∃ t, runProgram (verifyWrittenPhase ++ rest) s = abort .verifyingWritten (takeAnswer left t) ∧
      Scanned bs (readStart .verifyingWritten s) t := by
  obtain ⟨ha, -, -, -, hans, -⟩ := readStart_fields .verifyingWritten s h
  obtain ⟨t, h1, h2, -⟩ :=
    runByteLoop_fails .verify (.endPhase .verifyingWritten :: rest) bs left (readStart .verifyingWritten s)
      (by rw [hans]; exact hst) (readStart_pins _ s h)
  refine ⟨t, ?_, h2⟩
  simp only [verifyWrittenPhase, List.cons_append, List.nil_append]
  rw [runProgram_goOn rfl, runProgram_goOn rfl, runProgram_goOn rfl]
  refine runProgram_stop (s := readStart .verifyingWritten s) ?_
  simp only [runItem]
  rw [scanLeft_start _ ha, h1]
  rfl

/-- R127: a source that falls silent in Writing. -/
theorem writingPhase_stalls (rest : List Item) (bs : List Byte) (s : State) (h : Ready s) (hst : StreamStalls s.env.answers bs) :
    ∃ t, runProgram (writingPhase ++ rest) s = waitForByte .write (.endPhase .writing :: rest) t ∧
      Written bs (writeStart .writing s) t ∧ t.env.answers = [] := by
  obtain ⟨ha, -, -, -, hans, -⟩ := writeStart_fields .writing s h
  obtain ⟨t, h1, h2, -, h4⟩ :=
    runByteLoop_stalls .write (.endPhase .writing :: rest) bs (writeStart .writing s) (by rw [hans]; exact hst)
      (writeStart_pins _ s h)
  refine ⟨t, ?_, h2, h4⟩
  simp only [writingPhase, List.cons_append, List.nil_append]
  rw [runProgram_goOn rfl, runProgram_goOn rfl, runProgram_goOn rfl]
  refine runProgram_stop (s := writeStart .writing s) ?_
  simp only [runItem]
  rw [scanLeft_start _ ha, h1]

/-- R127: a source that falls silent in VerifyingWritten. -/
theorem verifyWrittenPhase_stalls (rest : List Item) (bs : List Byte) (s : State) (h : Ready s)
    (hst : StreamStalls s.env.answers bs) :
    ∃ t, runProgram (verifyWrittenPhase ++ rest) s = waitForByte .verify (.endPhase .verifyingWritten :: rest) t ∧
      Scanned bs (readStart .verifyingWritten s) t ∧ t.env.answers = [] := by
  obtain ⟨ha, -, -, -, hans, -⟩ := readStart_fields .verifyingWritten s h
  obtain ⟨t, h1, h2, -, h4⟩ :=
    runByteLoop_stalls .verify (.endPhase .verifyingWritten :: rest) bs (readStart .verifyingWritten s)
      (by rw [hans]; exact hst) (readStart_pins _ s h)
  refine ⟨t, ?_, h2, h4⟩
  simp only [verifyWrittenPhase, List.cons_append, List.nil_append]
  rw [runProgram_goOn rfl, runProgram_goOn rfl, runProgram_goOn rfl]
  refine runProgram_stop (s := readStart .verifyingWritten s) ?_
  simp only [runItem]
  rw [scanLeft_start _ ha, h1]

/-! ### A whole phase, from the state it began in -/

theorem scanChain_eq (es : List Byte) (i : Count) (c : Chain) :
    scanChain i es c = if es.length = 0 then c else chainOf ((i + BitVec.ofNat 20 (es.length - 1)).setWidth 24) := by
  induction es generalizing i c with
  | nil => rfl
  | cons e es ih =>
    rw [scanChain, ih]
    cases es with
    | nil => simp [chainOf]
    | cons e' es =>
      simp only [List.length_cons, Nat.add_sub_cancel, Nat.add_one_ne_zero, if_false]
      rw [show i + 1 + BitVec.ofNat 20 es.length = i + BitVec.ofNat 20 (es.length + 1) by rw [BitVec.ofNat_add]; ac_rfl]

theorem scanChain_zero (es : List Byte) (c : Chain) (h : es.length ≤ maxAddress) :
    scanChain 0 es c = c.afterScan es.length := by
  have hm : maxAddress = 524288 := rfl
  rw [scanChain_eq, Chain.afterScan]
  split
  · rfl
  · congr 1
    apply BitVec.eq_of_toNat_eq
    simp
    omega

theorem writtenBus_start (bs : List Byte) :
    writtenBus bs ⟨.write, false, true, true, true, 0⟩ = busAfterWriting bs := by
  have hw : ∀ (bs : List Byte) (d : Byte), writtenBus bs ⟨.write, true, true, true, true, d⟩ =
      ⟨.write, true, true, true, true, bs.getLastD d⟩ := by
    intro bs
    induction bs with
    | nil => intro d; rfl
    | cons b bs ih => intro d; rw [writtenBus, ih]; cases bs <;> rfl
  cases bs with
  | nil => rfl
  | cons b bs => rw [writtenBus, hw]; cases bs <;> rfl

/-- What `writingPhase` has done to `s` when the loop is left or waits, `bs` having been written; silent on the answers, `src_req`, SEQ
and the hidden registers other than SCAN_A. -/
structure WritingDone (bs : List Byte) (s t : State) : Prop where
  chain : t.chain = s.chain.afterScan bs.length
  bus : t.bus = busAfterWriting bs
  orch : t.orch = ⟨.writing, 0, BitVec.ofNat 20 bs.length⟩
  scanA : t.hidden.scanA = BitVec.ofNat 20 bs.length
  chip : t.chip = s.chip.afterPairs (streamPairs 0 bs)
  writeCycles : t.env.writeCycles = writeCyclesOf (streamPairs 0 bs) ++ s.env.writeCycles
  sink : t.env.sink = startEvent .writing :: s.env.sink
  latch : t.latch = s.latch
  fault : t.fault = s.fault
  lastStatus : t.lastStatus = s.lastStatus
  busy : t.busy = s.busy
  rsp : t.rsp = s.rsp
  draws : t.draws = s.draws
  safetyFault : t.safetyFault = s.safetyFault
  hostWords : t.env.hostWords = s.env.hostWords
  rstEdges : t.env.rstEdges = s.env.rstEdges
  responses : t.env.responses = s.env.responses

/-- The results and SCAN_A of a scan that started with SCAN_A and RES_NEXT at 0. -/
theorem scan_result (bs : List Byte) (n a x : Count) (hn : n = 0) (ha : a = 0) :
    (x = a + BitVec.ofNat 20 bs.length → x = BitVec.ofNat 20 bs.length) ∧
      ((x = if bs = [] then n else a + BitVec.ofNat 20 bs.length) → x = BitVec.ofNat 20 bs.length) := by
  subst hn ha
  refine ⟨fun h => by simpa using h, fun h => ?_⟩
  rw [h]
  split
  · next hb => subst hb; rfl
  · exact BitVec.zero_add _

theorem WritingDone.of_written {bs : List Byte} {s t : State} (h : Ready s) (hl : bs.length ≤ maxAddress)
    (hw : Written bs (writeStart .writing s) t) : WritingDone bs s t := by
  rw [writeStart_eq .writing s h] at hw
  obtain ⟨h1, h2, h3, h4, h5, h6, h7, h8, h9, h10, h11, -, h13, h14, h15, h16, h17, h18, h19, h20⟩ := hw
  refine ⟨h2.trans (scanChain_zero bs s.chain hl), h3.trans (writtenBus_start bs), ?_, (scan_result bs 0 0 _ rfl rfl).1 h7, h13,
    h19, h20, h1, h8, h9, h10, h11, h14, h15, h16, h17, h18⟩
  have hn := (scan_result bs 0 0 _ rfl rfl).2 h6
  rcases t with ⟨_, _, _, ⟨p, c, n⟩, _⟩
  simp only at h4 h5 hn
  rw [h4, h5, hn]

theorem WritingDone.ready {bs : List Byte} {s t : State} (h : Ready s) (hw : WritingDone bs s t) : Ready t := by
  refine ⟨by rw [hw.bus]; rfl, ?_⟩
  rw [hw.chain, Chain.afterScan]
  split
  · exact h.2
  · rfl

/-- What a phase `p` that reads has done to `s` when its scan or loop is left or waits, the bytes `es` having been expected; silent on
the same things. -/
structure VerifyDone (p : Phase) (es : List Byte) (s t : State) : Prop where
  chain : t.chain = s.chain.afterScan es.length
  bus : t.bus = ⟨.read, false, false, true, false, s.bus.dOut⟩
  orch : t.orch = ⟨p, BitVec.ofNat 20 (mismatches s.chip 0 es), BitVec.ofNat 20 es.length⟩
  scanA : t.hidden.scanA = BitVec.ofNat 20 es.length
  chip : t.chip = s.chip
  writeCycles : t.env.writeCycles = s.env.writeCycles
  sink : t.env.sink = (scanEvents p s.chip 0 0 es).reverse ++ startEvent p :: s.env.sink
  latch : t.latch = s.latch
  fault : t.fault = s.fault
  lastStatus : t.lastStatus = s.lastStatus
  busy : t.busy = s.busy
  rsp : t.rsp = s.rsp
  draws : t.draws = s.draws
  safetyFault : t.safetyFault = s.safetyFault
  hostWords : t.env.hostWords = s.env.hostWords
  rstEdges : t.env.rstEdges = s.env.rstEdges
  responses : t.env.responses = s.env.responses

theorem VerifyDone.of_scanned {p : Phase} {es : List Byte} {s t : State} (h : Ready s) (hl : es.length ≤ maxAddress)
    (hw : Scanned es (readStart p s) t) : VerifyDone p es s t := by
  rw [readStart_eq p s h] at hw
  obtain ⟨h1, h2, h3, h4, h5, h6, h7, h8, h9, h10, h11, -, h13, h14, h15, h16, h17, h18, h19, h20⟩ := hw
  refine ⟨h2.trans (scanChain_zero es s.chain hl), h3, ?_, (scan_result es 0 0 _ rfl rfl).1 h7, h13,
    h19, h20, h1, h8, h9, h10, h11, h14, h15, h16, h17, h18⟩
  have hn := (scan_result es 0 0 _ rfl rfl).2 h6
  rcases t with ⟨_, _, _, ⟨p', c, n⟩, _⟩
  simp only at h4 h5 hn
  rw [h4, h5.trans (BitVec.zero_add _), hn]

theorem VerifyDone.ready {p : Phase} {es : List Byte} {s t : State} (h : Ready s) (hw : VerifyDone p es s t) : Ready t := by
  refine ⟨by rw [hw.bus]; rfl, ?_⟩
  rw [hw.chain, Chain.afterScan]
  split
  · exact h.2
  · rfl

theorem writeCyclesOf_append (ps qs : List (Addr × Byte)) :
    writeCyclesOf (ps ++ qs) = writeCyclesOf qs ++ writeCyclesOf ps := by
  simp [writeCyclesOf]

/-! ### OP_PROGRAM up to Writing -/

/-- What the first two phases of OP_PROGRAM have done to `s` (R115, R116, R124). -/
structure ReadyToWrite (s t : State) : Prop where
  ready : Ready t
  chain : t.chain = chainOf 0x07FFFF
  chip : t.chip = s.chip.afterPairs chipEraseSequence
  writeCycles : t.env.writeCycles = writeCyclesOf chipEraseSequence ++ s.env.writeCycles
  sink : t.env.sink = eventsBeforeWriting (s.chip.afterPairs chipEraseSequence) ++ s.env.sink
  answers : t.env.answers = s.env.answers
  srcReq : t.srcReq = s.srcReq
  latch : t.latch = s.latch
  fault : t.fault = s.fault
  lastStatus : t.lastStatus = s.lastStatus
  busy : t.busy = s.busy
  rsp : t.rsp = s.rsp
  draws : t.draws = s.draws
  safetyFault : t.safetyFault = s.safetyFault
  hostWords : t.env.hostWords = s.env.hostWords
  rstEdges : t.env.rstEdges = s.env.rstEdges
  responses : t.env.responses = s.env.responses

theorem program_start (rest : List Item) (s : State) (h : Ready s) :
    ∃ t, runProgram (erasingPhase ++ (verifyErasedPhase ++ rest)) s = runProgram rest t ∧ ReadyToWrite s t := by
  rw [erasingPhase_run _ s h]
  obtain ⟨u, hu⟩ :
      ∃ u, u = endPhase .erasing (afterSequence eraseLead (protocolAddr 0x5555) 0x10 6 (beginPhase .erasing s)) := ⟨_, rfl⟩
  rw [← hu]
  have hr : Ready u := by rw [hu]; exact ⟨rfl, rfl⟩
  obtain ⟨t, h1, h2, h3, h4⟩ := verifyErasedPhase_run rest u hr
  have hd := VerifyDone.of_scanned hr (Nat.le_of_eq List.length_replicate) h2
  have ht := hd.ready hr
  have hchain : t.chain = chainOf 0x07FFFF := by
    rw [hd.chain, List.length_replicate]
    rfl
  have hsink : (endPhase .verifyingErased t).env.sink =
      eventsBeforeWriting (s.chip.afterPairs chipEraseSequence) ++ s.env.sink := by
    show Event.mk _ _ t.orch.resNext _ _ t.orch.resCount :: t.env.sink = _
    rw [hd.orch, hd.sink, eventsBeforeWriting, verifyEvents, hu]
    simp only [List.cons_append, List.append_assoc, List.nil_append]
    rfl
  refine ⟨endPhase .verifyingErased t, by rw [h1, runProgram_endPhase], ht, hchain, hd.chip.trans ?_, hd.writeCycles.trans ?_, hsink,
    h3.trans ?_, h4.trans ?_, hd.latch.trans ?_, hd.fault.trans ?_, hd.lastStatus.trans ?_, hd.busy.trans ?_, hd.rsp.trans ?_,
    hd.draws.trans ?_, hd.safetyFault.trans ?_, hd.hostWords.trans ?_, hd.rstEdges.trans ?_, hd.responses.trans ?_⟩ <;>
    (rw [hu]; rfl)

end Sys2Proof.Machine
end

