-- ==== Sys2Proof/Laws/Pins.lean ====
section
/-! SUPPORT. What SEQ may still do, read off it without running it: the lines that decide contention, the mode and PHASE are followed
through the operations still to run (`planned`). `Planned` is kept by every micro-step and every outside move (41_bus_mode.md R102,
43_orchestrator.md R112). -/

namespace Sys2Proof.Machine

open Sys2Proof.Config

/-- The lines of R30, the mode and PHASE. -/
structure View where
  mode : BusMode
  oeN : Bool
  dDrive : Bool
  phase : Phase
  deriving DecidableEq, Repr

def State.view (s : State) : View := ⟨s.bus.mode, s.bus.oeN, s.bus.dDrive, s.orch.phase⟩

/-- No CONTENTION (R30). -/
def View.quiet (v : View) : Bool := v.oeN || !v.dDrive

/-- The lines as R25 has them between operations. -/
def View.settled (v : View) : Bool :=
  match v.mode with
  | .idle => v.oeN && !v.dDrive
  | .read => !v.oeN && !v.dDrive
  | .write => v.oeN && v.dDrive

/-- Between commands. -/
def View.resting (v : View) : Bool := v.settled && (v.phase == .idle || v.phase == .failed)

/-- After `enterRead()` (R91). -/
def View.toRead (v : View) : View := { v with mode := .read, oeN := false, dDrive := false }

/-- After `enterWrite()` (R93). -/
def View.toWrite (v : View) : View := { v with mode := .write, oeN := true, dDrive := true }

/-- In the pins of a byte loop (R117, R118). -/
def View.inLoop (l : ByteLoop) (v : View) : Bool :=
  v.phase == l.phase && match l with | .write => v == v.toWrite | .verify => v == v.toRead

/-- A micro-operation's effect on a view. -/
def View.after (v : View) : MicroOp → View
  | .drive .oeN b => { v with oeN := b }
  | .busInput => { v with dDrive := false }
  | .busOutput _ => { v with dDrive := true }
  | .setMode m => { v with mode := m }
  | .drive .srclk _ | .drive .rclk _ | .drive .ceN _ | .drive .weN _ | .driveSer | .wait _ | .waiting | .loadShift _ | .nextBit
  | .setTxn _ => v

/-- A group drive to output from an input setting is the one of `enterWrite()` (R101). -/
def View.admits (v : View) (m : MicroOp) (rest : List Item) : Bool :=
  (v.after m).quiet &&
    match m with
    | .busOutput b => v.dDrive || (b == 0x00 && rest.take 1 == [.micro (.wait .dir)])
    | _ => true

/-- A list of SEQ keeps CONTENTION false and PHASE to R112's table, and ends with the lines of R25. -/
def planned : List Item → View → Bool
  | [], v => v.resting
  | i :: rest, v =>
    match i with
    | .micro m => v.admits m rest && planned rest (v.after m)
    | .enterRead => planned rest v.toRead
    | .enterWrite => planned rest v.toWrite
    | .ensureWrite | .writeByte _ _ | .eraseChip => v.settled && planned rest v.toWrite
    | .require m _ => if v.mode = m then planned rest v else v.resting
    | .raiseErr _ => v.resting
    | .beginPhase p => v.phase.mayBegin p && planned rest { v with phase := p }
    | .setPhase p =>
      (p == .idle && v.phase.runs && rest == [.respond .ok 0x00] ||
        p == .failed && v.phase.reads && rest == [.respond .eIo 0x00]) && planned rest { v with phase := p }
    | .scanErased => v == v.toRead && planned rest v
    | .byteLoop l | .reqByte l | .gotByte l _ => v.inLoop l && planned rest v
    | .abort p => v.settled && v.phase == p && p.reads
    | .shift _ | .sample _ | .compareRecord _ _ | .record _ _ | .endPhase _ | .clearScan | .nextScan | .emitFail _
    | .respond _ _ => planned rest v

/-- The invariant of every cycle. -/
structure Planned (s : State) : Prop where
  quiet : s.view.quiet = true
  unmarked : s.safetyFault = false
  running : s.busy = true → planned s.seq s.view = true
  resting : s.busy = false → s.view.resting = true

/-! ### Lists of micro-operations -/

/-- A micro-operation that moves nothing of a view. -/
def MicroOp.still : MicroOp → Bool
  | .drive .oeN _ | .busInput | .busOutput _ | .setMode _ => false
  | _ => true

theorem planned_micros (ms : List MicroOp) (rest : List Item) (v : View)
    (h : ∀ m ∈ ms, v.after m = v ∧ ∀ r, v.admits m r = true) : planned (microItems ms ++ rest) v = planned rest v := by
  induction ms with
  | nil => rfl
  | cons m ms ih =>
    have hm := h m (by simp)
    show (v.admits m _ && planned (microItems ms ++ rest) (v.after m)) = _
    rw [hm.1, hm.2, Bool.true_and]
    exact ih fun m' hm' => h m' (by simp [hm'])

theorem still_keeps (m : MicroOp) (v : View) (hs : m.still = true) (hq : v.quiet = true) :
    v.after m = v ∧ ∀ r, v.admits m r = true := by
  cases m with
  | drive p b => cases p <;> simp_all [MicroOp.still, View.after, View.admits]
  | _ => simp_all [MicroOp.still, View.after, View.admits]

theorem shiftBits_still (n : Nat) : ∀ m ∈ shiftBitsOps n, m.still = true := by
  induction n with
  | zero => simp [shiftBitsOps]
  | succ n ih =>
    intro m hm
    rw [shiftBitsOps, List.mem_append] at hm
    rcases hm with hm | hm
    · exact List.all_eq_true.mp (by rfl : shiftBitOps.all MicroOp.still = true) m hm
    · exact ih m hm

theorem shift_still (a : Addr) : ∀ m ∈ shiftOps a, m.still = true := by
  intro m hm
  simp only [shiftOps, List.mem_cons, List.mem_append] at hm
  rcases hm with rfl | hm | hm
  · rfl
  · exact shiftBits_still _ m hm
  · exact List.all_eq_true.mp (by rfl : latchOps.all MicroOp.still = true) m hm

theorem planned_shift (a : Addr) (rest : List Item) (v : View) (hq : v.quiet = true) :
    planned (microItems (shiftOps a) ++ rest) v = planned rest v :=
  planned_micros _ rest v fun m hm => still_keeps m v (shift_still a m hm) hq

theorem planned_enterRead (rest : List Item) (v : View) :
    planned (microItems enterReadOps ++ rest) v = planned rest v.toRead := by
  simp [microItems, enterReadOps, driveWait, planned, View.admits, View.after, View.quiet, View.toRead]

theorem planned_enterWrite (rest : List Item) (v : View) :
    planned (microItems enterWriteOps ++ rest) v = planned rest v.toWrite := by
  simp [microItems, enterWriteOps, driveWait, planned, View.admits, View.after, View.quiet, View.toWrite]

/-- In Write mode's lines every operation of a sequence keeps the view. -/
theorem write_keeps (m : MicroOp) (v : View) (hv : v = v.toWrite)
    (hm : m.still = true ∨ m = .drive .oeN true ∨ ∃ b, m = .busOutput b) : v.after m = v ∧ ∀ r, v.admits m r = true := by
  rcases hm with hm | rfl | ⟨b, rfl⟩
  · exact still_keeps m v hm (by rw [hv]; rfl)
  · rw [hv]; exact ⟨rfl, fun _ => rfl⟩
  · rw [hv]; exact ⟨rfl, fun _ => rfl⟩

theorem txn_ops (a : Addr) (b : Byte) : ∀ m ∈ txnOps a b, m.still = true ∨ m = .drive .oeN true ∨ ∃ b, m = .busOutput b := by
  intro m hm
  simp only [txnOps, List.mem_append] at hm
  rcases hm with ((hm | hm) | hm) | hm | ((hm | hm) | hm) | hm
  all_goals first
    | exact .inl (shift_still a m hm)
    | (simp [driveWait] at hm
       rcases hm with rfl | rfl
       · first | exact .inl rfl | exact .inr (.inl rfl) | exact .inr (.inr ⟨_, rfl⟩)
       · exact .inl rfl)

theorem replay_ops (k : BitVec 3) (ps : List (Addr × Byte)) :
    ∀ m ∈ replayOps k ps, m.still = true ∨ m = .drive .oeN true ∨ ∃ b, m = .busOutput b := by
  induction ps generalizing k with
  | nil => intro m hm; simp [replayOps] at hm; subst hm; exact .inl rfl
  | cons p ps ih =>
    intro m hm
    rcases p with ⟨a, b⟩
    simp only [replayOps, List.mem_cons, List.mem_append] at hm
    rcases hm with rfl | hm | hm
    · exact .inl rfl
    · exact txn_ops a b m hm
    · exact ih _ m hm

theorem planned_replay (ms : List MicroOp) (rest : List Item) (v : View) (hv : v = v.toWrite)
    (h : ∀ m ∈ ms, m.still = true ∨ m = .drive .oeN true ∨ ∃ b, m = .busOutput b) :
    planned (microItems ms ++ rest) v = planned rest v :=
  planned_micros ms rest v fun m hm => write_keeps m v hv (h m hm)

/-! ### What a micro-step does to the view -/

theorem view_applyMicro (m : MicroOp) (s : State) : (applyMicro m s).view = s.view.after m := by
  cases m with
  | drive p v =>
    cases p <;> simp [applyMicro, drivePin, setBus, setChain, observe, pulsesOff, weRises, State.view, View.after] <;>
      (repeat' split) <;> rfl
  | _ => rfl

theorem quiet_contention (s : State) : s.view.quiet = !contention s := by
  simp [View.quiet, State.view, contention, Bus.contention]

theorem contention_of_quiet {s : State} (h : s.view.quiet = true) : contention s = false := by
  have := quiet_contention s
  rw [h] at this
  simpa using this

/-- A micro-operation leaves PHASE. -/
theorem phase_applyMicro (m : MicroOp) (s : State) : (applyMicro m s).orch.phase = s.orch.phase := by
  refine (congrArg View.phase (view_applyMicro m s)).trans ?_
  cases m with
  | drive p v => cases p <;> rfl
  | _ => rfl

theorem phase_runMicros (ms : List MicroOp) (s : State) : (runMicros ms s).orch.phase = s.orch.phase := by
  induction ms generalizing s with
  | nil => rfl
  | cons m ms ih => rw [runMicros_cons, ih, phase_applyMicro]

/-- Every operation list of R85 to R124 is planned from the lines of R25, PHASE being Idle (R112). -/
theorem planned_program (i : Instr) (v : View) (hs : v.settled = true) (hp : v.phase = .idle) :
    planned (program i) v = true := by
  rcases v with ⟨m, o, d, p⟩
  simp only at hp
  subst hp
  cases m <;> cases o <;> cases d <;> simp [View.settled] at hs <;> cases i <;> rfl

theorem inLoop_lines {l : ByteLoop} {v : View} (h : v.inLoop l = true) :
    v.quiet = true ∧ v.settled = true ∧ v.phase = l.phase := by
  rcases v with ⟨m, o, d, p⟩
  cases l <;> simp_all [View.inLoop, View.toRead, View.toWrite, View.quiet, View.settled]

theorem ensureWrite_view (rest : List Item) (s : State) (h : s.view.settled = true) :
    planned (microItems (ensureWriteOps s) ++ rest) s.view = planned rest s.view.toWrite := by
  unfold ensureWriteOps
  split
  · next hm =>
    have hv : s.view = s.view.toWrite := by
      rw [View.settled, show s.view.mode = .write from hm] at h
      simp only [Bool.and_eq_true, State.view] at h
      simp [View.toWrite, State.view, h, hm]
    rw [← hv]; rfl
  · exact planned_enterWrite rest s.view

theorem eraseChip_ops : ∀ m ∈ eraseChipOps, m.still = true ∨ m = .drive .oeN true ∨ ∃ b, m = .busOutput b := by
  intro m hm
  rw [eraseChipOps, List.mem_append] at hm
  rcases hm with hm | hm
  · exact replay_ops 0 _ m hm
  · simp at hm; subst hm; exact .inl rfl

/-- `readByte(a)` in Read mode's lines. -/
theorem planned_readByte (a : Addr) (u : SampleUse) (rest : List Item) (v : View) (hv : v = v.toRead) :
    planned (readByteItems a u ++ rest) v = planned rest v := by
  have hm : v.mode = .read := by rw [hv]; rfl
  have hq : v.quiet = true := by rw [hv]; rfl
  show (if v.mode = .read then (v.admits (.wait .rd) _ && planned rest (v.after (.wait .rd))) else _) = _
  rw [if_pos hm, show v.admits (.wait .rd) _ = true by simpa [View.admits, View.after] using hq]
  rfl

/-- One turn of a byte loop with its byte (R117, R118). -/
theorem planned_byte (l : ByteLoop) (b : Byte) (s : State) (rest : List Item) (h : s.view.inLoop l = true) :
    planned (byteItems l b s ++ rest) s.view = planned (.byteLoop l :: rest) s.view := by
  obtain ⟨-, hs, -⟩ := inLoop_lines h
  cases l with
  | write =>
    have hv : s.view = s.view.toWrite := by simp [View.inLoop] at h; exact h.2
    show (s.view.settled && planned (.byteLoop .write :: rest) s.view.toWrite) = _
    rw [hs, ← hv]; rfl
  | verify =>
    have hv : s.view = s.view.toRead := by simp [View.inLoop] at h; exact h.2
    rw [byteItems, List.append_assoc, planned_readByte _ _ _ _ hv]
    rfl

/-- What a micro-step of an operation must leave. -/
structure Goes (s t : State) : Prop where
  quiet : t.view.quiet = true
  unmarked : t.safetyFault = false
  busy : t.busy = s.busy
  planned : planned t.seq t.view = true

theorem microItem_goes (T : Timing) (i : Item) (rest : List Item) (s : State) (hq : s.view.quiet = true)
    (hm : s.safetyFault = false) (hs : s.seq = i :: rest) (h : planned (i :: rest) s.view = true) : Goes s (microItem T i rest s) := by
  cases i with
  | micro m =>
    simp only [planned, Bool.and_eq_true] at h
    have ha : (s.view.after m).quiet = true := by
      have := h.1
      simp only [View.admits, Bool.and_eq_true] at this
      exact this.1
    have hv : (applyMicro m s).view.quiet = true := by rw [view_applyMicro]; exact ha
    have hf := applyMicro_fixed m s (contention_of_quiet hv) hm
    have gen : Goes s (setSeq rest (applyMicro m s)) :=
      ⟨hv, hf.1, hf.2.2, by show Machine.planned rest (applyMicro m s).view = true; rw [view_applyMicro]; exact h.2⟩
    have wait : ∀ n, (h : Machine.planned rest s.view = true) → Goes s (waitCycle n rest s) := by
      intro n hr
      refine ⟨hq, hm, rfl, ?_⟩
      show Machine.planned (if n ≤ 1 then rest else .micro .waiting :: rest) s.view = true
      split
      · exact hr
      · show (s.view.admits .waiting rest && Machine.planned rest s.view) = true
        rw [hr]; simpa [View.admits, View.after] using hq
    cases m with
    | wait t => exact wait _ h.2
    | waiting => exact wait _ h.2
    | _ => exact gen
  | shift v => exact ⟨hq, hm, rfl, (planned_shift v rest s.view hq).trans h⟩
  | enterRead => exact ⟨hq, hm, rfl, (planned_enterRead rest s.view).trans h⟩
  | enterWrite => exact ⟨hq, hm, rfl, (planned_enterWrite rest s.view).trans h⟩
  | ensureWrite =>
    simp only [planned, Bool.and_eq_true] at h
    refine ⟨hq, hm, rfl, ?_⟩
    show planned (microItems (ensureWriteOps s) ++ rest) s.view = true
    rw [ensureWrite_view rest s h.1]
    exact h.2
  | writeByte a b =>
    simp only [planned, Bool.and_eq_true] at h
    refine ⟨hq, hm, rfl, ?_⟩
    show (s.view.settled && planned (microItems (writeByteOps a b) ++ rest) s.view.toWrite) = true
    rw [writeByteOps, planned_replay _ rest s.view.toWrite rfl (replay_ops 0 _), h.1, h.2]
    rfl
  | eraseChip =>
    simp only [planned, Bool.and_eq_true] at h
    refine ⟨hq, hm, rfl, ?_⟩
    show (s.view.settled && planned (microItems eraseChipOps ++ rest) s.view.toWrite) = true
    rw [planned_replay _ rest s.view.toWrite rfl eraseChip_ops, h.1, h.2]
    rfl
  | require m e =>
    simp only [microItem]
    split
    · next hmode => exact ⟨hq, hm, rfl, by rw [planned, if_pos (show s.view.mode = m from hmode)] at h; exact h⟩
    · next hmode => exact ⟨hq, hm, rfl, by rw [planned, if_neg (show s.view.mode ≠ m from hmode)] at h; exact h⟩
  | raiseErr e => exact ⟨hq, hm, rfl, h⟩
  | sample u => cases u <;> exact ⟨hq, hm, rfl, h⟩
  | compareRecord e v => simp only [microItem]; split <;> exact ⟨hq, hm, rfl, h⟩
  | beginPhase p =>
    simp only [planned, Bool.and_eq_true] at h
    exact ⟨hq, hm, rfl, h.2⟩
  | setPhase p =>
    simp only [planned, Bool.and_eq_true] at h
    exact ⟨hq, hm, rfl, h.2⟩
  | scanErased =>
    simp only [microItem]
    split
    · simp only [planned, Bool.and_eq_true] at h; exact ⟨hq, hm, rfl, h.2⟩
    · refine ⟨hq, hm, rfl, ?_⟩
      show planned (scanErasedItems s ++ rest) s.view = true
      have hv : s.view = s.view.toRead := by simp only [planned, Bool.and_eq_true, beq_iff_eq] at h; exact h.1
      rw [scanErasedItems, List.append_assoc, planned_readByte _ _ _ _ hv]
      exact h
  | byteLoop l =>
    simp only [microItem]
    split
    · simp only [planned, Bool.and_eq_true] at h; exact ⟨hq, hm, rfl, h.2⟩
    · exact ⟨hq, hm, rfl, h⟩
  | reqByte l =>
    simp only [microItem, requestCycle]
    split
    · exact ⟨hq, hm, rfl, by rw [← hs] at h; exact h⟩
    · split
      · exact ⟨hq, hm, rfl, h⟩
      · exact ⟨hq, hm, rfl, by rw [← hs] at h; exact h⟩
  | gotByte l r =>
    have hl : s.view.inLoop l = true := by simp only [planned, Bool.and_eq_true] at h; exact h.1
    cases r with
    | byte b =>
      refine ⟨hq, hm, rfl, ?_⟩
      show planned (byteItems l b s ++ rest) s.view = true
      rw [planned_byte l b s rest hl]
      exact h
    | eos => simp only [planned, Bool.and_eq_true] at h; exact ⟨hq, hm, rfl, h.2⟩
    | ioerr =>
      refine ⟨hq, hm, rfl, ?_⟩
      obtain ⟨-, h2, h3⟩ := inLoop_lines hl
      show (s.view.settled && s.view.phase == l.phase && l.phase.reads) = true
      rw [h2, h3]
      cases l <;> rfl
  | abort p =>
    refine ⟨hq, hm, rfl, ?_⟩
    simp only [planned, Bool.and_eq_true, beq_iff_eq] at h
    show ((_ || _ && s.view.phase.reads && _) && (s.view.settled && _)) = true
    rw [h.1.1, h.1.2, h.2]
    rfl
  | record e v => exact ⟨hq, hm, rfl, h⟩
  | endPhase p => exact ⟨hq, hm, rfl, h⟩
  | clearScan => exact ⟨hq, hm, rfl, h⟩
  | nextScan => exact ⟨hq, hm, rfl, h⟩
  | emitFail p => exact ⟨hq, hm, rfl, h⟩
  | respond st d => exact ⟨hq, hm, rfl, h⟩

/-- A micro-step of a planned state, by the case it takes. -/
theorem microStep_cases (T : Timing) (s : State) (h : Planned s) :
    (s.env.rstEdges ≠ 0 ∧ microStep T s = resetEdge s) ∨
      (s.env.rstEdges = 0 ∧ s.busy = true ∧ s.seq = [] ∧ s.view.resting = true ∧ microStep T s = finish s) ∨
      (s.env.rstEdges = 0 ∧ s.busy = true ∧
        ∃ i rest, s.seq = i :: rest ∧ planned (i :: rest) s.view = true ∧ microStep T s = microItem T i rest s) ∨
      (s.env.rstEdges = 0 ∧ s.busy = false ∧ s.env.hostWords = [] ∧ microStep T s = idleCycle s) ∨
      (s.env.rstEdges = 0 ∧ s.busy = false ∧
        ∃ w ws, s.env.hostWords = w :: ws ∧ microStep T s = setSeq (program (decode w)) (accept w s)) := by
  have hc := contention_of_quiet h.quiet
  by_cases hr : s.env.rstEdges = 0
  · right
    cases hb : s.busy with
    | true =>
      have hrun := h.running hb
      cases hs : s.seq with
      | nil => exact .inl ⟨hr, rfl, rfl, by rw [hs] at hrun; exact hrun, microStep_finish T s h.unmarked hc hr hb hs⟩
      | cons i rest =>
        exact .inr (.inl ⟨hr, rfl, i, rest, rfl, by rw [← hs]; exact hrun, microStep_busy T i rest s h.unmarked hc hr hb hs⟩)
    | false =>
      cases hw : s.env.hostWords with
      | nil => exact .inr (.inr (.inl ⟨hr, rfl, rfl, by simp [microStep, h.unmarked, hc, hr, hb, hw]⟩))
      | cons w ws => exact .inr (.inr (.inr ⟨hr, rfl, w, ws, rfl, microStep_accept T w ws s h.unmarked hc hr hb hw⟩))
  · exact .inl ⟨hr, microStep_reset T s h.unmarked hc hr⟩

theorem planned_micro (T : Timing) (s : State) (h : Planned s) : Planned (microStep T s) := by
  rcases microStep_cases T s h with
    ⟨-, h2⟩ | ⟨-, -, -, hv, h2⟩ | ⟨-, hb, i, rest, hs, hp, h2⟩ | ⟨-, hb, -, h2⟩ | ⟨-, hb, w, ws, -, h2⟩ <;> rw [h2]
  · exact ⟨rfl, h.unmarked, fun h' => (nomatch h'), fun _ => rfl⟩
  · exact ⟨h.quiet, h.unmarked, fun h' => (nomatch h'), fun _ => hv⟩
  · obtain ⟨g1, g2, g3, g4⟩ := microItem_goes T i rest s h.quiet h.unmarked hs hp
    exact ⟨g1, g2, fun _ => g4, fun h' => by rw [g3, hb] at h'; cases h'⟩
  · exact ⟨h.quiet, h.unmarked, fun h' => absurd (hb.symm.trans h') (by decide), fun _ => h.resting hb⟩
  · have hrest := h.resting hb
    simp only [View.resting, Bool.and_eq_true, Bool.or_eq_true, beq_iff_eq] at hrest
    refine ⟨h.quiet, h.unmarked, fun _ => planned_program (decode w) _ hrest.1 ?_, fun h' => (nomatch h')⟩
    show s.orch.phase.onAccept = .idle
    rcases hrest.2 with hp | hp <;> rw [show s.orch.phase = _ from hp] <;> rfl

/-- `Planned` holds of every state the machine passes through. -/
theorem planned_of_reachable (T : Timing) (s : State) (h : Reachable T s) : Planned s := by
  induction h with
  | powerUp sr q chip => exact ⟨rfl, rfl, fun h' => (nomatch h'), fun _ => rfl⟩
  | micro s _ ih => exact planned_micro T s ih
  | outside m s _ ih => cases m <;> exact ⟨ih.quiet, ih.unmarked, ih.running, ih.resting⟩

end Sys2Proof.Machine
end

