-- ==== Sys2Proof/Tests/Slice0.lean ====
section
/-! SUPPORT. The author's own tests. Expected results are those of spec/95_test_vectors.md (V, P) or of the rule named; a test that
carries no name of a vector checks a check. Every obligation with hypotheses has its witness at the end. -/

namespace Sys2Proof.Tests

open Sys2Proof Sys2Proof.Machine Sys2Proof.Config

-- The theorems of this file are checked one after another, so that they need no more memory than one of them.
set_option Elab.async false

/-! ### Well-formedness: each check refuses an ill-formed term -/

theorem test_reserved_opcodes_are_not_legal :
    Instr.legal .reserved0 = false ∧ Instr.legal .reservedD = false ∧ Instr.legal .reservedE = false ∧
      Instr.legal .reservedF = false ∧ Instr.legal .opProgram = true := by decide

theorem test_a_number_of_37_bits_is_no_command_word :
    isCommandWord 0x1000000000 = false ∧ isCommandWord 0xFFFFFFFFF = true ∧
      decodeNat 0x1000000000 = .error .notACommandWord := ⟨by decide, by decide, rfl⟩

theorem test_operand_kinds_refuse_what_does_not_fit :
    OperandKind.fits .addr 0x1000000 = false ∧ OperandKind.fits .addr 0xFFFFFF = true ∧
      OperandKind.fits .data 0x100 = false ∧ OperandKind.fits .data 0xFF = true := by decide

theorem test_a_reserved_opcode_has_no_mnemonic : operandKinds "RESERVED_0xF" = none := by decide

theorem test_text_commands_that_are_ill_formed :
    (AsmCommand.mk "WRITE_BYTE" [0x1000000, 0]).wellFormed = false ∧ (AsmCommand.mk "WRITE_BYTE" [0, 0x100]).wellFormed = false ∧
      (AsmCommand.mk "WRITE_BYTE" [0]).wellFormed = false ∧ (AsmCommand.mk "ENTER_READ" [0]).wellFormed = false ∧
      (AsmCommand.mk "NOP" []).wellFormed = false ∧ (AsmCommand.mk "WRITE_BYTE" [0xFFFFFF, 0xFF]).wellFormed = true := by decide

theorem test_timing_bounds :
    Timing.valid ⟨1, 4, 1, 20, 1000, 2⟩ = true ∧ Timing.valid ⟨4, 4, 1, 20, 1000, 2⟩ = false ∧
      Timing.valid ⟨0, 4, 1, 20, 1000, 2⟩ = false := by decide

/-! ### Decoding words written out from the table of R72 -/

/-- Each word is `op` (4 bits), `addr` (24 bits), `data` (8 bits), one group of digits each (R70). -/
theorem test_decode_words :
    decode 0b0001_000000000101010101010101_00000000#36 = .shiftAddr 0x005555 ∧
      decode 0b0010_000000000000000000000000_00000000#36 = .enterRead ∧
      decode 0b0011_000000000000000000000000_00000000#36 = .enterWrite ∧
      decode 0b0100_000000000000000000000000_10100101#36 = .setData 0xA5 ∧
      decode 0b0101_000000000000000100100011_00000000#36 = .readByte 0x000123 ∧
      decode 0b0110_000000000000000100100011_01000010#36 = .writeByte 0x000123 0x42 ∧
      decode 0b0111_000000000000000000000000_00000000#36 = .eraseChip ∧
      decode 0b1000_000000000000000000000000_00000000#36 = .opErase := by decide

theorem test_decode_words_of_the_workflow_and_reserved :
    decode 0b1001_000000000000000000000000_00000000#36 = .opVerifyErased ∧
      decode 0b1010_000000000000000000000000_00000000#36 = .opWrite ∧
      decode 0b1011_000000000000000000000000_00000000#36 = .opVerifyWritten ∧
      decode 0b1100_000000000000000000000000_00000000#36 = .opProgram ∧
      decode 0b0000_000000000000000000000000_00000000#36 = .reserved0 ∧
      decode 0b1101_000100100011010001010110_01111000#36 = .reservedD ∧
      decode 0b1110_111111111111111111111111_11111111#36 = .reservedE ∧
      decode 0b1111_000000000000000000000000_00000000#36 = .reservedF := by decide

/-- R73: only the fields of R72's column survive. -/
theorem test_unlisted_fields_zeroed :
    unlistedZeroed 0x1005555FF = 0x100555500 ∧ unlistedZeroed 0x4ABCDEF42 = 0x400000042 ∧
      unlistedZeroed 0x5ABCDEF42 = 0x5ABCDEF00 ∧ unlistedZeroed 0x6ABCDEF42 = 0x6ABCDEF42 ∧
      unlistedZeroed 0xD12345678 = 0xD00000000 := by decide

/-- V9, R73. -/
theorem test_decode_ignores_unlisted_fields :
    decode 0x1005555FF#36 = decode 0x100555500#36 ∧ decode 0x2FFFFFFFF#36 = .enterRead := by decide

theorem test_decodeTableWord : decodeTableWord 40 0x600012342 = some (.writeByte 0x000123 0x42) ∧
    decodeTableWord 40 0x1000000000 = none := by decide

/-- The word of a line, or its error. -/
def assembled (line : String) : CmdWord ⊕ AsmError :=
  match assembleLine line with
  | .ok w => .inl w
  | .error e => .inr e

/-- The four examples of R83, and its error. -/
theorem test_assemble_lines :
    assembled "WRITE_BYTE 0x000123, 0x42   ; comment" = .inl 0x600012342 ∧
      assembled "SHIFT_ADDR 0x005555" = .inl 0x100555500 ∧ assembled "SET_DATA 165" = .inl 0x4000000A5 ∧
      assembled "OP_PROGRAM" = .inl 0xC00000000 ∧ assembled "SET_DATA 0x100" = .inr .operandRange := by decide +kernel

/-- The model's choice of entry 18: an operand of R72 may not be left out. -/
theorem test_a_listed_operand_may_not_be_left_out :
    assembled "SHIFT_ADDR" = .inr .operandCount ∧ assembled "WRITE_BYTE 0x000123" = .inr .operandCount ∧
      assembled "OP_PROGRAM 0" = .inr .operandCount := by decide +kernel

/-! ### Small states -/

/-- The timing at the head of spec/95_test_vectors.md. -/
def timing : Timing := ⟨1, 4, 1, 20, 1000, 2⟩

/-- After reset, SR and Q as in V4, an erased chip. -/
def fresh : State := State.powerUp 0x123456 0x123456 ⟨[], .read, [], .overwrite⟩

/-- `fresh` in Read mode, d_out as in V11. -/
def inRead : State := { fresh with bus := ⟨.read, false, false, true, false, 0x42⟩ }

/-- `fresh` in Write mode after SET_DATA 0x55. -/
def inWrite : State := { fresh with bus := ⟨.write, false, true, true, true, 0x55⟩ }

/-- A state whose host presents a word. -/
def presenting (w : CmdWord) (s : State) : State := { s with env := { s.env with hostWords := [w] } }

/-- A state whose byte source has answers, with its chip bytes. -/
def fed (answers : List SrcAnswer) (bytes : Memory) (s : State) : State :=
  { s with chip := { s.chip with array := bytes }, env := { s.env with answers := answers } }

/-- An answer with a byte, after one cycle. -/
def byteAnswer (b : Byte) : SrcAnswer := ⟨1, 0, b⟩

/-- EOS. -/
def eosAnswer : SrcAnswer := ⟨1, 1, 0⟩

/-- IOERR. -/
def ioerrAnswer : SrcAnswer := ⟨1, 2, 0⟩

/-- `P` of the state a step answers. -/
def stepGives (s : State) (P : State → Bool) : Bool :=
  match step s with
  | .next t => P t
  | _ => false

/-- The pins `ce/oe/we/dd` and d_out. -/
def pins (s : State) : Bool × Bool × Bool × Bool × Byte := (s.bus.ceN, s.bus.oeN, s.bus.weN, s.bus.dDrive, s.bus.dOut)

/-! ### One step, one command -/

/-- V1. -/
theorem test_shift_addr : stepGives (presenting 0x100555500 fresh) (fun t =>
    t.chain == ⟨0x005555, 0x005555, false, false, false⟩ && t.rsp == ⟨.ok, 0x00⟩ && chipAddr t == 0x05555 && !t.busy) = true := by
  decide +kernel

/-- V4, rows 1, 8 and 16. -/
theorem test_shift_intermediate_states :
    (runMicros (.loadShift 0xABCDEF :: shiftBitsOps 1) fresh).chain.sr = 0x891A2B ∧
      (runMicros (.loadShift 0xABCDEF :: shiftBitsOps 8) fresh).chain.sr = 0xEF1234 ∧
      (runMicros (.loadShift 0xABCDEF :: shiftBitsOps 16) fresh).chain.sr = 0xCDEF12 ∧
      (runMicros (.loadShift 0xABCDEF :: shiftBitsOps 16) fresh).chain.q = 0x123456 := by decide +kernel

/-- V10. -/
theorem test_enter_read : stepGives (presenting 0x200000000 fresh) (fun t =>
    t.bus.mode == .read && pins t == (false, false, true, false, 0x00)) = true := by decide +kernel

/-- V11: the pins after each drive. -/
theorem test_enter_write_from_read :
    (microTrace enterWriteOps inRead).map pins =
      [(false, false, true, false, 0x42), (false, true, true, false, 0x42), (false, true, true, false, 0x42),
       (false, true, true, true, 0x00), (false, true, true, true, 0x00), (false, true, true, true, 0x00),
       (false, true, true, true, 0x00), (false, true, true, true, 0x00), (false, true, true, true, 0x00),
       (false, true, true, true, 0x00)] := by decide +kernel

/-- V13. -/
theorem test_enter_write_from_write : stepGives (presenting 0x300000000 inWrite) (fun t =>
    t.bus.mode == .write && pins t == (false, true, true, true, 0x00)) = true := by decide +kernel

/-- V14. -/
theorem test_set_data : stepGives (presenting 0x4000000A5 inWrite) (fun t =>
    pins t == (false, true, true, true, 0xA5) && t.rsp == ⟨.ok, 0x00⟩ && t.env.writeCycles == []) = true := by decide +kernel

/-- V16. -/
theorem test_set_data_in_idle : stepGives (presenting 0x400000055 fresh) (fun t =>
    t.rsp == ⟨.eNotWrite, 0x00⟩ && t.fault && t.lastStatus.code == 2 && pins t == (false, true, true, false, 0x00)) = true := by
  decide +kernel

/-- V18, and V20 of the same byte. -/
theorem test_read_byte : stepGives (presenting 0x508012300 (fed [] [(0x123, 0x42)] inRead)) (fun t =>
    t.rsp == ⟨.ok, 0x42⟩ && t.chain.q == 0x080123) = true := by decide +kernel

/-- V19. -/
theorem test_read_byte_in_write : stepGives (presenting 0x500012300 inWrite) (fun t =>
    t.rsp == ⟨.eNotRead, 0x00⟩ && t.fault && t.chain.q == 0x123456) = true := by decide +kernel

/-- V30, the newest write cycle first. -/
theorem test_write_byte : stepGives (presenting 0x60123455A inWrite) (fun t =>
    t.env.writeCycles == [(0x12345, 0x5A), (0x05555, 0xA0), (0x02AAA, 0x55), (0x05555, 0xAA)] &&
      t.chip.array == [(0x12345, 0x5A)] && t.chip.cstate == .read && pins t == (true, true, true, true, 0x5A) &&
      t.chain.q == 0x012345) = true := by decide +kernel

/-- V32's second part. -/
theorem test_write_byte_and_mask :
    stepGives (presenting 0x60000000F { fresh with chip := ⟨[(0, 0xF0)], .read, [], .andMask⟩ }) (fun t =>
      memRead t.chip.array 0 == 0x00 && t.bus.mode == .write) = true := by decide +kernel

/-- V33. -/
theorem test_erase_chip : stepGives (presenting 0x700000000 (fed [] [(5, 0x00)] inRead)) (fun t =>
    t.env.writeCycles == [(0x05555, 0x10), (0x02AAA, 0x55), (0x05555, 0xAA), (0x05555, 0x80), (0x02AAA, 0x55), (0x05555, 0xAA)] &&
      t.chip.array == [] && t.orch.phase == .idle && t.env.sink == [] && pins t == (true, true, true, true, 0x10) &&
      t.chain.q == 0x005555) = true := by decide +kernel

/-- V51. -/
theorem test_op_erase : stepGives (presenting 0x800000000 { fed [] [(5, 0x00)] inRead with orch := ⟨.failed, 1, 3⟩ }) (fun t =>
    t.env.sink == [⟨.phaseDone, .erasing, 0, 0, 0, 0⟩, ⟨.phaseStart, .erasing, 0, 0, 0, 0⟩] && t.chip.array == [] &&
      t.orch == ⟨.idle, 0, 0⟩ && t.rsp == ⟨.ok, 0x00⟩) = true := by decide +kernel

/-- V50's second part: the last two turns of the scan. -/
theorem test_op_verify_erased_last_turns :
    (match runScanErased 2 { fed [] [(0x7FFFF, 0x00)] inRead with
        orch := ⟨.verifyingErased, 0, 0x7FFFE⟩, hidden := ⟨0, 0, 0, 0x7FFFE, 0⟩ } with
      | .goOn t => t.env.sink == [⟨.mismatch, .verifyingErased, 0x7FFFF, 0xFF, 0x00, 1⟩] &&
          t.orch == ⟨.verifyingErased, 1, 0x80000⟩ && t.chain.q == 0x07FFFF
      | .stop _ => false) = true := by decide +kernel

/-- V43. -/
theorem test_op_write_empty : stepGives (presenting 0xA00000000 (fed [eosAnswer] [] fresh)) (fun t =>
    t.env.sink == [⟨.phaseDone, .writing, 0, 0, 0, 0⟩, ⟨.phaseStart, .writing, 0, 0, 0, 0⟩] && t.rsp == ⟨.ok, 0x00⟩ &&
      t.orch.resNext == 0 && t.bus.mode == .write && t.env.writeCycles == []) = true := by decide +kernel

/-- V46. -/
theorem test_op_write_ioerr : stepGives (presenting 0xA00000000 (fed [byteAnswer 0x11, ioerrAnswer] [] fresh)) (fun t =>
    t.env.answers == [] && t.chip.array == [(0, 0x11)] &&
      t.env.sink == [⟨.fail, .writing, 1, 0, 0, 0⟩, ⟨.phaseStart, .writing, 0, 0, 0, 0⟩] && t.rsp == ⟨.eIo, 0x00⟩ &&
      t.orch == ⟨.failed, 0, 1⟩ && !t.fault && t.lastStatus.code == 1) = true := by decide +kernel

/-- V48. -/
theorem test_op_verify_written :
    stepGives (presenting 0xB00000000 (fed [byteAnswer 0x11, byteAnswer 0x22, byteAnswer 0x33, eosAnswer]
      [(0, 0x11), (1, 0x20), (2, 0x33)] fresh)) (fun t =>
      t.env.sink == [⟨.phaseDone, .verifyingWritten, 3, 0, 0, 1⟩, ⟨.mismatch, .verifyingWritten, 1, 0x22, 0x20, 1⟩,
        ⟨.phaseStart, .verifyingWritten, 0, 0, 0, 0⟩] && t.rsp == ⟨.ok, 0x00⟩ && t.chain.q == 0x000002 && !t.fault) = true := by
  decide +kernel

/-- V49, with the kind 3 that R78 takes as IOERR. -/
theorem test_op_verify_written_ioerr : stepGives (presenting 0xB00000000 (fed [⟨0, 3, 0⟩] [] fresh)) (fun t =>
    t.env.sink == [⟨.fail, .verifyingWritten, 0, 0, 0, 0⟩, ⟨.phaseStart, .verifyingWritten, 0, 0, 0, 0⟩] &&
      t.rsp == ⟨.eIo, 0x00⟩ && t.orch.phase == .failed && t.bus.mode == .read) = true := by decide +kernel

/-- R124: the phases of OP_PROGRAM in their order. -/
theorem test_op_program_order :
    progOpProgram.filter (fun i => match i with | .beginPhase _ => true | _ => false) =
      [.beginPhase .erasing, .beginPhase .verifyingErased, .beginPhase .writing, .beginPhase .verifyingWritten] := by decide

/-- V54. -/
theorem test_reserved_opcodes :
    ([0x000000000#36, 0xD12345678#36, 0xEFFFFFFFF#36, 0xF00000000#36].all fun w =>
      stepGives (presenting w inRead) (fun t =>
        t.rsp == ⟨.eIllegalOp, 0x00⟩ && t.fault && t.lastStatus.code == 4 && t.bus == inRead.bus && t.chain == inRead.chain)) =
      true := by decide +kernel

/-- V47: the next command leaves Failed. -/
theorem test_next_command_leaves_failed :
    stepGives (presenting 0x200000000 { inWrite with orch := ⟨.failed, 0, 1⟩ }) (fun t =>
      t.orch == ⟨.idle, 0, 1⟩ && t.rsp == ⟨.ok, 0x00⟩) = true := by decide +kernel

/-! ### Reset, the chip, timing -/

/-- A write transaction in its strobe, after one reset edge was asked for; the chip is in U1 (V61). -/
def inStrobe : State :=
  { fresh with
    bus := ⟨.write, false, true, false, true, 0x55⟩
    chain := ⟨0x002AAA, 0x002AAA, false, false, false⟩
    busy := true
    seq := [.micro (.wait .wp)]
    chip := ⟨[], .u1, [], .overwrite⟩
    env := { Env.quiet with rstEdges := 1 } }

/-- V61: the chip takes (0x02AAA, 0x55) and is armed in U2; V60: the pins. -/
theorem test_reset_in_the_strobe : stepGives inStrobe (fun t =>
    t.chip.cstate == .u2 && t.chip.armed && pins t == (false, true, true, false, 0x00) && t.chain.q == 0x002AAA && !t.busy) = true := by
  decide +kernel

/-- V35. -/
theorem test_broken_sequences :
    CState.next .read 0x02AAA 0x55 = .read ∧ CState.next .u1 0x05555 0xAA = .read ∧ CState.next .u2 0x05555 0x90 = .read := by
  decide

/-- V21. -/
theorem test_stuck_byte : Chip.output ⟨[(0x10, 0x55)], .read, [(0x10, 0x7F)], .overwrite⟩ 0x00010 = 0x7F := by decide

/-- V40. -/
theorem test_comparator :
    comparator 0xFF 0xFF = false ∧ comparator 0xFF 0xFE = true ∧ comparator 0x00 0x80 = true ∧ comparator 0xA5 0x5A = true ∧
      comparator 0x42 0x42 = false := by decide

/-- V7, V30, V33, and the example of R167. -/
theorem test_cycle_counts :
    opsCycles timing (shiftOps 0) = 148 ∧ opsCycles timing (txnOps 0x005555 0xAA) = 181 ∧
      opsCycles timing (writeByteOps 0x012345 0x5A) = 724 ∧ opsCycles timing enterWriteOps = 11 ∧
      opsCycles timing enterReadOps = 9 := by decide +kernel

/-- Writing keeps the canonical form: the erased value removes the entry. -/
theorem test_memory_canonical :
    memWrite [(3, 0x01), (7, 0x02)] 5 0x09 = [(3, 0x01), (5, 0x09), (7, 0x02)] ∧
      memWrite [(3, 0x01), (7, 0x02)] 3 0xFF = [(7, 0x02)] ∧ Memory.wf [(3, 0x01), (7, 0x02)] = true ∧
      Memory.wf [(7, 0x02), (3, 0x01)] = false ∧ Memory.wf [(3, 0xFF)] = false ∧ Memory.wf [(0x80000, 0x01)] = false ∧
      State.reset.chip.array.wf = true := by decide

/-! ### Witnesses: a state and operands that meet all the hypotheses of an obligation -/

/-- A block waiting for the first byte of OP_WRITE. -/
def waiting : State :=
  { inWrite with
    busy := true
    srcReq := true
    orch := ⟨.writing, 0, 0⟩
    seq := .reqByte .write :: .endPhase .writing :: operationDone }

/-- A block at the head of a wait. -/
def atWait : State := { inWrite with busy := true, seq := [.micro (.wait .dir), .respond .ok 0x00] }

theorem reachable_run (T : Timing) (n : Nat) (s : State) (h : Reachable T s) : Reachable T (microRun T n s) := by
  induction n generalizing s with
  | zero => exact h
  | succ n ih => exact ih _ (.micro s h)

/-- Power-up, the word ENTER_WRITE presented. -/
def entering : State := envMove (.present 0x300000000) (State.powerUp 5 6 ⟨[], .read, [], .overwrite⟩)

theorem entering_reachable : Reachable timing entering := .outside _ _ (.powerUp 5 6 _)

theorem fresh_inv : Inv fresh :=
  ⟨⟨rfl, rfl⟩, rfl, rfl, rfl, rfl, fun _ => ⟨rfl, rfl, rfl, .inl rfl⟩, fun h => nomatch h⟩

theorem presenting_inv (w : CmdWord) : Inv (presenting w fresh) :=
  ⟨⟨rfl, rfl⟩, rfl, rfl, rfl, rfl, fun _ => ⟨rfl, rfl, rfl, .inl rfl⟩, fun h => nomatch h⟩

theorem waiting_inv : Inv waiting :=
  ⟨⟨rfl, rfl⟩, rfl, rfl, rfl, rfl, fun h => absurd h (by decide),
    fun _ => ⟨.write, .endPhase .writing :: operationDone, by simp [waitingRests], rfl, rfl, rfl, rfl, by decide, rfl,
      fun _ => rfl⟩⟩

theorem taken_short : StreamTaken [byteAnswer 0x11, eosAnswer, ioerrAnswer] [0x11] [ioerrAnswer] :=
  ⟨by decide, [byteAnswer 0x11, eosAnswer], rfl, rfl⟩

theorem taken_empty : StreamTaken [eosAnswer] [] [] := ⟨by decide, [eosAnswer], rfl, rfl⟩

/-- A stream of exactly MAX_ADDRESS bytes needs no EOS (R126). -/
theorem taken_full (left : List SrcAnswer) :
    StreamTaken (List.replicate maxAddress (byteAnswer 0x11) ++ left) (List.replicate maxAddress 0x11) left := by
  refine ⟨Nat.le_of_eq List.length_replicate, List.replicate maxAddress (byteAnswer 0x11), rfl, ?_⟩
  rw [List.length_replicate, if_pos rfl, List.append_nil, List.map_replicate, List.map_replicate]
  rfl

theorem witness_EveryWordSelectsItsOpcodeRow :
    (Instr.setData 0x42).opcode = opField 0x4ABCDEF42 ∧ (Instr.setData 0x42).addrBits = (decode 0x4ABCDEF42).addrBits ∧
      (Instr.setData 0x42).dataBits = (decode 0x4ABCDEF42).dataBits := by decide

theorem witness_UnlistedFieldsAreIgnored : ∃ t, exec .enterRead fresh = .next t := ⟨_, rfl⟩

theorem witness_AssemblyAcceptsExactlyWellFormedCommands :
    (AsmCommand.mk "SHIFT_ADDR" [0xFFFFFF]).wellFormed = true ∧ (AsmCommand.mk "SHIFT_ADDR" [0x1000000]).wellFormed = false := by
  decide

theorem witness_OperandOutOfRangeIsAnError : 0xFFFFFF < 0x1000000 ∧ 0xFF < 0x100 := by decide

theorem witness_StepRunsTheDecodedCommand :
    (presenting 0x200000000 fresh).safetyFault = false ∧ contention (presenting 0x200000000 fresh) = false ∧
      (presenting 0x200000000 fresh).env.rstEdges = 0 ∧ (presenting 0x200000000 fresh).busy = false ∧
      (presenting 0x200000000 fresh).env.hostWords = [0x200000000] := by decide

theorem witness_LatchHoldsUntilNextAcceptance :
    (waiting.env.rstEdges = 0 ∧ waiting.busy = true) ∧ (fresh.env.rstEdges = 0 ∧ fresh.env.hostWords = []) := by decide

theorem witness_BusyBlockIgnoresTheCommandPort : waiting.busy = true := rfl

theorem witness_ResetEdgeGivesTheResetValues :
    (envMove (.holdReset 1) waiting).safetyFault = false ∧ contention (envMove (.holdReset 1) waiting) = false ∧
      (envMove (.holdReset 1) waiting).env.rstEdges ≠ 0 ∧ (envMove (.holdReset 1) waiting).bus.weN = true := by decide

theorem witness_ResetDuringStrobeIsAWriteCycle :
    inStrobe.safetyFault = false ∧ inStrobe.env.rstEdges ≠ 0 ∧ inStrobe.bus.weN = false ∧ inStrobe.bus.ceN = false ∧
      inStrobe.bus.oeN = true ∧ inStrobe.bus.dDrive = true := by decide

theorem witness_ReadyBlockIdles :
    fresh.safetyFault = false ∧ contention fresh = false ∧ cmdReady fresh = true ∧ fresh.env.hostWords = [] := by decide

theorem witness_UnansweredRequestWaitsForever :
    waiting.safetyFault = false ∧ contention waiting = false ∧ waiting.pulses = ⟨false, false⟩ ∧ stuckOnSource waiting = true := by
  decide

theorem witness_ShiftLeavesItsValueInTheChain : fresh.chain.atRest = true ∧ 0 ≤ 24 ∧ 24 ≤ 24 := by decide

theorem witness_LatchIsAtomic : fresh.chain.atRest = true := rfl

theorem witness_ShiftAddrLatchesItsAddress : inRead.chain.atRest = true ∧ inWrite.chain.atRest = true := by decide

theorem witness_EnterWriteGivesWriteMode :
    fresh.bus.settled = true ∧ inRead.bus.settled = true ∧ inWrite.bus.settled = true := by decide

theorem witness_SetDataDrivesItsByte : inWrite.bus.settled = true ∧ inWrite.bus.mode = .write := by decide

theorem witness_SetDataOutsideWriteModeIsRefused : fresh.bus.mode ≠ .write ∧ inRead.bus.mode ≠ .write := by decide

theorem witness_ReadByteReturnsTheChipsByte : Ready inRead ∧ inRead.bus.mode = .read := ⟨⟨rfl, rfl⟩, rfl⟩

theorem witness_ReadByteOutsideReadModeIsRefused : fresh.bus.mode ≠ .read ∧ inWrite.bus.mode ≠ .read := by decide

/-- Four micro-steps into ENTER_WRITE the next one turns the data lines to output. -/
theorem witness_DirectionChangesOnlyInModeTransitions :
    Reachable timing (microRun timing 4 entering) ∧
      (microStep timing (microRun timing 4 entering)).bus.dDrive ≠ (microRun timing 4 entering).bus.dDrive ∧
      (microRun timing 4 entering).env.rstEdges = 0 :=
  ⟨reachable_run _ _ _ entering_reachable, by decide +kernel, by decide +kernel⟩

theorem witness_NoContentionInAnyCycle : Reachable timing (microRun timing 4 entering) :=
  reachable_run _ _ _ entering_reachable

theorem witness_EnsureWriteEntersWriteModeOnce :
    (inWrite.bus.settled = true ∧ inWrite.bus.mode = .write) ∧ (inRead.bus.settled = true ∧ inRead.bus.mode ≠ .write) := by decide

theorem witness_StrobeSeesAddressAndDataStable : Ready inWrite ∧ inWrite.bus.mode = .write := ⟨⟨rfl, rfl⟩, rfl⟩

theorem witness_SequencesHaveNoInterruptionPoint :
    inWrite.bus.mode = .write ∧ inWrite ∈ microTrace (writeByteOps 0 0) inWrite ++ microTrace eraseChipOps inWrite := by
  refine ⟨rfl, ?_⟩
  rw [writeByteOps, programPairs, unlockPairs, List.cons_append, replayOps, microTrace, List.cons_append]
  exact List.mem_cons_self ..

theorem witness_WriteByteSendsItsFourPairs : Ready fresh ∧ Ready inRead ∧ Ready inWrite :=
  ⟨⟨rfl, rfl⟩, ⟨rfl, rfl⟩, ⟨rfl, rfl⟩⟩

theorem witness_WriteByteProgramsOnlyItsByte :
    Ready inRead ∧ inRead.chip.cstate = .read ∧ inRead.chip.array.wf = true ∧ (0x12346 : ChipAddr) ≠ (0x012345 : Addr).extractLsb' 0 19 :=
  ⟨⟨rfl, rfl⟩, rfl, rfl, by decide⟩

theorem witness_EraseChipSendsItsSixPairs : Ready inRead := ⟨rfl, rfl⟩

theorem witness_EraseChipErasesEveryByte : Ready inRead ∧ inRead.chip.cstate = .read := ⟨⟨rfl, rfl⟩, rfl⟩

theorem witness_SequencesObserveNothingOfTheChip :
    Ready inRead ∧ (∃ t, exec .eraseChip inRead = .next t) ∧ (∃ t, exec .opErase inRead = .next t) ∧
      ∃ t, exec (.writeByte 0 0) inRead = .next t := ⟨⟨rfl, rfl⟩, ⟨_, rfl⟩, ⟨_, rfl⟩, ⟨_, rfl⟩⟩

theorem witness_WrittenByteReadsBack :
    Ready fresh ∧ fresh.chip.cstate = .read ∧ fresh.chip.array.wf = true ∧ fresh.chip.progMode = .overwrite ∧
      stuckAt fresh.chip.stuck ((0x080123 : Addr).extractLsb' 0 19) = none := ⟨⟨rfl, rfl⟩, rfl, rfl, rfl, rfl⟩

theorem witness_RecordCountsAndEmitsEachMismatch : (0x42 : Byte) = 0x42 ∧ (0xFE : Byte) ≠ 0xFF := by decide

theorem witness_OpEraseErasesAsAPhase : Ready inRead := ⟨rfl, rfl⟩

theorem witness_OpVerifyErasedCountsEveryMismatch : Ready inWrite ∧ inWrite.srcReq = false := ⟨⟨rfl, rfl⟩, rfl⟩

theorem witness_MismatchCountNeverWraps :
    Ready inWrite ∧ Ready (fed (List.replicate maxAddress (byteAnswer 0x11)) [] fresh) ∧
      StreamTaken (fed (List.replicate maxAddress (byteAnswer 0x11)) [] fresh).env.answers (List.replicate maxAddress 0x11) [] ∧
      Ready (fed [eosAnswer] [] fresh) ∧ StreamTaken (fed [eosAnswer] [] fresh).env.answers [] [] :=
  ⟨⟨rfl, rfl⟩, ⟨rfl, rfl⟩, by simpa [fed] using taken_full [], ⟨rfl, rfl⟩, taken_empty⟩

/-- A state whose answers are a stream that is taken. -/
theorem witness_OpWriteWritesTheStream :
    Ready (fed [byteAnswer 0x11, eosAnswer, ioerrAnswer] [] fresh) ∧
      (fed [byteAnswer 0x11, eosAnswer, ioerrAnswer] [] fresh).srcReq = false ∧
      StreamTaken (fed [byteAnswer 0x11, eosAnswer, ioerrAnswer] [] fresh).env.answers [0x11] [ioerrAnswer] ∧
      StreamTaken (fed [eosAnswer] [] fresh).env.answers [] [] ∧
      StreamTaken (fed (List.replicate maxAddress (byteAnswer 0x11) ++ [ioerrAnswer]) [] fresh).env.answers
        (List.replicate maxAddress 0x11) [ioerrAnswer] :=
  ⟨⟨rfl, rfl⟩, rfl, taken_short, taken_empty, taken_full _⟩

theorem witness_OpWriteProgramsExactlyTheStream :
    Ready (fed [byteAnswer 0x11, eosAnswer, ioerrAnswer] [(0, 0xF0)] inRead) ∧
      StreamTaken (fed [byteAnswer 0x11, eosAnswer, ioerrAnswer] [(0, 0xF0)] inRead).env.answers [0x11] [ioerrAnswer] ∧
      (fed [byteAnswer 0x11, eosAnswer, ioerrAnswer] [(0, 0xF0)] inRead).chip.cstate = .read ∧
      (fed [byteAnswer 0x11, eosAnswer, ioerrAnswer] [(0, 0xF0)] inRead).chip.array.wf = true :=
  ⟨⟨rfl, rfl⟩, taken_short, rfl, rfl⟩

theorem witness_OpVerifyWrittenComparesTheStream :
    Ready (fed [eosAnswer] [(0, 0xF0)] inWrite) ∧ (fed [eosAnswer] [(0, 0xF0)] inWrite).srcReq = false ∧
      StreamTaken (fed [eosAnswer] [(0, 0xF0)] inWrite).env.answers [] [] := ⟨⟨rfl, rfl⟩, rfl, taken_empty⟩

theorem witness_SourceErrorAbortsThePhase :
    Ready (fed [byteAnswer 0x11, ioerrAnswer] [] fresh) ∧ (fed [byteAnswer 0x11, ioerrAnswer] [] fresh).srcReq = false ∧
      StreamFails (fed [byteAnswer 0x11, ioerrAnswer] [] fresh).env.answers [0x11] [] ∧
      StreamFails (fed [⟨0, 3, 0⟩] [] fresh).env.answers [] [] ∧
      StreamTaken (fed [eosAnswer, byteAnswer 0x11, ioerrAnswer] [] fresh).env.answers [] [byteAnswer 0x11, ioerrAnswer] ∧
      StreamFails [byteAnswer 0x11, ioerrAnswer] [0x11] [] :=
  ⟨⟨rfl, rfl⟩, rfl, ⟨by decide, [byteAnswer 0x11, ioerrAnswer], rfl, rfl⟩, ⟨by decide, [⟨0, 3, 0⟩], rfl, rfl⟩,
    ⟨by decide, [eosAnswer], rfl, rfl⟩, ⟨by decide, [byteAnswer 0x11, ioerrAnswer], rfl, rfl⟩⟩

theorem witness_SilentSourceLeavesTheOperationWaiting :
    Ready (fed [byteAnswer 0x11] [] { fresh with busy := true }) ∧ (fed [byteAnswer 0x11] [] { fresh with busy := true }).busy = true ∧
      StreamStalls (fed [byteAnswer 0x11] [] { fresh with busy := true }).env.answers [0x11] ∧
      StreamStalls (fed [] [] { fresh with busy := true }).env.answers [] ∧
      StreamTaken (fed [byteAnswer 0x11, eosAnswer, byteAnswer 0x11] [] { fresh with busy := true }).env.answers [0x11]
        [byteAnswer 0x11] ∧
      StreamStalls [byteAnswer 0x11] [0x11] :=
  ⟨⟨rfl, rfl⟩, rfl, ⟨by decide, rfl⟩, ⟨by decide, rfl⟩, ⟨by decide, [byteAnswer 0x11, eosAnswer], rfl, rfl⟩, ⟨by decide, rfl⟩⟩

theorem witness_OpProgramRunsTheFourPhases :
    Ready (fed [byteAnswer 0xDE, eosAnswer, byteAnswer 0xDE, eosAnswer] [] fresh) ∧
      (fed [byteAnswer 0xDE, eosAnswer, byteAnswer 0xDE, eosAnswer] [] fresh).srcReq = false ∧
      StreamTaken (fed [byteAnswer 0xDE, eosAnswer, byteAnswer 0xDE, eosAnswer] [] fresh).env.answers [0xDE]
        [byteAnswer 0xDE, eosAnswer] ∧
      StreamTaken [byteAnswer 0xDE, eosAnswer] [0xDE] [] :=
  ⟨⟨rfl, rfl⟩, rfl, ⟨by decide, [byteAnswer 0xDE, eosAnswer], rfl, rfl⟩, ⟨by decide, [byteAnswer 0xDE, eosAnswer], rfl, rfl⟩⟩

theorem witness_ErasedChipVerifiesClean :
    Ready (fed [] [(5, 0x00)] fresh) ∧ (fed [] [(5, 0x00)] fresh).srcReq = false ∧
      (fed [] [(5, 0x00)] fresh).chip.cstate = .read ∧ (fed [] [(5, 0x00)] fresh).chip.stuck = [] := ⟨⟨rfl, rfl⟩, rfl, rfl, rfl⟩

theorem witness_LastAddressIsOneBelowTheNext :
    Ready (fed [byteAnswer 0x11, eosAnswer, ioerrAnswer] [] inRead) ∧
      StreamTaken (fed [byteAnswer 0x11, eosAnswer, ioerrAnswer] [] inRead).env.answers [0x11] [ioerrAnswer] ∧
      StreamTaken (fed [eosAnswer] [] inRead).env.answers [] [] := ⟨⟨rfl, rfl⟩, taken_short, taken_empty⟩

theorem witness_ReservedOpcodesAreIllegal :
    opField 0xD12345678 = 0xD ∧ Instr.legal .reserved0 = false ∧ Instr.legal .reservedD = false ∧
      Instr.legal .reservedE = false ∧ Instr.legal .reservedF = false := by decide

theorem witness_FaultIsStickyAndOnlyErrorsSetIt :
    fresh.env.rstEdges = 0 ∧ ({ fresh with fault := true } : State).fault = true ∧
      (microStep timing { fresh with busy := true, seq := [.raiseErr .eIllegalOp] }).fault = true := by decide +kernel

/-- Power-up; OP_WRITE of an empty stream, OP_WRITE with an IOERR, then ENTER_READ are presented. -/
def threeCommands : State :=
  envMove (.present 0x200000000) (envMove (.present 0xA00000000) (envMove (.present 0xA00000000)
    (envMove (.answer ioerrAnswer) (envMove (.answer eosAnswer) (State.powerUp 5 6 ⟨[], .read, [], .overwrite⟩)))))

theorem threeCommands_reachable : Reachable timing threeCommands :=
  .outside _ _ (.outside _ _ (.outside _ _ (.outside _ _ (.outside _ _ (.powerUp 5 6 _)))))

/-- PHASE before and after the micro-step that follows `n` of them from `threeCommands`. -/
def phasesAt (n : Nat) : Phase × Phase :=
  ((microRun timing n threeCommands).orch.phase, (microRun timing (n + 1) threeCommands).orch.phase)

/-- PHASE changes at `beginPhase`, at the last PHASE write, at the write of an abort, and at an acceptance, in reachable states. -/
theorem witness_PhaseChangesOnlyAsTheTableSays :
    (∀ n, Reachable timing (microRun timing n threeCommands)) ∧
      phasesAt 1 = (.idle, .writing) ∧ phasesAt 21 = (.writing, .idle) ∧ phasesAt 46 = (.writing, .failed) ∧
        phasesAt 49 = (.failed, .idle) :=
  ⟨fun n => reachable_run _ n _ threeCommands_reachable, by decide +kernel, by decide +kernel, by decide +kernel, by decide +kernel⟩

/-- PHASE changes at a reset edge in a reachable state, and a command of each end of the two ranges answers a next state. -/
theorem witness_PhaseChangesOnlyAsTheTableSays_reset_and_commands :
    Reachable timing (envMove (.holdReset 1) (microRun timing 2 threeCommands)) ∧
      (envMove (.holdReset 1) (microRun timing 2 threeCommands)).env.rstEdges ≠ 0 ∧
      (microRun timing 2 threeCommands).orch.phase ≠ .idle ∧
      ((Instr.eraseChip.opcode.toNat < 0x8) ∧ ∃ t, exec .eraseChip fresh = .next t) ∧
      ((0xC < Instr.reservedD.opcode.toNat) ∧ ∃ t, exec .reservedD fresh = .next t) :=
  ⟨.outside _ _ (reachable_run _ _ _ threeCommands_reachable), by decide, by decide +kernel, ⟨by decide, _, rfl⟩, ⟨by decide, _, rfl⟩⟩

theorem witness_EveryStepIsARunOfMicroSteps :
    timing.valid = true ∧ Inv (presenting 0x200000000 fresh) ∧ (∃ t, step (presenting 0x200000000 fresh) = .next t) ∧ Inv waiting ∧
      ∃ t, step waiting = .next t := ⟨rfl, presenting_inv _, ⟨_, rfl⟩, waiting_inv, ⟨_, rfl⟩⟩

theorem witness_WaitHoldsEveryOutputForItsCycles :
    timing.valid = true ∧ atWait.safetyFault = false ∧ contention atWait = false ∧ atWait.env.rstEdges = 0 ∧ atWait.busy = true ∧
      atWait.seq = [.micro (.wait .dir), .respond .ok 0x00] ∧ 0 < 1 ∧ 3 < timing.cycles .dir := by decide

/-- A busy block at the micro-operations of SET_DATA in Write mode, and one at a `readByte` in Read mode. -/
theorem witness_MicroStepsTakeTheCountedCycles :
    (timing.valid = true ∧ inWrite.safetyFault = false ∧ inWrite.env.rstEdges = 0 ∧
      ({ inWrite with busy := true, seq := microItems (setDataOps 0xA5) ++ okResponse } : State).busy = true ∧
      MicroOp.waiting ∉ setDataOps 0xA5 ∧
      ∀ t ∈ microTrace (setDataOps 0xA5) { inWrite with busy := true, seq := microItems (setDataOps 0xA5) ++ okResponse },
        contention t = false) ∧
      (inRead.safetyFault = false ∧ inRead.env.rstEdges = 0 ∧
        Ready ({ inRead with busy := true, seq := readByteItems 0x000123 .toHost ++ [] } : State) ∧ inRead.bus.mode = .read) :=
  ⟨⟨rfl, rfl, rfl, rfl, by decide, by decide⟩, rfl, rfl, ⟨rfl, rfl⟩, rfl⟩

theorem witness_ShiftAddrRespondsInItsCycle :
    timing.valid = true ∧ Inv (presenting 0x100555500 fresh) ∧ (presenting 0x100555500 fresh).env.rstEdges = 0 ∧
      (presenting 0x100555500 fresh).busy = false ∧
      (presenting 0x100555500 fresh).env.hostWords = [encode (.shiftAddr 0x005555)] :=
  ⟨rfl, presenting_inv _, rfl, rfl, by decide⟩

theorem witness_PowerUpMeetsTheInvariant : Memory.wf [(3, 0x01), (0x7FFFF, 0x00)] = true := by decide

theorem witness_MachineInvariantKeptByEveryStep : Inv fresh ∧ Inv waiting := ⟨fresh_inv, waiting_inv⟩

theorem witness_EveryMicroStepKeepsTheArrayCanonical : inStrobe.chip.array.wf = true := rfl

end Sys2Proof.Tests
end

section
/-! PROOFS. The cycle counts of R167, operation by operation (O54). -/

namespace Sys2Proof.Machine

open Sys2Proof.Config

/-- One turn of the bit loop takes three drives and three settling waits (R85). -/
theorem opsCycles_shiftBits (T : Timing) (n : Nat) : opsCycles T (shiftBitsOps n) = n * (3 + 3 * T.tSettle) := by
  induction n with
  | zero => simp [shiftBitsOps, opsCycles]
  | succ n ih =>
    have hbit : opsCycles T shiftBitOps = 3 + 3 * T.tSettle := by
      simp [shiftBitOps, driveWait, opsCycles, MicroOp.timed, Timing.cycles]; omega
    rw [shiftBitsOps, opsCycles_append, hbit, ih, Nat.add_one_mul n, Nat.add_comm]

theorem opsCycles_shift (T : Timing) (v : Addr) : opsCycles T (shiftOps v) = 74 + 74 * T.tSettle := by
  have hlatch : opsCycles T latchOps = 2 + 2 * T.tSettle := by
    simp [latchOps, driveWait, opsCycles, MicroOp.timed, Timing.cycles]; omega
  simp only [shiftOps, opsCycles, opsCycles_append, opsCycles_shiftBits, hlatch, MicroOp.timed, srBits]
  simp
  omega

theorem opsCycles_enterRead (T : Timing) : opsCycles T enterReadOps = 3 + T.tDir + 2 * T.tSettle := by
  simp [enterReadOps, driveWait, opsCycles, MicroOp.timed, Timing.cycles]; omega

theorem opsCycles_enterWrite (T : Timing) : opsCycles T enterWriteOps = 4 + T.tDir + 3 * T.tSettle := by
  simp [enterWriteOps, driveWait, opsCycles, MicroOp.timed, Timing.cycles]; omega

theorem opsCycles_txn (T : Timing) (a : Addr) (b : Byte) :
    opsCycles T (txnOps a b) = 81 + 79 * T.tSettle + T.tWp + T.tBp := by
  simp [txnOps, driveWait, opsCycles_append, opsCycles_shift, opsCycles, MicroOp.timed, Timing.cycles]; omega

/-- A sequence takes the cycles of its transactions: the index between them takes none (R82). -/
theorem opsCycles_replay (T : Timing) (k : BitVec 3) (ps : List (Addr × Byte)) :
    opsCycles T (replayOps k ps) = ps.length * (81 + 79 * T.tSettle + T.tWp + T.tBp) := by
  induction ps generalizing k with
  | nil => simp [replayOps, opsCycles, MicroOp.timed]
  | cons p ps ih =>
    rw [replayOps, opsCycles, opsCycles_append, opsCycles_txn, ih, List.length_cons, Nat.add_one_mul ps.length]
    · simp [MicroOp.timed]; omega
    · nofun

/-- Settles O54: each operation list counted by the lists it is made of. -/
theorem operationsTakeTheirCycles : Obligations.OperationsTakeTheirCycles := by
  intro T v b
  refine ⟨opsCycles_shift T v, opsCycles_enterRead T, opsCycles_enterWrite T, ?_, ?_, opsCycles_txn T v b, ?_, ?_⟩
  · simp [setDataOps, opsCycles, MicroOp.timed, Timing.cycles]
  · simp [opsCycles_append, opsCycles_shift, opsCycles, Timing.cycles]; omega
  · simp [writeByteOps, opsCycles_replay, programPairs, unlockPairs]; omega
  · simp [eraseChipOps, opsCycles_append, opsCycles_replay, erasePairs, opsCycles, Timing.cycles]; omega

end Sys2Proof.Machine
end

section
/-! PROOFS. RES_COUNT does not wrap: a scan of at most MAX_ADDRESS bytes counts at most MAX_ADDRESS mismatches, one for each MISMATCH
event (O41). -/

namespace Sys2Proof.Machine

open Sys2Proof.Config

theorem mismatches_le (c : Chip) (i : Count) (es : List Byte) : mismatches c i es ≤ es.length := by
  induction es generalizing i with
  | nil => exact Nat.le_refl 0
  | cons e es ih =>
    have := ih (i + 1)
    rw [mismatches, List.length_cons]
    split <;> omega

/-- A scan emits one event for each byte that differs (R129). -/
theorem scanEvents_length (p : Phase) (c : Chip) (i n : Count) (es : List Byte) :
    (scanEvents p c i n es).length = mismatches c i es := by
  induction es generalizing i n with
  | nil => rfl
  | cons e es ih =>
    simp only [scanEvents, mismatches]
    split <;> simp [ih, Nat.add_comm]

theorem scanEvents_kind (p : Phase) (c : Chip) (i n : Count) (es : List Byte) :
    ∀ e ∈ scanEvents p c i n es, e.kind = .mismatch := by
  induction es generalizing i n with
  | nil => nofun
  | cons e es ih =>
    simp only [scanEvents]
    split
    · exact ih _ _
    · simpa using ih _ _

/-- The state in which a workflow operation that ended with the phase `p` leaves `t`, the phase's body run (R114, R120 to R124). -/
def phaseEnded (p : Phase) (t : State) : State := responded .ok 0 (setPhase .idle (endPhase p t))

/-- RES_COUNT, as a number, counts what differed and what was emitted (R32, R132). -/
structure CountExact (es : List Byte) (s t : State) : Prop where
  count : t.orch.resCount.toNat = mismatches s.chip 0 es
  bounded : t.orch.resCount.toNat ≤ es.length
  events : ∃ evs : List Event, t.env.sink = evs ++ s.env.sink ∧
    (evs.filter fun e => e.kind = .mismatch).length = t.orch.resCount.toNat

theorem VerifyDone.countExact {p : Phase} {es : List Byte} {s t : State} (h : VerifyDone p es s t) (hl : es.length ≤ maxAddress) :
    CountExact es s (phaseEnded p t) := by
  have hle := mismatches_le s.chip 0 es
  have hmax : maxAddress < 2 ^ 20 := by decide
  have hc : (phaseEnded p t).orch.resCount.toNat = mismatches s.chip 0 es := by
    show t.orch.resCount.toNat = _
    rw [h.orch]
    exact (BitVec.toNat_ofNat _ _).trans (Nat.mod_eq_of_lt (by omega))
  refine ⟨hc, Nat.le_trans (Nat.le_of_eq hc) hle,
    doneEvent p t.orch.resNext t.orch.resCount :: ((scanEvents p s.chip 0 0 es).reverse ++ [startEvent p]), ?_, ?_⟩
  · show doneEvent p t.orch.resNext t.orch.resCount :: t.env.sink = _
    rw [h.sink]
    simp
  · have hall := scanEvents_kind p s.chip 0 0 es
    rw [hc, ← scanEvents_length p s.chip 0 0 es]
    simpa [doneEvent, startEvent, List.filter_reverse] using hall

/-- Settles O41: a scan's length is below 2^20, so the number of its mismatches fits RES_COUNT. -/
theorem mismatchCountNeverWraps : Obligations.MismatchCountNeverWraps := by
  refine ⟨fun s h => ?_, fun s bs left h hst => ?_⟩
  · obtain ⟨t, hrun, hscan, -, -⟩ := verifyErasedPhase_run operationDone s h
    have hl : (List.replicate maxAddress erased).length ≤ maxAddress := Nat.le_of_eq List.length_replicate
    have hx := (VerifyDone.of_scanned h hl hscan).countExact hl
    exact ⟨phaseEnded .verifyingErased t, congrArg Host.Outcome.next hrun, hx.count, Nat.le_trans hx.bounded hl, hx.events⟩
  · obtain ⟨t, hrun, hscan, -, -, -⟩ := verifyWrittenPhase_run operationDone bs left s h hst
    have hx := (VerifyDone.of_scanned h hst.1 hscan).countExact hst.1
    exact ⟨phaseEnded .verifyingWritten t, congrArg Host.Outcome.next hrun, hx.count, hx.bounded, hst.1, hx.events⟩

end Sys2Proof.Machine
end

section
/-! PROOFS. A block that runs its list: one micro-operation at the head of SEQ, run by micro-steps in the cycles R14 gives it (O55, O60). -/

namespace Sys2Proof.Machine

open Sys2Proof.Config

/-- The next micro-step takes the head of SEQ: BUSY, no reset edge, no CONTENTION seen or shown (R14, R141, R154). -/
structure Active (s : State) : Prop where
  unmarked : s.safetyFault = false
  quiet : contention s = false
  rstLow : s.env.rstEdges = 0
  busy : s.busy = true

theorem Active.microStep {T : Timing} {s : State} {i : Item} {rest : List Item} (h : Active s) (hq : s.seq = i :: rest) :
    microStep T s = microItem T i rest s := microStep_busy T i rest s h.unmarked h.quiet h.rstLow h.busy hq

theorem Active.microCost {s : State} {i : Item} {rest : List Item} (h : Active s) (hq : s.seq = i :: rest) :
    microCost s = if i.timed then 1 else 0 := by
  simp [Machine.microCost, h.rstLow, h.busy, hq]

theorem Active.setSeq {s : State} (h : Active s) (q : List Item) : Active (setSeq q s) := ⟨h.1, h.2, h.3, h.4⟩

/-- A micro-operation that leads to no CONTENTION leaves the block running. -/
theorem Active.applyMicro {s : State} (h : Active s) (m : MicroOp) (hc : contention (applyMicro m s) = false) :
    Active (applyMicro m s) := by
  obtain ⟨hs, hr, hb⟩ := applyMicro_fixed m s hc h.unmarked
  exact ⟨hs, hc, hr.trans h.rstLow, hb.trans h.busy⟩

theorem microRun_succ (T : Timing) (n : Nat) (s : State) : microRun T (n + 1) s = microStep T (microRun T n s) :=
  microRun_add T n 1 s

theorem microCycles_succ (T : Timing) (n : Nat) (s : State) :
    microCycles T (n + 1) s = microCycles T n s + microCost (microRun T n s) := microCycles_add T n 1 s

/-! ### A wait, cycle by cycle -/

/-- `s` inside a wait that has `k` cycles left: no output differs from `s`, and a one-cycle pulse has ended (R14, R41). -/
def midWait (k : Nat) (rest : List Item) (s : State) : State :=
  { s with pulses := ⟨false, false⟩, seq := .micro .waiting :: rest, hidden := { s.hidden with waitCtr := k } }

/-- `s` after a wait (R168). -/
def waitOver (rest : List Item) (s : State) : State :=
  { s with pulses := ⟨false, false⟩, seq := rest, hidden := { s.hidden with waitCtr := 0 } }

theorem Active.midWait {s : State} (h : Active s) (k : Nat) (rest : List Item) : Active (midWait k rest s) :=
  ⟨h.1, h.2, h.3, h.4⟩

theorem waitCycle_more {n : Nat} (rest : List Item) (s : State) (hn : 1 < n) : waitCycle n rest s = midWait (n - 1) rest s := by
  simp only [waitCycle, if_neg (Nat.not_le.mpr hn)]
  rfl

theorem waitCycle_last {n : Nat} (rest : List Item) (s : State) (hn : n ≤ 1) : waitCycle n rest s = waitOver rest s := by
  have : n - 1 = 0 := by omega
  simp only [waitCycle, if_pos hn, this]
  rfl

/-- Inside a wait that began with `k` cycles (R14). -/
theorem microRun_wait {T : Timing} {s : State} {rest : List Item} {k : Nat} (h : Active s)
    (hfirst : microStep T s = waitCycle k rest s) (n : Nat) (hn : n + 1 < k) :
    microRun T (n + 1) s = midWait (k - (n + 1)) rest s := by
  induction n with
  | zero => exact hfirst.trans (waitCycle_more rest s hn)
  | succ n ih =>
    rw [microRun_succ, ih (by omega), (h.midWait _ rest).microStep rfl]
    exact waitCycle_more rest (midWait (k - (n + 1)) rest s) (show 1 < k - (n + 1) by omega)

/-- A wait of `k` cycles is over after `k` micro-steps (R14). -/
theorem microRun_wait_all {T : Timing} {s : State} {rest : List Item} {k : Nat} (h : Active s)
    (hfirst : microStep T s = waitCycle k rest s) (hk : 0 < k) : microRun T k s = waitOver rest s := by
  match k, hk with
  | 1, _ => exact hfirst.trans (waitCycle_last rest s (Nat.le_refl 1))
  | n + 2, _ =>
    rw [microRun_succ, microRun_wait h hfirst n (by omega), (h.midWait _ rest).microStep rfl]
    exact waitCycle_last rest (midWait (n + 2 - (n + 1)) rest s) (show n + 2 - (n + 1) ≤ 1 by omega)

/-- Each of its micro-steps takes one cycle. -/
theorem microCycles_wait {T : Timing} {s : State} {rest : List Item} {k : Nat} (h : Active s)
    (hfirst : microStep T s = waitCycle k rest s) (hcost : microCost s = 1) (n : Nat) (hn : n ≤ k) : microCycles T n s = n := by
  induction n with
  | zero => rfl
  | succ n ih =>
    rw [microCycles_succ, ih (by omega)]
    match n with
    | 0 => exact congrArg (0 + ·) hcost
    | n + 1 => rw [microRun_wait h hfirst n (by omega), (h.midWait _ rest).microCost rfl]; rfl

theorem Timing.cycles_pos {T : Timing} (hT : T.valid = true) (t : Delay) : 0 < T.cycles t := by
  simp only [Timing.valid, Bool.and_eq_true, decide_eq_true_eq] at hT
  cases t <;> simp only [Timing.cycles] <;> omega

/-- Settles O55: `midWait` is every state before the last, `waitOver` the last. -/
theorem waitHoldsEveryOutputForItsCycles : Obligations.WaitHoldsEveryOutputForItsCycles := by
  intro T t rest s hT hs hc hr hb hq
  have h : Active s := ⟨hs, hc, hr, hb⟩
  have hfirst : microStep T s = waitCycle (T.cycles t) rest s := h.microStep hq
  refine ⟨fun n hpos hn => ?_, microRun_wait_all h hfirst (Timing.cycles_pos hT t), ?_⟩
  · match n, hpos with
    | n + 1, _ => exact microRun_wait h hfirst n hn
  · exact microCycles_wait h hfirst (h.microCost hq) _ (Nat.le_refl _)

/-! ### A list of micro-operations -/

@[simp] theorem setSeq_setSeq (p q : List Item) (s : State) : setSeq p (setSeq q s) = setSeq p s := rfl

/-- One micro-operation at the head of SEQ is run by one or more micro-steps. -/
theorem micro_run (T : Timing) {s : State} {m : MicroOp} {rest : List Item} (h : Active s) (hq : s.seq = .micro m :: rest) :
    ∃ n, 0 < n ∧ microRun T n s = setSeq rest (applyMicro m s) := by
  have hstep := h.microStep (T := T) hq
  have wait : ∀ k, microStep T s = waitCycle k rest s → ∃ n, 0 < n ∧ microRun T n s = waitOver rest s := by
    intro k hfirst
    match k with
    | 0 => exact ⟨1, Nat.one_pos, hfirst.trans (waitCycle_last rest s (Nat.zero_le 1))⟩
    | k + 1 => exact ⟨k + 1, k.succ_pos, microRun_wait_all h hfirst k.succ_pos⟩
  cases m with
  | wait t => exact wait _ hstep
  | waiting => exact wait _ hstep
  | _ => exact ⟨1, Nat.one_pos, hstep⟩

/-- It takes the cycles counted for it, if it is no wait that has begun (R14). -/
theorem micro_run_cycles {T : Timing} (hT : T.valid = true) {s : State} {m : MicroOp} {rest : List Item} (h : Active s)
    (hq : s.seq = .micro m :: rest) (hm : m ≠ .waiting) :
    ∃ n, microRun T n s = setSeq rest (applyMicro m s) ∧ microCycles T n s = opsCycles T [m] := by
  have hstep := h.microStep (T := T) hq
  have hcost := h.microCost hq
  cases m with
  | wait t =>
    exact ⟨T.cycles t, microRun_wait_all h hstep (Timing.cycles_pos hT t), microCycles_wait h hstep hcost _ (Nat.le_refl _)⟩
  | waiting => exact absurd rfl hm
  | _ => exact ⟨1, hstep, hcost⟩

/-- A list of micro-operations at the head of SEQ that shows no CONTENTION takes its counted cycles (R14, R167). -/
theorem micros_run_cycles {T : Timing} (hT : T.valid = true) (ms : List MicroOp) {s : State} {rest : List Item} (h : Active s)
    (hw : .waiting ∉ ms) (hq : s.seq = microItems ms ++ rest) (hc : ∀ t ∈ microTrace ms s, contention t = false) :
    ∃ n, microRun T n s = setSeq rest (runMicros ms s) ∧ microCycles T n s = opsCycles T ms := by
  induction ms generalizing s with
  | nil => exact ⟨0, by rw [show rest = s.seq from hq.symm]; rfl, rfl⟩
  | cons m ms ih =>
    simp only [List.mem_cons, not_or] at hw
    have htail : ∀ t ∈ microTrace ms (applyMicro m s), contention t = false := fun t ht => hc t (List.mem_cons_of_mem _ ht)
    have hnext : Active (applyMicro m s) := h.applyMicro m (htail _ (by cases ms <;> exact List.mem_cons_self))
    obtain ⟨k, hk, hkc⟩ := micro_run_cycles hT (rest := microItems ms ++ rest) h hq (Ne.symm hw.1)
    obtain ⟨n, hn, hnc⟩ := ih (hnext.setSeq (microItems ms ++ rest)) hw.2 rfl (by
      rw [microTrace_setSeq]
      exact fun t ht => by obtain ⟨u, hu, rfl⟩ := List.mem_map.mp ht; exact htail u hu)
    refine ⟨k + n, ?_, ?_⟩
    · rw [microRun_add, hk, hn, runMicros_setSeq, setSeq_setSeq, runMicros_cons]
    · rw [microCycles_add, hk, hkc, hnc, ← opsCycles_append]
      rfl

/-- Micro-operations that move nothing of a view show no CONTENTION where there was none. -/
theorem still_trace_quiet (ms : List MicroOp) (s : State) (hs : ∀ m ∈ ms, m.still = true) (hc : contention s = false) :
    ∀ t ∈ microTrace ms s, contention t = false := by
  have hq : s.view.quiet = true := by rw [quiet_contention, hc]; rfl
  have hview := (microTrace_invariant (fun t => t.view = s.view) ms s rfl fun m hm t ht => by
    rw [view_applyMicro, ht, (still_keeps m s.view (hs m hm) hq).1]).1
  exact fun t ht => contention_of_quiet ((congrArg View.quiet (hview t ht)).trans hq)

theorem waiting_notMem_shiftOps (a : Addr) : .waiting ∉ shiftOps a := by
  have hbits : .waiting ∉ shiftBitsOps srBits := fun h => absurd (shiftBits_mem _ _ h) (by decide)
  simp [shiftOps, latchOps, driveWait, hbits]

/-- `readByte(a)` up to its sample: the address is presented in the cycles of R167. -/
theorem presentRead_run {T : Timing} (hT : T.valid = true) (a : Addr) {s : State} (rest : List Item) (h : Active s) :
    ∃ n, microRun T n (setSeq (microItems (shiftOps a ++ [.wait .rd]) ++ rest) s) = setSeq rest (presentRead a s) ∧
      microCycles T n (setSeq (microItems (shiftOps a ++ [.wait .rd]) ++ rest) s) = 74 + 74 * T.tSettle + T.tRd := by
  have hstill : ∀ m ∈ shiftOps a ++ [MicroOp.wait .rd], m.still = true := by
    simpa [or_imp, forall_and, MicroOp.still] using shift_still a
  obtain ⟨n, hn, hc⟩ := micros_run_cycles hT (shiftOps a ++ [.wait .rd])
    (h.setSeq (microItems (shiftOps a ++ [.wait .rd]) ++ rest)) (by simp [waiting_notMem_shiftOps]) rfl
    (still_trace_quiet _ (setSeq _ s) hstill h.quiet)
  refine ⟨n, ?_, ?_⟩
  · rw [hn, runMicros_setSeq, setSeq_setSeq, runMicros_append, runMicros_cons, runMicros_nil, presentRead, shift]
  · simp [hc, opsCycles_append, opsCycles_shift, opsCycles, Timing.cycles]

/-- `readByte(a)` in Read mode from its check to its sample: the check and the call of `shift(a)` take no cycle (R96). -/
theorem readByte_run {T : Timing} (hT : T.valid = true) {a : Addr} {u : SampleUse} {s : State} {rest : List Item} (h : Active s)
    (hpins : ReadPins s) (hq : s.seq = readByteItems a u ++ rest) :
    ∃ n, microRun T n s = setSeq (.sample u :: rest) (presented a s) ∧ microCycles T n s = 74 + 74 * T.tSettle + T.tRd := by
  have hcheck : microStep T s = setSeq (.shift a :: .micro (.wait .rd) :: .sample u :: rest) s :=
    (h.microStep hq).trans (if_pos hpins.1)
  have hcall : microStep T (setSeq (.shift a :: .micro (.wait .rd) :: .sample u :: rest) s) =
      setSeq (microItems (shiftOps a ++ [.wait .rd]) ++ .sample u :: rest) s := by
    rw [(h.setSeq _).microStep rfl]
    simp [microItem, microItems, setSeq]
  obtain ⟨n, hn, hcyc⟩ := presentRead_run hT a (.sample u :: rest) h
  refine ⟨n + 2, ?_, ?_⟩
  · rw [microRun, microRun, hcheck, hcall, hn, presentRead_presented a s hpins]
  · rw [microCycles, microCycles, hcheck, hcall, hcyc, h.microCost hq, (h.setSeq _).microCost rfl]
    simp [Item.timed]

/-- Settles O60: the list by induction; `readByte` is its check, its call of `shift`, its micro-operations, its sample. -/
theorem microStepsTakeTheCountedCycles : Obligations.MicroStepsTakeTheCountedCycles := by
  intro T s rest hT hs hr hb
  refine ⟨fun ms hw hq hc => ?_, fun a u hready hmode hq => ?_⟩
  · exact micros_run_cycles hT ms ⟨hs, hc s (by cases ms <;> exact List.mem_cons_self), hr, hb⟩ hw hq hc
  · have hpins : ReadPins s := ⟨hmode, hready.1, hready.2⟩
    have hc : contention s = false := by simp [contention, Bus.contention, (settled_read hmode hready.1).1]
    obtain ⟨n, hn, hcyc⟩ := readByte_run hT ⟨hs, hc, hr, hb⟩ hpins hq
    have hsampling : Active (setSeq (.sample u :: rest) (presented a s)) := ⟨hs, hc, hr, hb⟩
    have hdata : dataIn (setSeq (.sample u :: rest) (presented a s)) = s.chip.output (a.extractLsb' 0 19) :=
      dataIn_presented a s hpins
    refine ⟨n + 1, ?_, ?_, ?_⟩
    · rw [microCycles_succ, hn, hcyc, hsampling.microCost rfl]
      simp only [Item.timed, if_true]
      omega
    · rw [microRun_succ, hn, hsampling.microStep rfl]
      cases u <;> rfl
    · rw [microRun_succ, hn, hsampling.microStep rfl, ← hdata]
      cases u <;> rfl

end Sys2Proof.Machine
end

section
/-! PROOFS. The two views agree: an entry of SEQ that `runItem` runs whole is run by micro-steps to the same state, and so is a command
(O53). The states between are those of an operation that `Planned` follows, so none shows CONTENTION. -/

namespace Sys2Proof.Machine

open Sys2Proof.Config

/-! ### What a micro-step leaves of BUSY and the reset line, and a scan address of a turn -/

theorem weRises_keeps (s : State) :
    (weRises s).busy = s.busy ∧ (weRises s).env.rstEdges = s.env.rstEdges ∧ (weRises s).hidden = s.hidden := by
  unfold weRises
  split <;> exact ⟨rfl, rfl, rfl⟩

theorem applyMicro_keeps (m : MicroOp) (s : State) :
    (applyMicro m s).busy = s.busy ∧ (applyMicro m s).env.rstEdges = s.env.rstEdges ∧
      (applyMicro m s).hidden.scanA = s.hidden.scanA := by
  cases m with
  | drive p v =>
    cases p with
    | weN =>
      simp only [applyMicro, drivePin, setBus_busy, setBus_env, setBus_hidden]
      split
      · obtain ⟨hb, hr, hh⟩ := weRises_keeps s
        exact ⟨hb, hr, congrArg Hidden.scanA hh⟩
      · exact ⟨rfl, rfl, rfl⟩
    | _ => exact ⟨rfl, rfl, rfl⟩
  | _ => exact ⟨rfl, rfl, rfl⟩

theorem runMicros_scanA (ms : List MicroOp) (s : State) : (runMicros ms s).hidden.scanA = s.hidden.scanA := by
  induction ms generalizing s with
  | nil => rfl
  | cons m ms ih => exact (ih _).trans (applyMicro_keeps m s).2.2

theorem presentRead_scanA (a : Addr) (s : State) : (presentRead a s).hidden.scanA = s.hidden.scanA :=
  (applyMicro_keeps (.wait .rd) (shift a s)).2.2.trans (runMicros_scanA (shiftOps a) s)

theorem writeByte_scanA (a : Addr) (b : Byte) (s : State) : (writeByte a b s).hidden.scanA = s.hidden.scanA := by
  rw [writeByte, runMicros_scanA, ensureWrite, runMicros_scanA]

theorem compareRecord_hidden (a : Count) (e v : Byte) (s : State) : (compareRecord a e v s).hidden = s.hidden := by
  unfold compareRecord
  split <;> rfl

/-- A read and comparison that goes on leaves SCAN_A (R116, R118). -/
theorem readCompare_scanA {e : Byte} {s t : State} (h : readCompare e s = .goOn t) : t.hidden.scanA = s.hidden.scanA := by
  unfold readCompare at h
  split at h
  · obtain rfl := Flow.goOn.inj h
    rw [compareRecord_hidden, sampleCycle_hidden, presentRead_scanA]
  · cases h

/-- A turn of a byte loop that goes on moves SCAN_A by one (R117, R118). -/
theorem byteTurn_scanA {l : ByteLoop} {b : Byte} {s t : State} (h : byteTurn l b s = .goOn t) :
    t.hidden.scanA = s.hidden.scanA + 1 := by
  cases l with
  | write =>
    obtain rfl := Flow.goOn.inj h
    rw [nextScan_hidden, writeByte_scanA]
  | verify =>
    simp only [byteTurn] at h
    split at h
    · next s' hs' =>
      obtain rfl := Flow.goOn.inj h
      rw [nextScan_hidden, readCompare_scanA hs']
    · cases h

theorem scanLeft_eq_zero {s : State} : scanLeft s = 0 ↔ s.hidden.scanA = maxAddr := by
  simp only [scanLeft, maxAddr]
  bv_omega

/-- A scan whose address moves by one has one turn less (R116 to R118). -/
theorem scanLeft_next {s t : State} {n : Nat} (hs : scanLeft s = n + 1) (ht : t.hidden.scanA = s.hidden.scanA + 1) :
    scanLeft t = n := by
  simp only [scanLeft, maxAddr, ht] at hs ⊢
  bv_omega

theorem microItem_keeps (T : Timing) (i : Item) (rest : List Item) (s : State) :
    (microItem T i rest s).busy = s.busy ∧ (microItem T i rest s).env.rstEdges = s.env.rstEdges := by
  cases i with
  | micro m =>
    have hm := applyMicro_keeps m s
    cases m with
    | wait t | waiting => exact ⟨rfl, rfl⟩
    | _ => exact ⟨hm.1, hm.2.1⟩
  | require | compareRecord | scanErased | byteLoop => simp only [microItem]; split <;> exact ⟨rfl, rfl⟩
  | reqByte l =>
    simp only [microItem, requestCycle]
    split
    · exact ⟨rfl, rfl⟩
    · split <;> exact ⟨rfl, rfl⟩
  | sample u => cases u <;> exact ⟨rfl, rfl⟩
  | gotByte l r => cases r <;> exact ⟨rfl, rfl⟩
  | _ => exact ⟨rfl, rfl⟩

/-! ### Runs of micro-steps -/

/-- A block that runs an operation `Planned` follows, `rst` low. -/
structure Live (s : State) : Prop where
  planned : Planned s
  rstLow : s.env.rstEdges = 0
  busy : s.busy = true

theorem Live.active {s : State} (h : Live s) : Active s :=
  ⟨h.planned.unmarked, contention_of_quiet h.planned.quiet, h.rstLow, h.busy⟩

theorem planned_run (T : Timing) (n : Nat) (s : State) (h : Planned s) : Planned (microRun T n s) := by
  induction n generalizing s with
  | zero => exact h
  | succ n ih => exact ih _ (planned_micro T s h)

/-- One or more micro-steps lead from `s` to `t` (R58). -/
def Reaches (T : Timing) (s t : State) : Prop := ∃ n, 0 < n ∧ microRun T n s = t

/-- They do if an operation runs in `s`, and it still runs in `t`. -/
def Runs (T : Timing) (s t : State) : Prop := Live s → Live t ∧ Reaches T s t

/-- They do if an operation runs in `s`; it ends or waits in `t`. -/
def Ends (T : Timing) (s t : State) : Prop := Live s → Reaches T s t

/-- What micro-steps from `u` do is what `f` says, `rest` being what SEQ holds when the operation goes on. -/
inductive Flow.Follows (T : Timing) (rest : List Item) (u : State) : Flow → Prop
  | goOn {t : State} : Runs T u (setSeq rest t) → Follows T rest u (.goOn t)
  | stop {t : State} : Ends T u t → Follows T rest u (.stop t)

section Followed

variable {T : Timing}

theorem Reaches.trans {s t u : State} (h : Reaches T s t) (h' : Reaches T t u) : Reaches T s u := by
  obtain ⟨m, hm, rfl⟩ := h
  obtain ⟨n, -, rfl⟩ := h'
  exact ⟨m + n, by omega, microRun_add T m n s⟩

theorem Runs.trans {s t u : State} (h : Runs T s t) (h' : Runs T t u) : Runs T s u := fun hl =>
  ⟨(h' (h hl).1).1, (h hl).2.trans (h' (h hl).1).2⟩

theorem Runs.ends {s t u : State} (h : Runs T s t) (h' : Ends T t u) : Ends T s u := fun hl =>
  (h hl).2.trans (h' (h hl).1)

theorem Runs.follows {s t : State} {rest : List Item} {f : Flow} (h : Runs T s t) (h' : f.Follows T rest t) :
    f.Follows T rest s := by
  cases h' with
  | goOn h' => exact .goOn (h.trans h')
  | stop h' => exact .stop (h.ends h')

theorem Flow.Follows.runs {rest : List Item} {u t : State} {f : Flow} (h : f.Follows T rest u) (hf : f = .goOn t) :
    Runs T u (setSeq rest t) := by
  subst hf
  cases h with | goOn h => exact h

theorem Flow.Follows.ends {rest : List Item} {u t : State} {f : Flow} (h : f.Follows T rest u) (hf : f = .stop t) :
    Ends T u t := by
  subst hf
  cases h with | stop h => exact h

/-- One micro-step takes the head of SEQ. -/
theorem Runs.item {i : Item} {rest : List Item} {s t : State} (h : microItem T i rest (setSeq (i :: rest) s) = t) :
    Runs T (setSeq (i :: rest) s) t := fun hl => by
  have hstep : microStep T (setSeq (i :: rest) s) = t := (hl.active.microStep rfl).trans h
  have hkeeps := microItem_keeps T i rest (setSeq (i :: rest) s)
  rw [h] at hkeeps
  exact ⟨⟨hstep ▸ planned_micro T _ hl.planned, hkeeps.2.trans hl.rstLow, hkeeps.1.trans hl.busy⟩, 1, Nat.one_pos, hstep⟩

theorem Runs.micro (m : MicroOp) (rest : List Item) (s : State) :
    Runs T (setSeq (.micro m :: rest) s) (setSeq rest (applyMicro m s)) := fun hl => by
  obtain ⟨n, hpos, hn⟩ := micro_run T hl.active rfl
  rw [applyMicro_setSeq, setSeq_setSeq] at hn
  obtain ⟨hb, hr, -⟩ := applyMicro_keeps m s
  exact ⟨⟨hn ▸ planned_run T n _ hl.planned, hr.trans hl.rstLow, hb.trans hl.busy⟩, n, hpos, hn⟩

theorem Runs.micros {ms : List MicroOp} (hms : ms ≠ []) (rest : List Item) (s : State) :
    Runs T (setSeq (microItems ms ++ rest) s) (setSeq rest (runMicros ms s)) := by
  induction ms generalizing s with
  | nil => exact absurd rfl hms
  | cons m ms ih =>
    cases ms with
    | nil => exact Runs.micro m rest s
    | cons m' ms => exact (Runs.micro m _ s).trans (ih (List.cons_ne_nil m' ms) (applyMicro m s))

/-- A call of a list of micro-operations, which may be empty (R105). -/
theorem Runs.call {i : Item} {ms : List MicroOp} {rest : List Item} {s : State}
    (h : microItem T i rest (setSeq (i :: rest) s) = setSeq (microItems ms ++ rest) s) :
    Runs T (setSeq (i :: rest) s) (setSeq rest (runMicros ms s)) := by
  cases ms with
  | nil => exact Runs.item h
  | cons m ms => exact (Runs.item h).trans (Runs.micros (List.cons_ne_nil m ms) rest s)

/-! ### The named operations -/

theorem finish_ends (s : State) : Ends T (setSeq [] s) (finish s) := fun hl =>
  ⟨1, Nat.one_pos, microStep_finish T _ hl.active.unmarked hl.active.quiet hl.rstLow hl.busy rfl⟩

theorem respond_ends (st : Status) (d : Byte) (s : State) : Ends T (setSeq [.respond st d] s) (finish (respond st d s)) :=
  Runs.ends (Runs.item rfl) (finish_ends (respond st d s))

theorem raiseErr_ends (e : Status) (rest : List Item) (s : State) : Ends T (setSeq (.raiseErr e :: rest) s) (raiseErr e s) :=
  Runs.ends (Runs.item rfl) (respond_ends e 0x00 (setFault s))

theorem abort_ends (p : Phase) (rest : List Item) (s : State) : Ends T (setSeq (.abort p :: rest) s) (abort p s) :=
  have hemit : Runs T (setSeq [.emitFail p, .setPhase .failed, .respond .eIo 0x00] s)
      (setSeq [.setPhase .failed, .respond .eIo 0x00] (emit (failEvent p s) s)) := Runs.item rfl
  have hphase : Runs T (setSeq [.setPhase .failed, .respond .eIo 0x00] (emit (failEvent p s) s))
      (setSeq [.respond .eIo 0x00] (setPhase .failed (emit (failEvent p s) s))) := Runs.item rfl
  ((Runs.item rfl).trans (hemit.trans hphase)).ends (respond_ends _ _ _)

theorem nextScan_runs (rest : List Item) (s : State) : Runs T (setSeq (.nextScan :: rest) s) (setSeq rest (nextScan s)) :=
  Runs.item rfl

theorem compareRecord_runs (e v : Byte) (rest : List Item) (s : State) :
    Runs T (setSeq (.compareRecord e v :: rest) s) (setSeq rest (compareRecord s.hidden.scanA e v s)) := by
  unfold compareRecord
  split
  · next h =>
    have hcall : Runs T (setSeq (.compareRecord e v :: rest) s) (setSeq (.record e v :: rest) s) := Runs.item (if_pos h)
    exact hcall.trans (Runs.item rfl)
  · next h => exact Runs.item (if_neg h)

theorem sampleCompare_runs (e : Byte) (rest : List Item) (s : State) :
    Runs T (setSeq (.sample (.compareWith e) :: rest) s)
      (setSeq rest (compareRecord s.hidden.scanA e (dataIn s) (sampleCycle s))) :=
  have hsample : Runs T (setSeq (.sample (.compareWith e) :: rest) s)
      (setSeq (.compareRecord e (dataIn s) :: rest) (sampleCycle s)) := Runs.item rfl
  hsample.trans (compareRecord_runs e (dataIn s) rest (sampleCycle s))

theorem replayOps_ne_nil (k : BitVec 3) (ps : List (Addr × Byte)) : replayOps k ps ≠ [] := by
  cases ps <;> exact List.cons_ne_nil _ _

theorem eraseChipOps_ne_nil : eraseChipOps ≠ [] := by simp [eraseChipOps]

theorem ensureWrite_runs (rest : List Item) (s : State) :
    Runs T (setSeq (.ensureWrite :: rest) s) (setSeq rest (ensureWrite s)) := Runs.call (ms := ensureWriteOps s) rfl

theorem writeByte_runs (a : Addr) (b : Byte) (rest : List Item) (s : State) :
    Runs T (setSeq (.writeByte a b :: rest) s) (setSeq rest (writeByte a b s)) :=
  have hcall : Runs T (setSeq (.writeByte a b :: rest) s)
      (setSeq (.ensureWrite :: (microItems (writeByteOps a b) ++ rest)) s) := Runs.item rfl
  hcall.trans ((ensureWrite_runs _ s).trans (Runs.micros (replayOps_ne_nil 0 (programPairs a b)) rest (ensureWrite s)))

theorem eraseChip_runs (rest : List Item) (s : State) : Runs T (setSeq (.eraseChip :: rest) s) (setSeq rest (eraseChip s)) :=
  have hcall : Runs T (setSeq (.eraseChip :: rest) s) (setSeq (.ensureWrite :: (microItems eraseChipOps ++ rest)) s) :=
    Runs.item rfl
  hcall.trans ((ensureWrite_runs _ s).trans (Runs.micros eraseChipOps_ne_nil rest (ensureWrite s)))

/-- R96: the mode check. -/
theorem require_follows (m : BusMode) (e : Status) (rest : List Item) (s : State) :
    (runItem (.require m e) rest s).Follows T rest (setSeq (.require m e :: rest) s) := by
  simp only [runItem]
  split
  · next h => exact .goOn (Runs.item (if_pos h))
  · next h =>
    have hcheck : Runs T (setSeq (.require m e :: rest) s) (setSeq [.raiseErr e] s) := Runs.item (if_neg h)
    exact .stop (hcheck.ends (raiseErr_ends e [] s))

/-- R96, R116, R118: `readByte` of the scan address and the comparison. -/
theorem readCompare_follows (e : Byte) (rest : List Item) (s : State) :
    (readCompare e s).Follows T rest (setSeq (readByteItems (scanAddr s) (.compareWith e) ++ rest) s) := by
  have hcheck := require_follows (T := T) .read .eNotRead
    (.shift (scanAddr s) :: .micro (.wait .rd) :: .sample (.compareWith e) :: rest) s
  unfold readCompare
  split
  · next h =>
    have hshift : Runs T (setSeq (.shift (scanAddr s) :: .micro (.wait .rd) :: .sample (.compareWith e) :: rest) s)
        (setSeq (.micro (.wait .rd) :: .sample (.compareWith e) :: rest) (shift (scanAddr s) s)) := Runs.call (ms := shiftOps (scanAddr s)) rfl
    exact .goOn ((hcheck.runs (if_pos h)).trans (hshift.trans ((Runs.micro _ _ _).trans (sampleCompare_runs e rest _))))
  · next h => exact .stop (hcheck.ends (if_neg h))

/-! ### Scans and byte loops -/

theorem runScanErased_follows (rest : List Item) (n : Nat) (s : State) (hn : scanLeft s = n) :
    (runScanErased n s).Follows T rest (setSeq (.scanErased :: rest) s) := by
  induction n generalizing s with
  | zero => exact .goOn (Runs.item (if_pos (scanLeft_eq_zero.mp hn)))
  | succ n ih =>
    have hne : s.hidden.scanA ≠ maxAddr := fun h => by
      rw [scanLeft_eq_zero.mpr h] at hn
      cases hn
    have hcall : Runs T (setSeq (.scanErased :: rest) s)
        (setSeq (readByteItems (scanAddr s) (.compareWith erased) ++ (.nextScan :: .scanErased :: rest)) s) :=
      Runs.item (if_neg hne)
    have hread := hcall.follows (readCompare_follows erased (.nextScan :: .scanErased :: rest) s)
    unfold runScanErased
    cases hturn : readCompare erased s with
    | stop t => exact .stop (hread.ends hturn)
    | goOn t =>
      have hscan : (nextScan t).hidden.scanA = s.hidden.scanA + 1 := by rw [nextScan_hidden, readCompare_scanA hturn]
      exact ((hread.runs hturn).trans (nextScan_runs _ t)).follows (ih (nextScan t) (scanLeft_next hn hscan))

theorem byteTurn_follows (l : ByteLoop) (b : Byte) (rest : List Item) (s : State) :
    (byteTurn l b s).Follows T (.byteLoop l :: rest) (setSeq (byteItems l b s ++ rest) s) := by
  cases l with
  | write =>
    exact .goOn ((writeByte_runs (scanAddr s) b (.nextScan :: .byteLoop .write :: rest) s).trans (nextScan_runs _ _))
  | verify =>
    have hread := readCompare_follows (T := T) b (.nextScan :: .byteLoop .verify :: rest) s
    simp only [byteTurn]
    cases hturn : readCompare b s with
    | stop t => exact .stop (hread.ends hturn)
    | goOn t => exact .goOn ((hread.runs hturn).trans (nextScan_runs _ t))

/-- What follows an answer `r` in a byte loop, the answer taken and `src_req` low (R117 to R119). -/
def answerTurn (l : ByteLoop) (again : State → Flow) (r : SrcResult) (s : State) : Flow :=
  match r with
  | .byte b =>
    match byteTurn l b s with
    | .goOn s' => again s'
    | .stop s' => .stop s'
  | .eos => .goOn s
  | .ioerr => .stop (abort l.phase s)

theorem requestTurn_answered {s : State} {a : SrcAnswer} {more : List SrcAnswer} (h : s.env.answers = a :: more) (l : ByteLoop)
    (again : State → Flow) (rest : List Item) :
    requestTurn l again rest s = answerTurn l again a.result (takeAnswer more s) := by
  simp only [requestTurn, h]
  cases a.result <;> rfl

theorem runItem_gotByte (l : ByteLoop) (r : SrcResult) (rest : List Item) (s : State) :
    runItem (.gotByte l r) rest s =
      answerTurn l (fun s' => runByteLoop l rest (scanLeft s') s') r { s with srcReq := false } := by
  cases r <;> rfl

/-- The turns after this one, wherever it leads, are followed from the head of the loop. -/
def NextTurns (T : Timing) (l : ByteLoop) (again : State → Flow) (rest : List Item) (s : State) : Prop :=
  ∀ t : State, t.hidden.scanA = s.hidden.scanA + 1 → (again t).Follows T rest (setSeq (.byteLoop l :: rest) t)

theorem answerTurn_follows {l : ByteLoop} {again : State → Flow} {rest : List Item} {s : State}
    (hagain : NextTurns T l again rest s) (r : SrcResult) :
    (answerTurn l again r { s with srcReq := false }).Follows T rest (setSeq (.gotByte l r :: rest) s) := by
  cases r with
  | byte b =>
    have hcall : Runs T (setSeq (.gotByte l (.byte b) :: rest) s)
        (setSeq (byteItems l b { s with srcReq := false } ++ rest) { s with srcReq := false }) := Runs.item (by cases l <;> rfl)
    have hbyte := hcall.follows (byteTurn_follows l b rest { s with srcReq := false })
    simp only [answerTurn]
    cases hturn : byteTurn l b { s with srcReq := false } with
    | stop t => exact .stop (hbyte.ends hturn)
    | goOn t =>
      have hscan := byteTurn_scanA hturn
      exact (hbyte.runs hturn).follows (hagain t hscan)
  | eos => exact .goOn (Runs.item rfl)
  | ioerr =>
    have hcall : Runs T (setSeq (.gotByte l .ioerr :: rest) s) (setSeq [.abort l.phase] { s with srcReq := false }) :=
      Runs.item rfl
    exact .stop (hcall.ends (abort_ends l.phase [] _))

/-- `s` when the answer to its request has been taken and `src_req` is still high (R39). -/
def answered (more : List SrcAnswer) (s : State) : State :=
  pulsesOff { s with srcReq := true, env := { s.env with answers := more } }

/-- A request waits out its answer's delay, one micro-step a cycle (R14, R39). -/
theorem request_runs (l : ByteLoop) (rest : List Item) (d : Nat) (k : BitVec 2) (b : Byte) (more : List SrcAnswer) (s : State)
    (h : s.env.answers = ⟨d, k, b⟩ :: more) :
    Runs T (setSeq (.reqByte l :: rest) s) (setSeq (.gotByte l (SrcAnswer.mk d k b).result :: rest) (answered more s)) := by
  induction d generalizing s with
  | zero => exact Runs.item (by simp [microItem, requestCycle, setSeq, h, answered, pulsesOff])
  | succ d ih =>
    have hcycle : Runs T (setSeq (.reqByte l :: rest) s)
        (setSeq (.reqByte l :: rest) (answered (⟨d, k, b⟩ :: more) s)) :=
      Runs.item (by simp [microItem, requestCycle, setSeq, h, answered, pulsesOff])
    exact hcycle.trans (ih (answered (⟨d, k, b⟩ :: more) s) rfl)

theorem requestTurn_follows {l : ByteLoop} {again : State → Flow} {rest : List Item} {s : State}
    (hagain : NextTurns T l again rest s) :
    (requestTurn l again rest s).Follows T rest (setSeq (.reqByte l :: rest) s) := by
  cases ha : s.env.answers with
  | nil =>
    have hwait : Runs T (setSeq (.reqByte l :: rest) s) (waitForByte l rest s) :=
      Runs.item (by simp [microItem, requestCycle, setSeq, ha, waitForByte])
    simp only [requestTurn, ha]
    exact .stop fun hl => (hwait hl).2
  | cons a more =>
    rw [requestTurn_answered ha]
    exact (request_runs l rest a.delay a.kind a.byte more s ha).follows
      (answerTurn_follows (s := answered more s) hagain a.result)

theorem runByteLoop_follows (l : ByteLoop) (rest : List Item) (n : Nat) (s : State) (hn : scanLeft s = n) :
    (runByteLoop l rest n s).Follows T rest (setSeq (.byteLoop l :: rest) s) := by
  induction n generalizing s with
  | zero => exact .goOn (Runs.item (if_pos (scanLeft_eq_zero.mp hn)))
  | succ n ih =>
    have hne : s.hidden.scanA ≠ maxAddr := fun h => by
      rw [scanLeft_eq_zero.mpr h] at hn
      cases hn
    have hcall : Runs T (setSeq (.byteLoop l :: rest) s) (setSeq (.reqByte l :: rest) s) := Runs.item (if_neg hne)
    exact hcall.follows (requestTurn_follows fun t ht => ih t (scanLeft_next hn ht))

/-! ### SEQ -/

/-- Every entry of SEQ, whole, is a run of micro-steps. -/
theorem runItem_follows (i : Item) (rest : List Item) (s : State) :
    (runItem i rest s).Follows T rest (setSeq (i :: rest) s) := by
  cases i with
  | micro m => exact .goOn (Runs.micro m rest s)
  | shift v => exact .goOn (Runs.call (ms := shiftOps v) rfl)
  | enterRead => exact .goOn (Runs.call (ms := enterReadOps) rfl)
  | enterWrite => exact .goOn (Runs.call (ms := enterWriteOps) rfl)
  | ensureWrite => exact .goOn (ensureWrite_runs rest s)
  | writeByte a b => exact .goOn (writeByte_runs a b rest s)
  | eraseChip => exact .goOn (eraseChip_runs rest s)
  | require m e => exact require_follows m e rest s
  | raiseErr e => exact .stop (raiseErr_ends e rest s)
  | sample u =>
    cases u with
    | toHost =>
      have hsample : Runs T (setSeq (.sample .toHost :: rest) s) (setSeq (.respond .ok (dataIn s) :: rest) (sampleCycle s)) :=
        Runs.item rfl
      exact .goOn (hsample.trans (Runs.item rfl))
    | compareWith e => exact .goOn (sampleCompare_runs e rest s)
  | compareRecord e v => exact .goOn (compareRecord_runs e v rest s)
  | scanErased => exact runScanErased_follows rest (scanLeft s) s rfl
  | byteLoop l => exact runByteLoop_follows l rest (scanLeft s) s rfl
  | reqByte l => exact requestTurn_follows fun t _ => runByteLoop_follows l rest (scanLeft t) t rfl
  | gotByte l r =>
    rw [runItem_gotByte]
    exact answerTurn_follows (fun t _ => runByteLoop_follows l rest (scanLeft t) t rfl) r
  | abort p => exact .stop (abort_ends p rest s)
  | record | beginPhase | endPhase | setPhase | clearScan | nextScan | emitFail | respond => exact .goOn (Runs.item rfl)

/-- A whole list of SEQ, to the response or to a request that is not answered (R20, R127). -/
theorem runProgram_ends (is : List Item) (s : State) : Ends T (setSeq is s) (runProgram is s) := by
  induction is generalizing s with
  | nil => exact finish_ends s
  | cons i rest ih =>
    have hitem := runItem_follows (T := T) i rest s
    cases hflow : runItem i rest s with
    | goOn t =>
      rw [runProgram_goOn hflow]
      exact (hitem.runs hflow).ends (ih t)
    | stop t =>
      rw [runProgram_stop hflow]
      exact hitem.ends hflow

end Followed

/-! ### A step, by the case it takes -/

theorem step_reset (s : State) (hs : s.safetyFault = false) (hc : contention s = false) (hr : s.env.rstEdges ≠ 0) :
    step s = .next (resetEdge s) := by
  simp [step, hs, hc, hr]

theorem step_busy (s : State) (hs : s.safetyFault = false) (hc : contention s = false) (hr : s.env.rstEdges = 0)
    (hb : s.busy = true) : step s = .next (runProgram s.seq s) := by
  simp [step, hs, hc, hr, hb]

theorem step_idle (s : State) (hs : s.safetyFault = false) (hc : contention s = false) (hr : s.env.rstEdges = 0)
    (hb : s.busy = false) (hw : s.env.hostWords = []) : step s = .next (idleCycle s) := by
  simp [step, hs, hc, hr, hb, hw]

theorem step_accept (w : CmdWord) (ws : List CmdWord) (s : State) (hs : s.safetyFault = false) (hc : contention s = false)
    (hr : s.env.rstEdges = 0) (hb : s.busy = false) (hw : s.env.hostWords = w :: ws) :
    step s = exec (decode w) (accept w s) := by
  simp [step, hs, hc, hr, hb, hw]

theorem microStep_idle (T : Timing) (s : State) (hs : s.safetyFault = false) (hc : contention s = false)
    (hr : s.env.rstEdges = 0) (hb : s.busy = false) (hw : s.env.hostWords = []) : microStep T s = idleCycle s := by
  simp [microStep, hs, hc, hr, hb, hw]

theorem exec_eq_runProgram (i : Instr) (s : State) : exec i s = .next (runProgram (program i) s) := by
  cases i <;> rfl

/-! ### Between steps -/

theorem view_settled {s : State} (h : s.bus.settled = true) : s.view.settled = true ∧ s.view.quiet = true := by
  cases hm : s.bus.mode <;> simp_all [Bus.settled, View.settled, View.quiet, State.view]

/-- What a waiting operation still holds in SEQ is planned from its pins and PHASE. -/
theorem planned_waiting {s : State} (h : WaitingShape s) (hr : s.bus.settled = true) : planned s.seq s.view = true := by
  obtain ⟨l, rest, hrest, hq, -, hp, -, -, hm, -⟩ := h
  have hv : s.view = match l with | .write => ⟨.write, true, true, .writing⟩ | .verify => ⟨.read, false, false, .verifyingWritten⟩ := by
    cases l with
    | write => simp [State.view, hm, hp, ByteLoop.phase, settled_write hm hr]
    | verify => simp [State.view, hm, hp, ByteLoop.phase, settled_read hm hr]
  rw [hq, hv]
  cases l <;> simp only [waitingRests, List.mem_cons, List.not_mem_nil, or_false] at hrest
  · rcases hrest with rfl | rfl <;> rfl
  · subst hrest; rfl

/-- The invariant between steps is a case of the invariant of every cycle. -/
theorem Inv.planned {s : State} (h : Inv s) : Planned s := by
  obtain ⟨hs, hq⟩ := view_settled h.ready.1
  refine ⟨hq, h.noContentionSeen, fun hb => planned_waiting (h.waiting hb) h.ready.1, fun hb => ?_⟩
  obtain ⟨-, -, -, hphase⟩ := h.idle hb
  show (s.view.settled && (s.orch.phase == .idle || s.orch.phase == .failed)) = true
  rw [hs]
  simpa using hphase

/-- Settles O53: a reset edge and an idle cycle are one micro-step; a command is its acceptance and the run of its list; a waiting
operation is the run of what SEQ still holds. -/
theorem everyStepIsARunOfMicroSteps : Obligations.EveryStepIsARunOfMicroSteps := by
  intro T s t _ hinv hstep
  have hp := hinv.planned
  have hs := hp.unmarked
  have hc := contention_of_quiet hp.quiet
  by_cases hr : s.env.rstEdges = 0
  · cases hb : s.busy with
    | true =>
      obtain rfl := Host.Outcome.next.inj ((step_busy s hs hc hr hb).symm.trans hstep)
      exact runProgram_ends s.seq s ⟨hp, hr, hb⟩
    | false =>
      cases hw : s.env.hostWords with
      | nil =>
        obtain rfl := Host.Outcome.next.inj ((step_idle s hs hc hr hb hw).symm.trans hstep)
        exact ⟨1, Nat.one_pos, microStep_idle T s hs hc hr hb hw⟩
      | cons w ws =>
        have hmicro := microStep_accept T w ws s hs hc hr hb hw
        rw [step_accept w ws s hs hc hr hb hw, exec_eq_runProgram] at hstep
        obtain rfl := Host.Outcome.next.inj hstep
        obtain ⟨n, -, hn⟩ := runProgram_ends (T := T) (program (decode w)) (accept w s) ⟨hmicro ▸ planned_micro T s hp, hr, rfl⟩
        exact ⟨n + 1, n.succ_pos, by rw [microRun, hmicro, hn]⟩
  · obtain rfl := Host.Outcome.next.inj ((step_reset s hs hc hr).symm.trans hstep)
    exact ⟨1, Nat.one_pos, microStep_reset T s hs hc hr⟩

end Sys2Proof.Machine
end

section
/-! PROOFS. The invariant between steps (O57, O58): reset establishes it, and every list of SEQ that a step runs ends in a state that
meets it, with its response given or its request waiting. -/

namespace Sys2Proof.Machine

open Sys2Proof.Config

/-! ### While an operation runs -/

/-- What holds of the block between two named operations of a list of SEQ, PHASE being `p`. -/
structure Running (p : Phase) (s : State) : Prop where
  ready : Ready s
  arrayCanonical : s.chip.array.wf = true
  resultsBounded : s.orch.bounded = true
  unmarked : s.safetyFault = false
  busy : s.busy = true
  srcReq : s.srcReq = false
  phase : s.orch.phase = p

/-- The mode in which a byte loop runs (R117, R118). -/
def ByteLoop.busMode : ByteLoop → BusMode
  | .write => .write
  | .verify => .read

/-- What holds at the head of a turn of a byte loop (R117, R118). -/
structure AtScan (l : ByteLoop) (s : State) : Prop extends Running l.phase s where
  mode : s.bus.mode = l.busMode
  scanA : s.hidden.scanA = s.orch.resNext
  noneCounted : l = .write → s.orch.resCount = 0

/-- A part of an operation either goes on in PHASE `p`, or ends or waits in a state of the invariant. -/
inductive Flow.Keeps (p : Phase) : Flow → Prop
  | goOn {t : State} : Running p t → Keeps p (.goOn t)
  | stop {t : State} : Inv t → Keeps p (.stop t)

/-! ### Ends -/

theorem Running.inv_responded {p : Phase} {s : State} (h : Running p s) (hp : p = .idle ∨ p = .failed) (st : Status) (d : Byte) :
    Inv (responded st d s) where
  ready := h.ready
  arrayCanonical := h.arrayCanonical
  resultsBounded := h.resultsBounded
  noContentionSeen := h.unmarked
  pulsesLow := rfl
  idle _ := ⟨rfl, rfl, h.srcReq, hp.imp h.phase.trans h.phase.trans⟩
  waiting := nofun

theorem Running.inv_raiseErr {s : State} (h : Running .idle s) (e : Status) : Inv (raiseErr e s) :=
  Running.inv_responded (s := setFault s) { h with } (.inl rfl) e 0

theorem Running.inv_abort {p : Phase} {s : State} (h : Running p s) (q : Phase) : Inv (abort q s) :=
  Running.inv_responded (s := setPhase .failed (emit (failEvent q s) s)) { h with phase := rfl } (.inr rfl) .eIo 0

theorem Running.inv_operationDone {p : Phase} {s : State} (h : Running p s) : Inv (runProgram operationDone s) :=
  Running.inv_responded (s := setPhase .idle s) { h with phase := rfl } (.inl rfl) .ok 0

theorem Running.after_endPhase {p : Phase} {s : State} (h : Running p s) (q : Phase) : Running p (endPhase q s) := { h with }

/-! ### Named operations -/

theorem Running.after_shift {p : Phase} {s : State} (h : Running p s) (a : Addr) : Running p (shift a s) := by
  obtain ⟨hs, hr⟩ := chain_rest h.ready.2
  rw [shift_eq a s hs hr]
  exact { h with ready := ⟨h.ready.1, rfl⟩ }

theorem Running.after_presentRead {p : Phase} {s : State} (h : Running p s) (a : Addr) : Running p (presentRead a s) := by
  obtain ⟨hs, hr⟩ := chain_rest h.ready.2
  rw [presentRead_eq a s hs hr]
  exact { h with ready := ⟨h.ready.1, rfl⟩ }

theorem Running.after_sampleCycle {p : Phase} {s : State} (h : Running p s) : Running p (sampleCycle s) := { h with }

theorem Running.after_enterRead {p : Phase} {s : State} (h : Running p s) : Running p (enterRead s) := by
  rw [enterRead_eq s, settled_we h.ready.1]
  exact { h with ready := ⟨rfl, h.ready.2⟩ }

theorem Running.after_enterWrite {p : Phase} {s : State} (h : Running p s) : Running p (enterWrite s) := by
  rw [enterWrite_eq s (settled_we h.ready.1)]
  exact { h with ready := ⟨rfl, h.ready.2⟩ }

theorem Running.after_setData {p : Phase} {s : State} (h : Running p s) (hm : s.bus.mode = .write) (b : Byte) :
    Running p (setData b s) := by
  obtain ⟨-, ho, hw⟩ := settled_write hm h.ready.1
  rw [setData_eq b s ho]
  exact { h with ready := ⟨by simp [Bus.settled, hm, ho, hw], h.ready.2⟩ }

theorem Running.after_afterSequence {p : Phase} {s : State} (h : Running p s) (ps : List (Addr × Byte)) (a : Addr) (b : Byte)
    (k : BitVec 3) : Running p (afterSequence ps a b k s) :=
  { h with ready := ⟨rfl, rfl⟩, arrayCanonical := afterPairs_wf s.chip (ps ++ [(a, b)]) h.arrayCanonical }

theorem Running.after_writeByte {p : Phase} {s : State} (h : Running p s) (a : Addr) (b : Byte) : Running p (writeByte a b s) := by
  obtain ⟨hs, hr⟩ := chain_rest h.ready.2
  rw [writeByte_eq a b s hs hr (settled_we h.ready.1)]
  exact h.after_afterSequence unlockPairs a b 4

theorem Running.after_eraseChip {p : Phase} {s : State} (h : Running p s) : Running p (eraseChip s) := by
  obtain ⟨hs, hr⟩ := chain_rest h.ready.2
  rw [eraseChip_eq s hs hr (settled_we h.ready.1)]
  exact h.after_afterSequence eraseLead (protocolAddr 0x5555) 0x10 6

theorem Running.after_beginPhase {p : Phase} {s : State} (h : Running p s) (q : Phase) : Running q (beginPhase q s) :=
  { h with resultsBounded := rfl, phase := rfl }

/-! ### A turn of a byte loop -/

theorem AtScan.pins {l : ByteLoop} {s : State} (h : AtScan l s) : LoopPins l s := by
  cases l <;> exact ⟨h.mode, h.ready.1, h.ready.2⟩

theorem Orch.bounded_iff {o : Orch} : o.bounded = true ↔ o.resCount ≤ o.resNext ∧ o.resNext ≤ maxAddr := by
  simp only [Orch.bounded, Bool.and_eq_true, decide_eq_true_eq]

/-- The scan address counts up to MAX_ADDRESS, so below it a turn wraps neither result (R126). -/
theorem Orch.bounded_next {o : Orch} {a c : Count} (h : o.bounded = true) (ha : a = o.resNext) (hne : a ≠ maxAddr)
    (hc : c = o.resCount ∨ c = o.resCount + 1) : (Orch.mk o.phase c (a + 1)).bounded = true := by
  subst ha
  obtain ⟨hle, hmax⟩ := Orch.bounded_iff.mp h
  rw [Orch.bounded_iff]
  simp only [maxAddr] at hne hmax ⊢
  rcases hc with rfl | rfl <;> constructor <;> bv_omega

theorem AtScan.turn {l : ByteLoop} {s : State} (h : AtScan l s) (hne : s.hidden.scanA ≠ maxAddr) (b : Byte) :
    AtScan l (loopTurn l b s) := by
  have hbounded {c : Count} (hc : c = s.orch.resCount ∨ c = s.orch.resCount + 1) :
      (Orch.mk s.orch.phase c (s.hidden.scanA + 1)).bounded = true := Orch.bounded_next h.resultsBounded h.scanA hne hc
  cases l with
  | write =>
    exact { h.toRunning.after_afterSequence unlockPairs (scanAddr s) b 4 with
      resultsBounded := hbounded (.inl rfl), mode := rfl, scanA := rfl, noneCounted := h.noneCounted }
  | verify =>
    simp only [loopTurn, verifyTurn, compareRecord]
    split
    · exact { h with ready := ⟨h.ready.1, rfl⟩, resultsBounded := hbounded (.inr rfl), scanA := rfl, noneCounted := nofun }
    · exact { h with ready := ⟨h.ready.1, rfl⟩, resultsBounded := hbounded (.inl rfl), scanA := rfl, noneCounted := nofun }

/-! ### Byte loops -/

/-- The block at an unanswered request (R127). -/
theorem AtScan.waits {l : ByteLoop} {rest : List Item} {s : State} (h : AtScan l s) (hrest : rest ∈ waitingRests l)
    (hne : s.hidden.scanA ≠ maxAddr) : Inv (waitForByte l rest s) where
  ready := h.ready
  arrayCanonical := h.arrayCanonical
  resultsBounded := h.resultsBounded
  noContentionSeen := h.unmarked
  pulsesLow := rfl
  idle hb := absurd (h.busy.symm.trans hb) (by decide)
  waiting _ := by
    have hlt : s.orch.resNext < maxAddr :=
      BitVec.lt_of_le_ne (Orch.bounded_iff.mp h.resultsBounded).2 (h.scanA ▸ hne)
    exact ⟨l, rest, hrest, rfl, rfl, h.phase, h.scanA, hlt, h.mode.trans (by cases l <;> rfl), h.noneCounted⟩

/-- `src_req` plays no part in how a request goes on (R39). -/
theorem requestTurn_srcReq (l : ByteLoop) (again : State → Flow) (rest : List Item) (s : State) (b : Bool) :
    requestTurn l again rest { s with srcReq := b } = requestTurn l again rest s := rfl

theorem requestTurn_keeps {l : ByteLoop} {again : State → Flow} {rest : List Item} {s : State} (hrest : rest ∈ waitingRests l)
    (h : AtScan l s) (hne : s.hidden.scanA ≠ maxAddr)
    (hagain : ∀ t, AtScan l t → t.hidden.scanA = s.hidden.scanA + 1 → (again t).Keeps l.phase) :
    (requestTurn l again rest s).Keeps l.phase := by
  cases ha : s.env.answers with
  | nil =>
    simp only [requestTurn, ha]
    exact .stop (h.waits hrest hne)
  | cons a more =>
    have htaken : AtScan l (takeAnswer more s) := { h with srcReq := rfl }
    rw [requestTurn_answered ha]
    cases a.result with
    | byte b =>
      have hturn := byteTurn_eq l b _ htaken.pins
      simp only [answerTurn, hturn]
      have hscan := byteTurn_scanA hturn
      exact hagain _ (htaken.turn hne b) hscan
    | eos => exact .goOn htaken.toRunning
    | ioerr => exact .stop (htaken.inv_abort l.phase)

theorem runByteLoop_keeps {l : ByteLoop} {rest : List Item} (hrest : rest ∈ waitingRests l) (n : Nat) (s : State)
    (hn : scanLeft s = n) (h : AtScan l s) : (runByteLoop l rest n s).Keeps l.phase := by
  induction n generalizing s with
  | zero => exact .goOn h.toRunning
  | succ n ih =>
    have hne : s.hidden.scanA ≠ maxAddr := fun he => by
      rw [scanLeft_eq_zero.mpr he] at hn
      cases hn
    exact requestTurn_keeps hrest h hne fun t ht hscan => ih t (scanLeft_next hn hscan) ht

theorem Flow.Keeps.run {p : Phase} {i : Item} {rest : List Item} {s : State} (h : (runItem i rest s).Keeps p)
    (hrest : ∀ t, Running p t → Inv (runProgram rest t)) : Inv (runProgram (i :: rest) s) := by
  generalize hf : runItem i rest s = f at h
  cases h with
  | goOn ht => exact runProgram_goOn hf ▸ hrest _ ht
  | stop ht => exact runProgram_stop hf ▸ ht

theorem byteLoop_keeps {l : ByteLoop} {rest : List Item} {s : State} (hrest : rest ∈ waitingRests l) (h : AtScan l s) :
    (runItem (.byteLoop l) rest s).Keeps l.phase := by
  simp only [runItem]
  exact runByteLoop_keeps hrest (scanLeft s) s rfl h

/-! ### Phases -/

theorem Running.inv_erasingPhase {p : Phase} {rest : List Item} {s : State} (h : Running p s)
    (hrest : ∀ t, Running .erasing t → Inv (runProgram rest t)) : Inv (runProgram (erasingPhase ++ rest) s) := by
  rw [erasingPhase_run rest s h.ready]
  exact hrest _ (((h.after_beginPhase .erasing).after_afterSequence eraseLead (protocolAddr 0x5555) 0x10 6).after_endPhase .erasing)

theorem Running.inv_verifyErasedPhase {p : Phase} {rest : List Item} {s : State} (h : Running p s)
    (hrest : ∀ t, Running .verifyingErased t → Inv (runProgram rest t)) : Inv (runProgram (verifyErasedPhase ++ rest) s) := by
  obtain ⟨t, hrun, hscan, -, hreq⟩ := verifyErasedPhase_run rest s h.ready
  have hlen : (List.replicate maxAddress erased).length = maxAddress := List.length_replicate
  have hd := VerifyDone.of_scanned h.ready (Nat.le_of_eq hlen) hscan
  have hbounded : t.orch.bounded = true := by
    have hle := mismatches_le s.chip 0 (List.replicate maxAddress erased)
    rw [hlen] at hle
    rw [Orch.bounded_iff, hd.orch, hlen]
    simp only [maxAddr, maxAddress] at hle ⊢
    constructor <;> bv_omega
  have ht : Running .verifyingErased t :=
    ⟨hd.ready h.ready, by rw [hd.chip]; exact h.arrayCanonical, hbounded, hd.safetyFault.trans h.unmarked, hd.busy.trans h.busy,
      hreq.trans h.srcReq, by rw [hd.orch]⟩
  rw [hrun, runProgram_endPhase]
  exact hrest _ (ht.after_endPhase .verifyingErased)

theorem Running.after_writeStart {p : Phase} {s : State} (h : Running p s) : AtScan .write (writeStart .writing s) := by
  rw [writeStart_eq .writing s h.ready]
  exact { h with
    ready := ⟨rfl, h.ready.2⟩, resultsBounded := rfl, phase := rfl, mode := rfl, scanA := rfl, noneCounted := fun _ => rfl }

theorem Running.after_readStart {p : Phase} {s : State} (h : Running p s) : AtScan .verify (readStart .verifyingWritten s) := by
  rw [readStart_eq .verifyingWritten s h.ready]
  exact { h with
    ready := ⟨rfl, h.ready.2⟩, resultsBounded := rfl, phase := rfl, mode := rfl, scanA := rfl, noneCounted := nofun }

theorem runProgram_writingPhase (rest : List Item) (s : State) :
    runProgram (writingPhase ++ rest) s = runProgram (.byteLoop .write :: .endPhase .writing :: rest) (writeStart .writing s) := by
  simp only [writingPhase, List.cons_append, List.nil_append]
  rw [runProgram_goOn rfl, runProgram_goOn rfl, runProgram_goOn rfl]
  rfl

theorem runProgram_verifyWrittenPhase (rest : List Item) (s : State) :
    runProgram (verifyWrittenPhase ++ rest) s =
      runProgram (.byteLoop .verify :: .endPhase .verifyingWritten :: rest) (readStart .verifyingWritten s) := by
  simp only [verifyWrittenPhase, List.cons_append, List.nil_append]
  rw [runProgram_goOn rfl, runProgram_goOn rfl, runProgram_goOn rfl]
  rfl

theorem Running.inv_verifyWrittenPhase {p : Phase} {s : State} (h : Running p s) :
    Inv (runProgram (verifyWrittenPhase ++ operationDone) s) := by
  rw [runProgram_verifyWrittenPhase]
  exact (byteLoop_keeps (List.mem_singleton.mpr rfl) h.after_readStart).run fun t ht =>
    (ht.after_endPhase .verifyingWritten).inv_operationDone

/-- What SEQ holds behind a byte loop ends the operation in a state of the invariant, or waits in one. -/
theorem Running.inv_afterLoop {l : ByteLoop} {rest : List Item} {s : State} (hrest : rest ∈ waitingRests l)
    (h : Running l.phase s) : Inv (runProgram rest s) := by
  cases l <;> simp only [waitingRests, List.mem_cons, List.not_mem_nil, or_false] at hrest
  · rcases hrest with rfl | rfl <;> rw [runProgram_endPhase]
    · exact (h.after_endPhase .writing).inv_operationDone
    · exact (h.after_endPhase .writing).inv_verifyWrittenPhase
  · subst hrest
    rw [runProgram_endPhase]
    exact (h.after_endPhase .verifyingWritten).inv_operationDone

theorem Running.inv_writingPhase {p : Phase} {rest : List Item} {s : State} (h : Running p s)
    (hrest : .endPhase .writing :: rest ∈ waitingRests .write) : Inv (runProgram (writingPhase ++ rest) s) := by
  rw [runProgram_writingPhase]
  exact (byteLoop_keeps hrest h.after_writeStart).run fun _ ht => ht.inv_afterLoop hrest

/-! ### Commands -/

theorem runProgram_require {m : BusMode} {s : State} (h : s.bus.mode = m) (e : Status) (rest : List Item) :
    runProgram (.require m e :: rest) s = runProgram rest s := runProgram_goOn (if_pos h)

theorem runProgram_require_fails {m : BusMode} {s : State} (h : s.bus.mode ≠ m) (e : Status) (rest : List Item) :
    runProgram (.require m e :: rest) s = Machine.raiseErr e s := runProgram_stop (if_neg h)

theorem runProgram_sample (s : State) : runProgram [.sample .toHost] s = responded .ok (dataIn s) (sampleCycle s) := rfl

theorem Running.inv_okResponse {i : Item} {s t : State} (hi : runItem i okResponse s = .goOn t) (ht : Running .idle t) :
    Inv (runProgram (i :: okResponse) s) := by
  rw [runProgram_ok hi]
  exact ht.inv_responded (.inl rfl) .ok 0x00

theorem Running.inv_setData {s : State} (h : Running .idle s) (b : Byte) : Inv (runProgram (progSetData b) s) := by
  unfold progSetData
  by_cases hm : s.bus.mode = .write
  · rw [runProgram_require hm]
    exact (h.after_setData hm b).inv_responded (.inl rfl) .ok 0x00
  · rw [runProgram_require_fails hm]
    exact h.inv_raiseErr .eNotWrite

theorem Running.inv_readByte {s : State} (h : Running .idle s) (a : Addr) : Inv (runProgram (progReadByte a) s) := by
  unfold progReadByte readByteItems
  by_cases hm : s.bus.mode = .read
  · rw [runProgram_require hm, runProgram_goOn rfl, runProgram_goOn rfl, ← presentRead, runProgram_sample]
    exact (h.after_presentRead a).after_sampleCycle.inv_responded (.inl rfl) .ok (dataIn (presentRead a s))
  · rw [runProgram_require_fails hm]
    exact h.inv_raiseErr .eNotRead

/-- Every command, run from its acceptance (R89 to R124, R136). -/
theorem Running.inv_program {s : State} (h : Running .idle s) (i : Instr) : Inv (runProgram (program i) s) := by
  cases i with
  | shiftAddr a => exact inv_okResponse (i := .shift a) rfl (h.after_shift a)
  | enterRead => exact inv_okResponse (i := .enterRead) rfl h.after_enterRead
  | enterWrite => exact inv_okResponse (i := .enterWrite) rfl h.after_enterWrite
  | setData b => exact h.inv_setData b
  | readByte a => exact h.inv_readByte a
  | writeByte a b => exact inv_okResponse (i := .writeByte a b) rfl (h.after_writeByte a b)
  | eraseChip => exact inv_okResponse (i := .eraseChip) rfl h.after_eraseChip
  | opErase => exact h.inv_erasingPhase fun _ ht => ht.inv_operationDone
  | opVerifyErased => exact h.inv_verifyErasedPhase fun _ ht => ht.inv_operationDone
  | opWrite => exact h.inv_writingPhase (.head _)
  | opVerifyWritten => exact h.inv_verifyWrittenPhase
  | opProgram =>
    exact h.inv_erasingPhase fun _ ht => ht.inv_verifyErasedPhase fun _ hu => hu.inv_writingPhase (.tail _ (.head _))
  | reserved0 | reservedD | reservedE | reservedF => exact h.inv_raiseErr .eIllegalOp

/-! ### Steps -/

theorem powerUp_inv (sr q : Addr) (chip : Chip) (h : chip.array.wf = true) : Inv (State.powerUp sr q chip) where
  ready := ⟨rfl, rfl⟩
  arrayCanonical := h
  resultsBounded := rfl
  noContentionSeen := rfl
  pulsesLow := rfl
  idle _ := ⟨rfl, rfl, rfl, .inl rfl⟩
  waiting := nofun

theorem Inv.resetEdge {s : State} (h : Inv s) : Inv (resetEdge s) := by
  have hup := powerUp_inv s.chain.sr s.chain.q s.chip h.arrayCanonical
  rw [resetEdge_eq s (settled_we h.ready.1)]
  exact { hup with noContentionSeen := h.noContentionSeen }

theorem Inv.idleCycle {s : State} (h : Inv s) : Inv (idleCycle s) := { h with pulsesLow := rfl }

/-- Acceptance from Idle or Failed (R112, R145). -/
theorem Inv.accept {s : State} (h : Inv s) (hb : s.busy = false) (w : CmdWord) : Running .idle (accept w s) := by
  obtain ⟨-, -, hreq, hphase⟩ := h.idle hb
  refine ⟨h.ready, h.arrayCanonical, h.resultsBounded, h.noContentionSeen, rfl, hreq, ?_⟩
  show s.orch.phase.onAccept = .idle
  rcases hphase with hp | hp <;> rw [hp] <;> rfl

/-- The request that a waiting operation stands at, with `src_req` dropped again. -/
theorem Inv.atScan {s : State} (h : Inv s) (hb : s.busy = true) :
    ∃ l, ∃ rest ∈ waitingRests l,
      s.seq = .reqByte l :: rest ∧ s.hidden.scanA ≠ maxAddr ∧ AtScan l { s with srcReq := false } := by
  obtain ⟨l, rest, hrest, hseq, -, hphase, hscan, hlt, hmode, hcount⟩ := h.waiting hb
  have hrunning : Running l.phase { s with srcReq := false } :=
    ⟨h.ready, h.arrayCanonical, h.resultsBounded, h.noContentionSeen, hb, rfl, hphase⟩
  exact ⟨l, rest, hrest, hseq, fun he => BitVec.ne_of_lt hlt (hscan ▸ he), hrunning, hmode.trans (by cases l <;> rfl), hscan, hcount⟩

/-- The rest of an operation that was waiting (R127). -/
theorem Inv.inv_waiting {s : State} (h : Inv s) (hb : s.busy = true) : Inv (runProgram s.seq s) := by
  obtain ⟨l, rest, hrest, hseq, hne, hscan⟩ := h.atScan hb
  have hturn : (requestTurn l (fun t => runByteLoop l rest (scanLeft t) t) rest s).Keeps l.phase :=
    requestTurn_srcReq l _ rest s false ▸
      requestTurn_keeps hrest hscan hne fun t ht _ => runByteLoop_keeps hrest (scanLeft t) t rfl ht
  rw [hseq]
  exact Flow.Keeps.run (i := .reqByte l) hturn fun _ ht => ht.inv_afterLoop hrest

/-- Settles O58: a reset edge, the rest of a waiting operation, an idle cycle, or a command run from its acceptance. -/
theorem machineInvariantKeptByEveryStep : Obligations.MachineInvariantKeptByEveryStep := by
  intro s h
  have hs := h.noContentionSeen
  have hc := contention_of_quiet h.planned.quiet
  by_cases hr : s.env.rstEdges = 0
  · cases hb : s.busy with
    | true => exact ⟨_, step_busy s hs hc hr hb, h.inv_waiting hb⟩
    | false =>
      cases hw : s.env.hostWords with
      | nil => exact ⟨_, step_idle s hs hc hr hb hw, h.idleCycle⟩
      | cons w ws =>
        have hstep := (step_accept w ws s hs hc hr hb hw).trans (exec_eq_runProgram (decode w) (accept w s))
        exact ⟨_, hstep, (h.accept hb w).inv_program (decode w)⟩
  · exact ⟨_, step_reset s hs hc hr, h.resetEdge⟩

/-- Settles O57: `powerUp_inv`, and the outputs read off. -/
theorem powerUpMeetsTheInvariant : Obligations.PowerUpMeetsTheInvariant :=
  ⟨fun sr q chip h => ⟨powerUp_inv sr q chip h, rfl, rfl⟩, powerUp_inv 0 0 _ rfl⟩

end Sys2Proof.Machine
end

section
/-! PROOFS. Acceptance, the idle step and a reset edge, each as a whole (O7, O8, O11, O13), and the cycle in which SHIFT_ADDR
responds (O56). -/

namespace Sys2Proof.Machine

open Sys2Proof.Config

/-- Settles O7: the case of `step` in which a word is accepted. -/
theorem stepRunsTheDecodedCommand : Obligations.StepRunsTheDecodedCommand := fun s w ws => step_accept w ws s

theorem Phase.onAccept_eq (p : Phase) : p.onAccept = if p = .failed then .idle else p := by cases p <;> rfl

/-- Settles O8: `accept` written out, PHASE by its two cases. -/
theorem acceptanceLoadsTheLatchAndLeavesFailed : Obligations.AcceptanceLoadsTheLatchAndLeavesFailed := by
  intro w s
  rw [← Phase.onAccept_eq]
  rfl

/-- Settles O11: `resetEdge_eq` with the safety mark not set. -/
theorem resetEdgeGivesTheResetValues : Obligations.ResetEdgeGivesTheResetValues := by
  intro s hs hc hr hw
  rw [step_reset s hs hc hr, resetEdge_eq s hw, hs]
  rfl

/-- Settles O13: the idle case of `step`. -/
theorem readyBlockIdles : Obligations.ReadyBlockIdles := by
  intro s hs hc hready hw
  obtain ⟨hb, hr⟩ : s.busy = false ∧ s.env.rstEdges = 0 := by simpa [cmdReady] using hready
  exact step_idle s hs hc hr hb hw

theorem decode_shiftAddr (a : Addr) : decode (encode (.shiftAddr a)) = .shiftAddr a := by
  simp [decode, encode, Instr.opcode, Instr.addrBits]

/-- `shift(a)` called from the head of SEQ: the call takes no cycle, its micro-operations those of R167. -/
theorem shift_run {T : Timing} (hT : T.valid = true) (a : Addr) {s : State} {rest : List Item} (h : Active s)
    (hq : s.seq = .shift a :: rest) :
    ∃ n, microRun T n s = setSeq rest (shift a s) ∧ microCycles T n s = 74 + 74 * T.tSettle := by
  have hcall : microStep T s = setSeq (microItems (shiftOps a) ++ rest) s := h.microStep hq
  obtain ⟨n, hn, hcyc⟩ := micros_run_cycles hT (shiftOps a) (h.setSeq (microItems (shiftOps a) ++ rest))
    (waiting_notMem_shiftOps a) rfl (still_trace_quiet _ (setSeq _ s) (shift_still a) h.quiet)
  refine ⟨n + 1, ?_, ?_⟩
  · rw [microRun, hcall, hn, runMicros_setSeq, setSeq_setSeq, shift]
  · rw [microCycles, hcall, hcyc, opsCycles_shift, h.microCost hq]
    exact Nat.zero_add _

/-- Settles O56: the acceptance and the call take no cycle, `shift` takes 74 + 74 * T_SETTLE, the response is the next. -/
theorem shiftAddrRespondsInItsCycle : Obligations.ShiftAddrRespondsInItsCycle := by
  intro T s a ws hT hinv hr hb hw
  have hs := hinv.noContentionSeen
  have hc := contention_of_quiet hinv.planned.quiet
  obtain ⟨u, hu⟩ : ∃ u, u = setSeq (progShiftAddr a) (accept (encode (.shiftAddr a)) s) := ⟨_, rfl⟩
  have haccept : microStep T s = u := by rw [microStep_accept T _ ws s hs hc hr hb hw, decode_shiftAddr, hu, program]
  have hfree : microCost s = 0 := by simp [microCost, hr, hb, hw]
  have hactive : Active u := by rw [hu]; exact ⟨hs, hc, hr, rfl⟩
  obtain ⟨hsr, hrc⟩ : u.chain.srclk = false ∧ u.chain.rclk = false := by rw [hu]; exact chain_rest hinv.ready.2
  obtain ⟨n, hn, hcyc⟩ := shift_run hT a (rest := okResponse) hactive (by rw [hu]; rfl)
  rw [shift_eq a u hsr hrc] at hn
  have hlast : Active (microRun T n u) := by rw [hn]; exact ⟨hactive.1, hactive.2, hactive.3, hactive.4⟩
  have hseq : (microRun T n u).seq = okResponse := by rw [hn]; rfl
  have hrun : microRun T (n + 2) s = setSeq [] (respond .ok 0x00 (microRun T n u)) := by
    rw [microRun, haccept, microRun_succ, hlast.microStep hseq]
    rfl
  refine ⟨n + 2, ?_, by rw [hrun]; rfl, by rw [hrun]; exact hlast.busy, by rw [hrun, hn]; rfl, by rw [hrun]; rfl⟩
  rw [microCycles, haccept, hfree, microCycles_succ, hcyc, hlast.microCost hseq]
  simp only [Item.timed, if_true]
  omega

end Sys2Proof.Machine
end

section
/-! PROOFS. What every micro-step leaves alone: the command latch and the words presented while the block is busy (O9, O10), FAULT
but for `raise Err` (O51), the data lines' direction but for the mode transitions (O26), and CONTENTION false (O27). -/

namespace Sys2Proof.Machine

open Sys2Proof.Config

/-! ### The command port plays no part in a running operation -/

/-- `s` with another command latch and other words presented. -/
def withPort (l : CmdLatch) (ws : List CmdWord) (s : State) : State :=
  { s with latch := l, env := { s.env with hostWords := ws } }

theorem weRises_withPort (l : CmdLatch) (ws : List CmdWord) (s : State) :
    weRises (withPort l ws s) = withPort l ws (weRises s) := by
  simp only [weRises, apply_ite (withPort l ws)]
  rfl

theorem applyMicro_withPort (l : CmdLatch) (ws : List CmdWord) (m : MicroOp) (s : State) :
    applyMicro m (withPort l ws s) = withPort l ws (applyMicro m s) := by
  cases m with
  | drive p v =>
    cases p with
    | weN =>
      simp only [applyMicro, drivePin, weRises_withPort, show pinLevel (withPort l ws s) .weN = pinLevel s .weN from rfl,
        ← apply_ite (withPort l ws)]
      rfl
    | _ => rfl
  | _ => rfl

theorem requestCycle_withPort (l : CmdLatch) (ws : List CmdWord) (b : ByteLoop) (rest : List Item) (s : State) :
    requestCycle b rest (withPort l ws s) = withPort l ws (requestCycle b rest s) := by
  simp only [requestCycle, show (withPort l ws s).env.answers = s.env.answers from rfl]
  split
  · rfl
  · split <;> rfl

theorem microItem_withPort (T : Timing) (l : CmdLatch) (ws : List CmdWord) (i : Item) (rest : List Item) (s : State) :
    microItem T i rest (withPort l ws s) = withPort l ws (microItem T i rest s) := by
  cases i with
  | micro m =>
    cases m with
    | wait t | waiting => rfl
    | _ => exact congrArg (setSeq rest) (applyMicro_withPort l ws _ s)
  | require | compareRecord | scanErased | byteLoop => simp only [microItem, apply_ite (withPort l ws)]; rfl
  | reqByte b => exact requestCycle_withPort l ws b rest s
  | sample u => cases u <;> rfl
  | gotByte b r => cases r <;> rfl
  | _ => rfl

/-! ### The micro-step of any state, `rst` low -/

theorem microStep_marked (T : Timing) {s : State} (h : (s.safetyFault || contention s) = true) :
    microStep T s = { s with safetyFault := true } := if_pos h

theorem unmarked_and_quiet {s : State} (h : ¬(s.safetyFault || contention s) = true) :
    s.safetyFault = false ∧ contention s = false := by simpa using h

/-- A micro-step with `rst` low, by the case it takes. -/
theorem microStep_rstLow (T : Timing) (s : State) (hr : s.env.rstEdges = 0) :
    ((s.safetyFault || contention s) = true ∧ microStep T s = { s with safetyFault := true }) ∨
      (s.busy = true ∧ s.seq = [] ∧ microStep T s = finish s) ∨
      (s.busy = true ∧ ∃ i rest, s.seq = i :: rest ∧ microStep T s = microItem T i rest s) ∨
      (s.busy = false ∧ s.env.hostWords = [] ∧ microStep T s = idleCycle s) ∨
      (s.busy = false ∧ ∃ w ws, s.env.hostWords = w :: ws ∧ microStep T s = setSeq (program (decode w)) (accept w s)) := by
  by_cases hm : (s.safetyFault || contention s) = true
  · exact .inl ⟨hm, microStep_marked T hm⟩
  · obtain ⟨hs, hc⟩ := unmarked_and_quiet hm
    right
    cases hb : s.busy with
    | true =>
      cases hq : s.seq with
      | nil => exact .inl ⟨rfl, rfl, microStep_finish T s hs hc hr hb hq⟩
      | cons i rest => exact .inr (.inl ⟨rfl, i, rest, rfl, microStep_busy T i rest s hs hc hr hb hq⟩)
    | false =>
      cases hw : s.env.hostWords with
      | nil => exact .inr (.inr (.inl ⟨rfl, rfl, microStep_idle T s hs hc hr hb hw⟩))
      | cons w ws => exact .inr (.inr (.inr ⟨rfl, w, ws, rfl, microStep_accept T w ws s hs hc hr hb hw⟩))

theorem microStep_withPort (T : Timing) (l : CmdLatch) (ws : List CmdWord) (s : State) (hb : s.busy = true)
    (hr : s.env.rstEdges = 0) : microStep T (withPort l ws s) = withPort l ws (microStep T s) := by
  by_cases hm : (s.safetyFault || contention s) = true
  · rw [microStep_marked T hm, microStep_marked T (s := withPort l ws s) hm]
    rfl
  · obtain ⟨hs, hc⟩ := unmarked_and_quiet hm
    cases hq : s.seq with
    | nil =>
      rw [microStep_finish T s hs hc hr hb hq, microStep_finish T (withPort l ws s) hs hc hr hb hq]
      rfl
    | cons i rest =>
      rw [microStep_busy T i rest s hs hc hr hb hq, microStep_busy T i rest (withPort l ws s) hs hc hr hb hq,
        microItem_withPort]

/-- R21: only an acceptance or a reset edge writes the latch. A busy block leaves any latch there may be, so the one it has. -/
theorem microStep_latch (T : Timing) (s : State) (hr : s.env.rstEdges = 0) (h : s.busy = true ∨ s.env.hostWords = []) :
    (microStep T s).latch = s.latch := by
  cases hb : s.busy with
  | true =>
    have hport := microStep_withPort T s.latch s.env.hostWords s hb hr
    exact (congrArg State.latch hport :)
  | false =>
    have hw := h.resolve_left (by simp [hb])
    rcases microStep_rstLow T s hr with
      ⟨-, h2⟩ | ⟨hb', -, -⟩ | ⟨hb', -⟩ | ⟨-, -, h2⟩ | ⟨-, w, ws, hw', -⟩
    · rw [h2]
    · exact absurd (hb.symm.trans hb') (by decide)
    · exact absurd (hb.symm.trans hb') (by decide)
    · rw [h2]; rfl
    · exact absurd (hw.symm.trans hw') nofun

/-- Settles O9: the micro-steps that are neither an acceptance nor a reset edge, by `microStep_latch`. -/
theorem latchHoldsUntilNextAcceptance : Obligations.LatchHoldsUntilNextAcceptance :=
  ⟨fun _ _ => rfl, microStep_latch, fun _ _ => rfl⟩

theorem resetEdge_withPort (ws : List CmdWord) (s : State) :
    resetEdge (withPort s.latch ws s) = withPort (resetEdge s).latch ws (resetEdge s) := by
  cases hw : s.bus.weN with
  | true => rw [resetEdge_eq s hw, resetEdge_eq (withPort s.latch ws s) hw]; rfl
  | false =>
    simp only [resetEdge, weRises_withPort, show (withPort s.latch ws s).bus.weN = false from hw, hw]
    rfl

/-- Settles O10: a micro-step and a change of the words presented may be exchanged; so may a reset edge. -/
theorem busyBlockIgnoresTheCommandPort : Obligations.BusyBlockIgnoresTheCommandPort := by
  intro T s ws hb
  show microStep T (withPort s.latch ws s) = withPort (microStep T s).latch ws (microStep T s)
  by_cases hr : s.env.rstEdges = 0
  · rw [microStep_withPort T s.latch ws s hb hr, microStep_latch T s hr (.inl hb)]
  · by_cases hm : (s.safetyFault || contention s) = true
    · rw [microStep_marked T hm, microStep_marked T (s := withPort s.latch ws s) hm]
      rfl
    · obtain ⟨hs, hc⟩ := unmarked_and_quiet hm
      rw [microStep_reset T s hs hc hr, microStep_reset T (withPort s.latch ws s) hs hc hr, resetEdge_withPort]

/-! ### FAULT -/

/-- `raise Err` (R134). -/
def Item.raises : Item → Bool
  | .raiseErr _ => true
  | _ => false

theorem weRises_fault (s : State) : (weRises s).fault = s.fault := by
  unfold weRises
  split <;> rfl

theorem applyMicro_fault (m : MicroOp) (s : State) : (applyMicro m s).fault = s.fault := by
  cases m with
  | drive p v =>
    cases p with
    | weN =>
      simp only [applyMicro, drivePin, setBus_fault, apply_ite State.fault, weRises_fault, ite_self]
    | _ => rfl
  | _ => rfl

theorem Item.micro_or_call (i : Item) : (∃ m, i = .micro m) ∨ ∀ m, i ≠ .micro m := by
  cases i with
  | micro m => exact .inl ⟨m, rfl⟩
  | _ => exact .inr nofun

/-- An entry of SEQ that is no micro-operation moves no pin (R14), and only `raise Err` writes FAULT (R34, R134). -/
theorem microItem_call (T : Timing) {i : Item} (rest : List Item) (s : State) (hi : ∀ m, i ≠ .micro m) :
    (microItem T i rest s).fault = (i.raises || s.fault) ∧ (microItem T i rest s).bus = s.bus := by
  cases i with
  | micro m => exact absurd rfl (hi m)
  | require | compareRecord | scanErased | byteLoop => simp only [microItem]; split <;> exact ⟨rfl, rfl⟩
  | reqByte b =>
    simp only [microItem, requestCycle]
    split
    · exact ⟨rfl, rfl⟩
    · split <;> exact ⟨rfl, rfl⟩
  | sample u => cases u <;> exact ⟨rfl, rfl⟩
  | gotByte b r => cases r <;> exact ⟨rfl, rfl⟩
  | _ => exact ⟨rfl, rfl⟩

theorem microItem_fault (T : Timing) (i : Item) (rest : List Item) (s : State) :
    (microItem T i rest s).fault = (i.raises || s.fault) := by
  rcases i.micro_or_call with ⟨m, rfl⟩ | hi
  · cases m with
    | wait t | waiting => rfl
    | _ => exact applyMicro_fault _ s
  · exact (microItem_call T rest s hi).1

/-- R34: a micro-step with `rst` low leaves FAULT, or it takes a `raise Err` and sets it. -/
theorem microStep_fault (T : Timing) (s : State) (hr : s.env.rstEdges = 0) :
    (microStep T s).fault = s.fault ∨
      (microStep T s).fault = true ∧ ∃ e rest, s.busy = true ∧ s.seq = .raiseErr e :: rest := by
  rcases microStep_rstLow T s hr with
    ⟨-, h2⟩ | ⟨-, -, h2⟩ | ⟨hb, i, rest, hq, h2⟩ | ⟨-, -, h2⟩ | ⟨-, w, ws, -, h2⟩ <;> rw [h2]
  · exact .inl rfl
  · exact .inl rfl
  · cases i with
    | raiseErr e => exact .inr ⟨rfl, e, rest, hb, hq⟩
    | _ => exact .inl (microItem_fault T _ rest s)
  · exact .inl rfl
  · exact .inl rfl

/-- Settles O51: the micro-steps by `microStep_fault`; `raise Err`, an abort and a reset edge by what they write. -/
theorem faultIsStickyAndOnlyErrorsSetIt : Obligations.FaultIsStickyAndOnlyErrorsSetIt := by
  refine ⟨fun T s hr => ?_, fun _ _ => ⟨rfl, rfl⟩, fun _ _ => ⟨rfl, rfl⟩, fun _ => rfl⟩
  rcases microStep_fault T s hr with h | ⟨h, hraise⟩
  · exact ⟨h.trans, fun h' => .inl (h.symm.trans h')⟩
  · exact ⟨fun _ => h, fun _ => .inr hraise⟩

/-! ### The data lines' direction, and CONTENTION -/

theorem microItem_micro_view (T : Timing) (m : MicroOp) (rest : List Item) (s : State) :
    (microItem T (.micro m) rest s).view = s.view.after m := by
  cases m with
  | wait t | waiting => rfl
  | _ => exact view_applyMicro _ s

/-- The group drives are the micro-operations that move the direction (R28). -/
theorem direction_of_after {v : View} {m : MicroOp} (h : (v.after m).dDrive ≠ v.dDrive) :
    m = .busInput ∨ ∃ b, m = .busOutput b ∧ v.dDrive = false := by
  cases m with
  | busInput => exact .inl rfl
  | busOutput b => exact .inr ⟨b, rfl, by simpa [View.after] using h⟩
  | drive p v => cases p <;> exact absurd rfl h
  | _ => exact absurd rfl h

/-- An entry of SEQ that `planned` admits moves the direction only as a group drive of R91 or R93 (R101). -/
theorem microItem_direction {T : Timing} {i : Item} {rest : List Item} {s : State} (hp : planned (i :: rest) s.view = true)
    (hne : (microItem T i rest s).bus.dDrive ≠ s.bus.dDrive) :
    i = .micro .busInput ∨ i = .micro (.busOutput 0x00) ∧ rest.take 1 = [.micro (.wait .dir)] := by
  rcases i.micro_or_call with ⟨m, rfl⟩ | hi
  · have hview : (microItem T (.micro m) rest s).bus.dDrive = (s.view.after m).dDrive :=
      congrArg View.dDrive (microItem_micro_view T m rest s)
    rw [hview] at hne
    rcases direction_of_after (v := s.view) hne with rfl | ⟨b, rfl, hd⟩
    · exact .inl rfl
    · right
      simp only [planned, View.admits, hd, Bool.false_or, Bool.and_eq_true, beq_iff_eq] at hp
      obtain ⟨⟨-, rfl, htake⟩, -⟩ := hp
      exact ⟨rfl, htake⟩
  · exact absurd (congrArg Bus.dDrive (microItem_call T rest s hi).2) hne

/-- Settles O26: a reachable state is planned, and of its micro-steps only an entry of SEQ can move the direction. -/
theorem directionChangesOnlyInModeTransitions : Obligations.DirectionChangesOnlyInModeTransitions := by
  intro T s hreach hne hr
  rcases microStep_cases T s (planned_of_reachable T s hreach) with
    ⟨hr', -⟩ | ⟨-, -, -, -, h2⟩ | ⟨-, -, i, rest, hq, hp, h2⟩ | ⟨-, -, -, h2⟩ | ⟨-, -, w, ws, -, h2⟩
  · exact absurd hr hr'
  · exact absurd (by rw [h2]; rfl) hne
  · rw [h2] at hne
    refine ⟨rest, ?_⟩
    rw [hq]
    rcases microItem_direction hp hne with rfl | ⟨rfl, htake⟩
    · exact .inl rfl
    · exact .inr ⟨rfl, htake⟩
  · exact absurd (by rw [h2]; rfl) hne
  · exact absurd (by rw [h2]; rfl) hne

/-- Settles O27: `Planned` holds of every reachable state. -/
theorem noContentionInAnyCycle : Obligations.NoContentionInAnyCycle := fun T s h =>
  have hp := planned_of_reachable T s h
  ⟨contention_of_quiet hp.quiet, hp.unmarked⟩

end Sys2Proof.Machine
end

section
/-! PROOFS. A workflow operation whose byte source falls silent (O46): the phases run so far, then the request that is not answered. -/

namespace Sys2Proof.Machine

open Sys2Proof.Config

/-- What no phase of a workflow operation writes (R113 to R118). -/
structure PhaseFrame (s t : State) : Prop where
  busy : t.busy = s.busy
  rsp : t.rsp = s.rsp
  lastStatus : t.lastStatus = s.lastStatus
  responses : t.env.responses = s.env.responses
  latch : t.latch = s.latch
  fault : t.fault = s.fault
  hostWords : t.env.hostWords = s.env.hostWords
  rstEdges : t.env.rstEdges = s.env.rstEdges
  draws : t.draws = s.draws
  safetyFault : t.safetyFault = s.safetyFault

theorem PhaseFrame.trans {s t u : State} (h : PhaseFrame s t) (h' : PhaseFrame t u) : PhaseFrame s u :=
  ⟨h'.1.trans h.1, h'.2.trans h.2, h'.3.trans h.3, h'.4.trans h.4, h'.5.trans h.5, h'.6.trans h.6, h'.7.trans h.7, h'.8.trans h.8,
    h'.9.trans h.9, h'.10.trans h.10⟩

theorem PhaseFrame.endPhase {s t : State} (h : PhaseFrame s t) (p : Phase) : PhaseFrame s (endPhase p t) := { h with }

theorem ReadyToWrite.frame {s t : State} (h : ReadyToWrite s t) : PhaseFrame s t := { h with }

theorem WritingDone.frame {bs : List Byte} {s t : State} (h : WritingDone bs s t) : PhaseFrame s t := { h with }

theorem VerifyDone.frame {p : Phase} {es : List Byte} {s t : State} (h : VerifyDone p es s t) : PhaseFrame s t := { h with }

/-- Phases that have led from `s` to `t`, and then a request the source does not answer (R127). -/
theorem PhaseFrame.waiting {s t : State} (h : PhaseFrame s t) (hb : s.busy = true) (ha : t.env.answers = [])
    (hscan : t.hidden.scanA = t.orch.resNext) (l : ByteLoop) (rest : List Item) :
    OperationWaiting l rest s (waitForByte l rest t) :=
  { h with busy := h.busy.trans hb, srcReq := rfl, seq := rfl, scanA := hscan, pulses := rfl, answers := ha }

theorem WritingDone.scanned {bs : List Byte} {s t : State} (h : WritingDone bs s t) : t.hidden.scanA = t.orch.resNext := by
  rw [h.scanA, h.orch]

theorem VerifyDone.scanned {p : Phase} {es : List Byte} {s t : State} (h : VerifyDone p es s t) :
    t.hidden.scanA = t.orch.resNext := by
  rw [h.scanA, h.orch]

/-! ### OP_PROGRAM up to VerifyingWritten -/

/-- The write cycles of the erase and of the stream, in one record (R82, R124). -/
theorem programCycles {ps qs : List (Addr × Byte)} {cs ds es : List (ChipAddr × Byte)} (hd : ds = writeCyclesOf ps ++ cs)
    (he : es = writeCyclesOf qs ++ ds) : es = writeCyclesOf (ps ++ qs) ++ cs := by
  rw [he, hd, writeCyclesOf_append, List.append_assoc]

/-- What the first three phases of OP_PROGRAM have done to `s`, the stream `bs` having been written and the answers `left` remaining
(R115 to R117, R124). -/
structure Programmed (bs : List Byte) (left : List SrcAnswer) (s t : State) : Prop where
  ready : Ready t
  frame : PhaseFrame s t
  answers : t.env.answers = left
  srcReq : s.srcReq = false → t.srcReq = false
  chip : t.chip = (s.chip.afterPairs chipEraseSequence).afterPairs (streamPairs 0 bs)
  writeCycles : t.env.writeCycles = writeCyclesOf (chipEraseSequence ++ streamPairs 0 bs) ++ s.env.writeCycles
  sink : t.env.sink =
    doneEvent .writing (BitVec.ofNat 20 bs.length) 0 :: startEvent .writing ::
      (eventsBeforeWriting (s.chip.afterPairs chipEraseSequence) ++ s.env.sink)
  dOut : t.bus.dOut = bs.getLastD 0x00
  chain : t.chain = (chainOf 0x07FFFF).afterScan bs.length

theorem progOpProgram_written {bs : List Byte} {left : List SrcAnswer} {s : State} (h : Ready s)
    (hst : StreamTaken s.env.answers bs left) :
    ∃ t, runProgram progOpProgram s = runProgram (verifyWrittenPhase ++ operationDone) t ∧ Programmed bs left s t := by
  obtain ⟨u, hrun, hu⟩ := program_start (writingPhase ++ (verifyWrittenPhase ++ operationDone)) s h
  obtain ⟨t, hrun', hwritten, -, ha, hreq⟩ :=
    writingPhase_run (verifyWrittenPhase ++ operationDone) bs left u hu.ready (hu.answers ▸ hst)
  have hd := WritingDone.of_written hu.ready hst.1 hwritten
  have hready := hd.ready hu.ready
  refine ⟨endPhase .writing t, hrun.trans (hrun'.trans (runProgram_endPhase _ _ t)), ?_⟩
  exact {
    ready := hready
    frame := (hu.frame.trans hd.frame).endPhase .writing
    answers := ha
    srcReq := fun hq => hreq (hu.srcReq.trans hq)
    chip := hd.chip.trans (by rw [hu.chip])
    writeCycles := programCycles hu.writeCycles hd.writeCycles
    sink := by
      show doneEvent .writing t.orch.resNext t.orch.resCount :: t.env.sink = _
      rw [hd.orch, hd.sink, hu.sink]
    dOut := by
      show t.bus.dOut = _
      rw [hd.bus]
      rfl
    chain := hd.chain.trans (by rw [hu.chain]) }

/-- Settles O46: each operation up to the phase that waits, then that phase by the lemma about its stall. -/
theorem silentSourceLeavesTheOperationWaiting : Obligations.SilentSourceLeavesTheOperationWaiting := by
  intro s h hb
  refine ⟨fun bs hst => ⟨?_, ?_, ?_⟩, fun bs cs mid htaken hst => ?_⟩
  · obtain ⟨t, hrun, hwritten, ha⟩ := writingPhase_stalls operationDone bs s h hst
    have hd := WritingDone.of_written h (Nat.le_of_lt hst.1) hwritten
    exact ⟨_, congrArg Host.Outcome.next hrun, hd.frame.waiting hb ha hd.scanned _ _, hd.orch, hd.sink, hd.chip, hd.writeCycles,
      hd.bus, hd.chain⟩
  · obtain ⟨t, hrun, hscan, ha⟩ := verifyWrittenPhase_stalls operationDone bs s h hst
    have hd := VerifyDone.of_scanned h (Nat.le_of_lt hst.1) hscan
    exact ⟨_, congrArg Host.Outcome.next hrun, hd.frame.waiting hb ha hd.scanned _ _, hd.orch, hd.sink, hd.chip, hd.writeCycles,
      hd.bus, hd.chain⟩
  · obtain ⟨u, hstart, hu⟩ := program_start (writingPhase ++ (verifyWrittenPhase ++ operationDone)) s h
    obtain ⟨t, hrun, hwritten, ha⟩ :=
      writingPhase_stalls (verifyWrittenPhase ++ operationDone) bs u hu.ready (hu.answers ▸ hst)
    have hd := WritingDone.of_written hu.ready (Nat.le_of_lt hst.1) hwritten
    exact ⟨_, congrArg Host.Outcome.next (hstart.trans hrun), (hu.frame.trans hd.frame).waiting hb ha hd.scanned _ _, hd.orch,
      hd.sink.trans (by rw [hu.sink]), hd.chip.trans (by rw [hu.chip]), programCycles hu.writeCycles hd.writeCycles, hd.bus,
      hd.chain.trans (by rw [hu.chain])⟩
  · obtain ⟨u, hstart, hu⟩ := progOpProgram_written h htaken
    obtain ⟨t, hrun, hscan, ha⟩ := verifyWrittenPhase_stalls operationDone cs u hu.ready (hu.answers ▸ hst)
    have hd := VerifyDone.of_scanned hu.ready (Nat.le_of_lt hst.1) hscan
    exact ⟨_, congrArg Host.Outcome.next (hstart.trans hrun), (hu.frame.trans hd.frame).waiting hb ha hd.scanned _ _,
      hd.orch.trans (by rw [hu.chip]), hd.sink.trans (by rw [hu.chip, hu.sink]), hd.chip.trans hu.chip,
      hd.writeCycles.trans hu.writeCycles, hd.bus.trans (by rw [hu.dOut]), hd.chain.trans (by rw [hu.chain])⟩

end Sys2Proof.Machine
end

section
/-! PROOFS. The reference chip under a byte program and under the write pairs of a stream (20_memory.md section 5), and what every
micro-step does to the chip (O59), a reset edge in the strobe among them (O12). -/

namespace Sys2Proof.Machine

open Sys2Proof.Config

/-! ### A byte program -/

/-- What programming `b` leaves of a byte that held `old` (R66). -/
def programByte : ProgMode → Byte → Byte → Byte
  | .overwrite, _, b => b
  | .andMask, old, b => old &&& b

theorem program_eq (c : Chip) (a : ChipAddr) (b : Byte) :
    c.program a b = { c with array := memWrite c.array a (programByte c.progMode (memRead c.array a) b) } := by
  unfold Chip.program
  cases c.progMode <;> rfl

theorem program_read_same (c : Chip) (a : ChipAddr) (b : Byte) (h : c.array.wf = true) :
    memRead (c.program a b).array a = programByte c.progMode (memRead c.array a) b := by
  rw [program_eq]
  exact memRead_memWrite_same c.array a _ h

theorem program_read_other (c : Chip) (a x : ChipAddr) (b : Byte) (h : x ≠ a) :
    memRead (c.program a b).array x = memRead c.array x := by
  rw [program_eq]
  exact memRead_memWrite_other c.array a x _ h

@[simp] theorem program_cstate (c : Chip) (a : ChipAddr) (b : Byte) : (c.program a b).cstate = c.cstate := by rw [program_eq]

@[simp] theorem program_stuck (c : Chip) (a : ChipAddr) (b : Byte) : (c.program a b).stuck = c.stuck := by rw [program_eq]

@[simp] theorem program_progMode (c : Chip) (a : ChipAddr) (b : Byte) : (c.program a b).progMode = c.progMode := by rw [program_eq]

/-! ### The write pairs of a stream -/

/-- On a chip that is not armed each byte of a stream is one byte program (R52, R80). -/
theorem afterPairs_stream_cons (c : Chip) (i : Count) (b : Byte) (bs : List Byte) (h : c.cstate = .read) :
    c.afterPairs (streamPairs i (b :: bs)) = (c.program (i.setWidth 19) b).afterPairs (streamPairs (i + 1) bs) := by
  rw [streamPairs, afterPairs_append, afterPairs_program c _ b h, chipAddrOf_scanAddr]

/-- The array after a stream written from address `i` on: the bytes below `i` and beyond the stream read as before, the others as
programmed (R52, R66). -/
theorem read_afterStream (bs : List Byte) (i : Nat) (c : Chip) (a : ChipAddr) (hi : i + bs.length ≤ maxAddress)
    (hc : c.cstate = .read) (hwf : c.array.wf = true) :
    memRead (c.afterPairs (streamPairs (BitVec.ofNat 20 i) bs)).array a =
      if a.toNat < i then memRead c.array a
      else (bs[a.toNat - i]?).elim (memRead c.array a) (programByte c.progMode (memRead c.array a)) := by
  induction bs generalizing i c with
  | nil => simp [streamPairs, Chip.afterPairs]
  | cons b bs ih =>
    have hmax : maxAddress = 2 ^ 19 := rfl
    rw [List.length_cons] at hi
    have htarget : ((BitVec.ofNat 20 i).setWidth 19).toNat = i := by
      simp only [BitVec.toNat_setWidth, BitVec.toNat_ofNat]
      omega
    rw [afterPairs_stream_cons c _ b bs hc, show BitVec.ofNat 20 i + 1 = BitVec.ofNat 20 (i + 1) from (BitVec.ofNat_add i 1).symm,
      ih (i + 1) _ (by omega) (by simpa using hc) (program_wf c _ b hwf), program_progMode]
    by_cases hsame : a = (BitVec.ofNat 20 i).setWidth 19
    · have ha : a.toNat = i := by rw [hsame, htarget]
      rw [if_pos (by omega), if_neg (by omega), ha, Nat.sub_self, hsame, program_read_same c _ b hwf]
      rfl
    · have ha : a.toNat ≠ i := fun e => hsame (BitVec.eq_of_toNat_eq (e.trans htarget.symm))
      rw [program_read_other c _ a b hsame]
      by_cases hlt : a.toNat < i
      · rw [if_pos hlt, if_pos (by omega)]
      · rw [if_neg hlt, if_neg (by omega), show a.toNat - i = a.toNat - (i + 1) + 1 by omega, List.getElem?_cons_succ]

theorem streamByte_eq (mode : ProgMode) (m : Memory) (bs : List Byte) (a : ChipAddr) :
    streamByte mode m bs a = (bs[a.toNat]?).elim (memRead m a) (programByte mode (memRead m a)) := by
  unfold streamByte
  cases bs[a.toNat]? with
  | none => rfl
  | some b => cases mode <;> rfl

/-! ### A micro-step does at most one write cycle -/

/-- The chip `d` is `c`, or `c` after one write cycle (R49, R64). -/
def Chip.MayBecome (c d : Chip) : Prop := d = c ∨ ∃ a b, d = c.writeCycle a b

theorem weRises_chip (s : State) : s.chip.MayBecome (weRises s).chip := by
  unfold weRises
  split
  · exact .inr ⟨_, _, rfl⟩
  · exact .inl rfl

theorem applyMicro_chip (m : MicroOp) (s : State) : s.chip.MayBecome (applyMicro m s).chip := by
  cases m with
  | drive p v =>
    cases p with
    | weN =>
      simp only [applyMicro, drivePin, setBus_chip]
      split
      · exact weRises_chip s
      · exact .inl rfl
    | _ => exact .inl rfl
  | _ => exact .inl rfl

/-- An entry of SEQ that is no micro-operation leaves the chip (R49). -/
theorem microItem_call_chip (T : Timing) {i : Item} (rest : List Item) (s : State) (hi : ∀ m, i ≠ .micro m) :
    (microItem T i rest s).chip = s.chip := by
  cases i with
  | micro m => exact absurd rfl (hi m)
  | require | compareRecord | scanErased | byteLoop => simp only [microItem]; split <;> rfl
  | reqByte b =>
    simp only [microItem, requestCycle]
    split
    · rfl
    · split <;> rfl
  | sample u => cases u <;> rfl
  | gotByte b r => cases r <;> rfl
  | _ => rfl

theorem microItem_chip (T : Timing) (i : Item) (rest : List Item) (s : State) :
    s.chip.MayBecome (microItem T i rest s).chip := by
  rcases i.micro_or_call with ⟨m, rfl⟩ | hi
  · cases m with
    | wait t | waiting => exact .inl rfl
    | _ => exact applyMicro_chip _ s
  · exact .inl (microItem_call_chip T rest s hi)

theorem resetEdge_chip (s : State) : s.chip.MayBecome (resetEdge s).chip := by
  show s.chip.MayBecome (if s.bus.weN then s else weRises s).chip
  split
  · exact .inl rfl
  · exact weRises_chip s

theorem microStep_chip (T : Timing) (s : State) : s.chip.MayBecome (microStep T s).chip := by
  by_cases hr : s.env.rstEdges = 0
  · rcases microStep_rstLow T s hr with
      ⟨-, h⟩ | ⟨-, -, h⟩ | ⟨-, i, rest, -, h⟩ | ⟨-, -, h⟩ | ⟨-, w, ws, -, h⟩ <;> rw [h]
    · exact .inl rfl
    · exact .inl rfl
    · exact microItem_chip T i rest s
    · exact .inl rfl
    · exact .inl rfl
  · by_cases hm : (s.safetyFault || contention s) = true
    · rw [microStep_marked T hm]
      exact .inl rfl
    · obtain ⟨hs, hc⟩ := unmarked_and_quiet hm
      rw [microStep_reset T s hs hc hr]
      exact resetEdge_chip s

/-- Settles O59: the chip is as it was or has seen one write cycle, which keeps the canonical form and the tester's settings. -/
theorem everyMicroStepKeepsTheArrayCanonical : Obligations.EveryMicroStepKeepsTheArrayCanonical := by
  intro T s hwf
  rcases microStep_chip T s with h | ⟨a, b, h⟩ <;> rw [h]
  · exact ⟨hwf, rfl, rfl⟩
  · exact ⟨writeCycle_wf s.chip a b hwf, writeCycle_stuck s.chip a b⟩

/-- Where CE# is low, OE# is high and the block drives, a rising WE# is a write cycle of (Q[18:0], d_out) (R64). -/
theorem weRises_strobe (s : State) (hce : s.bus.ceN = false) (hoe : s.bus.oeN = true) (hd : s.bus.dDrive = true) :
    weRises s =
      { s with
        chip := s.chip.writeCycle (chipAddr s) s.bus.dOut
        env := { s.env with writeCycles := (chipAddr s, s.bus.dOut) :: s.env.writeCycles } } := by
  simp [weRises, writeCycleByte, hce, hoe, hd]

/-- R157: what a reset edge leaves where WE# was low. -/
theorem resetEdge_strobe (s : State) (hw : s.bus.weN = false) :
    resetEdge s =
      { State.powerUp s.chain.sr s.chain.q (weRises s).chip with
        env := { (weRises s).env with rstEdges := s.env.rstEdges - 1 }
        draws := s.draws
        safetyFault := s.safetyFault } := by
  simp [resetEdge, hw]

/-- Settles O12: with OE# high there is no CONTENTION, so the micro-step is the reset edge. -/
theorem resetDuringStrobeIsAWriteCycle : Obligations.ResetDuringStrobeIsAWriteCycle := by
  intro T s hs hr hw hce hoe hd
  have hc : contention s = false := by simp [contention, Bus.contention, hoe]
  rw [microStep_reset T s hs hc hr, resetEdge_strobe s hw, weRises_strobe s hce hoe hd]
  exact ⟨rfl, rfl, rfl, rfl, rfl⟩

end Sys2Proof.Machine
end

section
/-! PROOFS. The primitive commands that read, program and erase the chip, each as a whole from a pin setting of R25, and what they do
to a reference chip (O24, O32, O34, O36); OP_ERASE beside them in what the block sees of the chip (O35). -/

namespace Sys2Proof.Machine

open Sys2Proof.Config

/-! ### The commands as a whole -/

theorem exec_readByte (a : Addr) (s : State) (h : ReadPins s) :
    exec (.readByte a) s = .next (responded .ok (s.chip.output (chipAddrOf a)) (latched a s)) := by
  rw [exec_eq_runProgram, program, progReadByte, readByteItems, runProgram_require h.1, runProgram_goOn rfl, runProgram_goOn rfl,
    ← presentRead, runProgram_sample, presentRead_presented a s h, dataIn_presented a s h, sampleCycle_presented a s h]
  rfl

theorem exec_enterRead (s : State) :
    exec .enterRead s = .next (responded .ok 0x00 { s with bus := ⟨.read, false, false, s.bus.weN, false, s.bus.dOut⟩ }) := by
  rw [exec_eq_runProgram, program, progEnterRead, runProgram_ok rfl, enterRead_eq]
  rfl

theorem exec_writeByte (a : Addr) (b : Byte) (s : State) (h : Ready s) :
    exec (.writeByte a b) s = .next (responded .ok 0x00 (sequenceSent (programPairs a b) a b s)) := by
  obtain ⟨hs, hr⟩ := chain_rest h.2
  rw [exec_eq_runProgram, program, progWriteByte, runProgram_ok rfl, writeByte_eq a b s hs hr (settled_we h.1)]
  rfl

theorem exec_eraseChip (s : State) (h : Ready s) :
    exec .eraseChip s = .next (responded .ok 0x00 (sequenceSent erasePairs (protocolAddr 0x5555) 0x10 s)) := by
  obtain ⟨hs, hr⟩ := chain_rest h.2
  rw [exec_eq_runProgram, program, progEraseChip, runProgram_ok rfl, eraseChip_eq s hs hr (settled_we h.1)]
  rfl

/-- `s` when the body of Erasing has run (R115). -/
def erasingDone (s : State) : State := afterSequence eraseLead (protocolAddr 0x5555) 0x10 6 (beginPhase .erasing s)

theorem exec_opErase (s : State) (h : Ready s) : exec .opErase s = .next (phaseEnded .erasing (erasingDone s)) := by
  rw [exec_eq_runProgram, program, progOpErase, erasingPhase_run operationDone s h]
  rfl

theorem erasingDone_chip (s : State) : (erasingDone s).chip = s.chip.afterPairs erasePairs := rfl

/-- Settles O24: `exec_readByte`. -/
theorem readByteReturnsTheChipsByte : Obligations.ReadByteReturnsTheChipsByte :=
  fun a s h hm => exec_readByte a s ⟨hm, h.1, h.2⟩

/-! ### The reference chip -/

theorem exec_writeByte_chip (a : Addr) (b : Byte) (s : State) (h : Ready s) (hc : s.chip.cstate = .read) :
    ∃ t, exec (.writeByte a b) s = .next t ∧ t.bus.weN = true ∧ t.chain.atRest = true ∧
      t.chip = s.chip.program (chipAddrOf a) b :=
  ⟨_, exec_writeByte a b s h, rfl, rfl, afterPairs_program s.chip a b hc⟩

/-- Settles O32: on a chip that is not armed the four pairs are one byte program. -/
theorem writeByteProgramsOnlyItsByte : Obligations.WriteByteProgramsOnlyItsByte := by
  intro a b s h hc hwf
  obtain ⟨t, hexec, -, -, ht⟩ := exec_writeByte_chip a b s h hc
  refine ⟨t, hexec, ?_⟩
  rw [ht]
  refine ⟨?_, fun x hx => program_read_other s.chip _ x b hx, ?_, ?_, ?_, program_wf s.chip _ b hwf⟩
  · rw [chipAddrOf, program_read_same s.chip _ b hwf]
    cases s.chip.progMode <;> rfl
  · rw [program_cstate, hc]
  · exact program_stuck s.chip _ b
  · exact program_progMode s.chip _ b

/-- Settles O34: on a chip that is not armed the six pairs empty the array. -/
theorem eraseChipErasesEveryByte : Obligations.EraseChipErasesEveryByte := by
  intro s h hc
  obtain ⟨t, hexec, ht⟩ : ∃ t, exec .eraseChip s = .next t ∧ t.chip = { s.chip with array := memErase } :=
    ⟨_, exec_eraseChip s h, afterPairs_erase s.chip hc⟩
  refine ⟨t, hexec, ?_⟩
  rw [ht]
  exact ⟨memRead_memErase, hc⟩

theorem output_program_same (c : Chip) (a : ChipAddr) (b : Byte) (hwf : c.array.wf = true) (hm : c.progMode = .overwrite)
    (hs : stuckAt c.stuck a = none) : (c.program a b).output a = b := by
  rw [Chip.output, program_stuck, hs]
  exact (program_read_same c a b hwf).trans (by rw [hm, programByte])

/-- Settles O36: the byte programmed is the byte driven in the Read mode that ENTER_READ has given. -/
theorem writtenByteReadsBack : Obligations.WrittenByteReadsBack := by
  intro a b s h hc hwf hm hs
  obtain ⟨t, hwrite, hwe, hrest, ht⟩ := exec_writeByte_chip a b s h hc
  have hread := exec_enterRead t
  rw [hwe] at hread
  refine ⟨t, _, _, hwrite, hread, exec_readByte a _ ⟨rfl, rfl, hrest⟩, ?_⟩
  show RspPort.mk .ok (t.chip.output (chipAddrOf a)) = ⟨.ok, b⟩
  rw [ht, output_program_same s.chip (chipAddrOf a) b hwf hm hs]

/-! ### The block sees nothing of the chip in a sequence -/

/-- Settles O35: the state each of the three commands leaves holds the chip in no other field. -/
theorem sequencesObserveNothingOfTheChip : Obligations.SequencesObserveNothingOfTheChip := by
  intro i s t c h hi ht
  have hc : Ready { s with chip := c } := h
  rcases hi with rfl | rfl | ⟨a, b, rfl⟩
  · obtain rfl := Host.Outcome.next.inj ((exec_eraseChip s h).symm.trans ht)
    exact ⟨_, exec_eraseChip _ hc, rfl⟩
  · obtain rfl := Host.Outcome.next.inj ((exec_opErase s h).symm.trans ht)
    exact ⟨_, exec_opErase _ hc, rfl⟩
  · obtain rfl := Host.Outcome.next.inj ((exec_writeByte a b s h).symm.trans ht)
    exact ⟨_, exec_writeByte a b _ hc, rfl⟩

end Sys2Proof.Machine
end

section
/-! PROOFS. The bracket order of a write transaction, state by state (O29): opened, the shift, the strobe, the rising edge of WE#, the
release. -/

namespace Sys2Proof.Machine

open Sys2Proof.Config

theorem microTrace_append_mem {xs ys : List MicroOp} {s t : State} (h : t ∈ microTrace (xs ++ ys) s) :
    t ∈ microTrace xs s ∨ t ∈ microTrace ys (runMicros xs s) := by
  rw [microTrace_append, List.mem_append] at h
  exact h.imp_right List.mem_of_mem_tail

theorem mem_microTrace_append_cons {xs ys : List MicroOp} {m : MicroOp} {s t : State} :
    t ∈ microTrace (xs ++ m :: ys) s ↔ t ∈ microTrace xs s ∨ t ∈ microTrace ys (applyMicro m (runMicros xs s)) := by
  rw [microTrace_append, List.mem_append]
  rfl

/-! ### The parts of a transaction -/

/-- The control lines of a transaction's first part: OE# and WE# high, CE# low (R103). -/
def txnOpen : List MicroOp :=
  [.drive .oeN true, .wait .settle, .drive .weN true, .wait .settle, .drive .ceN false, .wait .settle]

/-- The byte is driven, and WE# falls (R103). -/
def txnStrobe (b : Byte) : List MicroOp := [.busOutput b, .wait .settle, .drive .weN false, .wait .wp]

/-- What comes after the rising edge of WE# (R103). -/
def txnRelease : List MicroOp := [.wait .settle, .drive .ceN true, .wait .bp]

theorem txnOps_parts (a : Addr) (b : Byte) :
    txnOps a b = txnOpen ++ (shiftOps a ++ txnStrobe b) ++ .drive .weN true :: txnRelease := by
  simp [txnOps, txnOpen, txnStrobe, txnRelease, driveWait]

/-- The chip has seen nothing since `s` (R64). -/
def Unseen (s t : State) : Prop := t.chip = s.chip ∧ t.env.writeCycles = s.env.writeCycles

/-- The chip has seen nothing since `s`, and WE# is high. -/
def BeforeStrobe (s t : State) : Prop := Unseen s t ∧ t.bus.weN = true

/-- The pair `(a, b)` stands on the address and data lines, CE# is low and OE# high (R104). -/
def PairDriven (a : Addr) (b : Byte) (t : State) : Prop :=
  t.chain.q = a ∧ t.bus.dOut = b ∧ t.bus.ceN = false ∧ t.bus.oeN = true ∧ t.bus.dDrive = true

theorem txnOpen_trace (s : State) (hw : s.bus.weN = true) : ∀ t ∈ microTrace txnOpen s, BeforeStrobe s t := by
  simp [microTrace, txnOpen, applyMicro, drivePin, pinLevel, hw, BeforeStrobe, Unseen]

/-- `s` when the control lines of a transaction are set. -/
theorem txnOpen_eq (s : State) (hw : s.bus.weN = true) :
    runMicros txnOpen s =
      { s with
        bus := { s.bus with oeN := true, weN := true, ceN := false }
        hidden := { s.hidden with waitCtr := 0 }
        pulses := ⟨false, false⟩ } := by
  simp [txnOpen, applyMicro, drivePin, pinLevel, setBus, observe, pulsesOff, contention, Bus.contention, hw]

/-- CE# is low, WE# high and the chip undisturbed in every state of the shift (R104). -/
theorem txnShift_trace (a : Addr) (s : State) (hw : s.bus.weN = true) :
    ∀ t ∈ microTrace (shiftOps a) (runMicros txnOpen s), BeforeStrobe s t ∧ t.bus.ceN = false :=
  (shift_trace (fun t => BeforeStrobe s t ∧ t.bus.ceN = false) (fun _ _ h => h) (fun _ _ h => h) (fun _ _ h => h) a _
    (by rw [txnOpen_eq s hw]; exact ⟨⟨⟨rfl, rfl⟩, rfl⟩, rfl⟩)).1

/-- `s` when a transaction's address is latched. -/
theorem txnShift_eq (a : Addr) (s : State) (hw : s.bus.weN = true) (hc : s.chain.atRest = true) :
    runMicros (shiftOps a) (runMicros txnOpen s) =
      { s with
        chain := chainOf a
        bus := { s.bus with oeN := true, weN := true, ceN := false }
        hidden := { s.hidden with shiftV := 0, bitIdx := 24, waitCtr := 0 }
        pulses := ⟨false, false⟩ } := by
  obtain ⟨hs, hr⟩ := chain_rest hc
  rw [txnOpen_eq s hw]
  exact shift_eq a _ hs hr

theorem txnStrobe_trace (a : Addr) (b : Byte) (s : State) (hw : s.bus.weN = true) (hc : s.chain.atRest = true) :
    ∀ t ∈ microTrace (txnStrobe b) (runMicros (shiftOps a) (runMicros txnOpen s)),
      Unseen s t ∧ (t.bus.weN = false → PairDriven a b t) := by
  rw [txnShift_eq a s hw hc]
  simp [microTrace, txnStrobe, applyMicro, drivePin, Unseen, PairDriven, chainOf]

/-- Up to the rising edge of WE#: the chip has seen nothing, and where WE# is low the pair is there (R104). -/
theorem txnBefore_trace (a : Addr) (b : Byte) (s : State) (hw : s.bus.weN = true) (hc : s.chain.atRest = true) :
    ∀ t ∈ microTrace (txnOpen ++ (shiftOps a ++ txnStrobe b)) s, Unseen s t ∧ (t.bus.weN = false → PairDriven a b t) := by
  have high : ∀ {t}, BeforeStrobe s t → Unseen s t ∧ (t.bus.weN = false → PairDriven a b t) := fun h =>
    ⟨h.1, fun hlow => absurd (h.2.symm.trans hlow) (by decide)⟩
  intro t ht
  rcases microTrace_append_mem ht with ht | ht
  · exact high (txnOpen_trace s hw t ht)
  · rcases microTrace_append_mem ht with ht | ht
    · exact high (txnShift_trace a s hw t ht).1
    · exact txnStrobe_trace a b s hw hc t ht

/-- `s` in the strobe of a transaction. -/
theorem txnBefore_eq (a : Addr) (b : Byte) (s : State) (hw : s.bus.weN = true) (hc : s.chain.atRest = true) :
    runMicros (txnOpen ++ (shiftOps a ++ txnStrobe b)) s =
      { s with
        chain := chainOf a
        bus := ⟨s.bus.mode, false, true, false, true, b⟩
        hidden := { s.hidden with shiftV := 0, bitIdx := 24, waitCtr := 0 }
        pulses := ⟨false, false⟩ } := by
  rw [runMicros_append, runMicros_append, txnShift_eq a s hw hc]
  simp [txnStrobe, applyMicro, drivePin, setBus, observe, pulsesOff, contention, Bus.contention]

/-- `s` at the rising edge of WE#: one write cycle of the pair (R64). -/
theorem txnEdge_eq (a : Addr) (b : Byte) (s : State) (hw : s.bus.weN = true) (hc : s.chain.atRest = true) :
    applyMicro (.drive .weN true) (runMicros (txnOpen ++ (shiftOps a ++ txnStrobe b)) s) =
      { s with
        chain := chainOf a
        bus := ⟨s.bus.mode, false, true, true, true, b⟩
        hidden := { s.hidden with shiftV := 0, bitIdx := 24, waitCtr := 0 }
        pulses := ⟨false, false⟩
        chip := s.chip.writeCycle (chipAddrOf a) b
        env := { s.env with writeCycles := (chipAddrOf a, b) :: s.env.writeCycles } } := by
  rw [txnBefore_eq a b s hw hc]
  simp [applyMicro, drivePin, pinLevel, weRises_strobe, setBus, observe, pulsesOff, contention, Bus.contention, chipAddr, chainOf]

/-- From the rising edge of WE# on: the pair holds, and the chip has seen exactly its write cycle (R104). -/
theorem txnAfter_trace (a : Addr) (b : Byte) (s : State) (hw : s.bus.weN = true) (hc : s.chain.atRest = true) :
    ∀ t ∈ microTrace txnRelease (applyMicro (.drive .weN true) (runMicros (txnOpen ++ (shiftOps a ++ txnStrobe b)) s)),
      (t.chip = s.chip.writeCycle (chipAddrOf a) b ∧ t.env.writeCycles = (chipAddrOf a, b) :: s.env.writeCycles ∧
        t.chain.q = a ∧ t.bus.dOut = b) ∧ t.bus.weN = true := by
  rw [txnEdge_eq a b s hw hc]
  simp [microTrace, txnRelease, applyMicro, drivePin, chainOf]

/-- Settles O29: every state of the transaction is one before the rising edge of WE#, or one from it on. -/
theorem strobeSeesAddressAndDataStable : Obligations.StrobeSeesAddressAndDataStable := by
  intro a b s h _
  have hw := settled_we h.1
  obtain ⟨hs, hr⟩ := chain_rest h.2
  have hbefore := txnBefore_trace a b s hw h.2
  have hafter := txnAfter_trace a b s hw h.2
  have hlow : ∀ t ∈ microTrace (txnOps a b) s, t.bus.weN = false → PairDriven a b t ∧ Unseen s t := by
    intro t ht hwe
    rw [txnOps_parts, mem_microTrace_append_cons] at ht
    rcases ht with ht | ht
    · exact ⟨(hbefore t ht).2 hwe, (hbefore t ht).1⟩
    · exact absurd ((hafter t ht).2.symm.trans hwe) (by decide)
  refine ⟨txnOps_parts a b, fun t ht => (txnShift_trace a s hw t ht).2, fun t ht hwe => ?_, fun t ht => (hbefore t ht).1, ?_, ?_, ?_,
    fun t ht => (hafter t ht).1, ?_⟩
  · obtain ⟨⟨hq, hd, hce, hoe, hdir⟩, hchip, hcycles⟩ := hlow t ht hwe
    exact ⟨hq, hd, hce, hoe, hdir, hchip, hcycles⟩
  · exact congrArg (fun t => t.bus.weN) (txnBefore_eq a b s hw h.2)
  · exact congrArg (fun t => t.bus.weN) (txnEdge_eq a b s hw h.2)
  · exact congrArg (fun t => t.bus.ceN) (txnEdge_eq a b s hw h.2)
  · rw [txn_eq a b s hs hr hw]

end Sys2Proof.Machine
end

section
/-! PROOFS. OP_WRITE over a stream that ends (O42) and what it leaves in a reference chip (O43); OP_VERIFY_ERASED after OP_ERASE
(O48). -/

namespace Sys2Proof.Machine

open Sys2Proof.Config

/-- Phases that have led from `s` to `t`, the last of them `p`, and then the end of the operation (R114, R120 to R124). -/
theorem PhaseFrame.ended {s t : State} (h : PhaseFrame s t) (hq : t.srcReq = false) (p : Phase) :
    OperationEnded .ok s (phaseEnded p t) :=
  { h with
    rsp := rfl, lastStatus := rfl, busy := rfl, srcReq := hq, seq := rfl, hidden := rfl, pulses := rfl
    responses := congrArg (List.cons (Status.ok, 0x00)) h.responses
    event := rfl }

/-! ### OP_WRITE -/

theorem exec_opWrite {bs : List Byte} {left : List SrcAnswer} {s : State} (h : Ready s) (hst : StreamTaken s.env.answers bs left) :
    ∃ t, exec .opWrite s = .next (phaseEnded .writing t) ∧ WritingDone bs s t ∧ t.env.answers = left ∧
      (s.srcReq = false → t.srcReq = false) := by
  obtain ⟨t, hrun, hwritten, -, ha, hq⟩ := writingPhase_run operationDone bs left s h hst
  exact ⟨t, congrArg Host.Outcome.next hrun, WritingDone.of_written h hst.1 hwritten, ha, hq⟩

/-- Settles O42: `exec_opWrite`, and PHASE_DONE and the response after it. -/
theorem opWriteWritesTheStream : Obligations.OpWriteWritesTheStream := by
  intro s bs left h hreq hst
  obtain ⟨t, hexec, hd, ha, hq⟩ := exec_opWrite h hst
  refine ⟨_, hexec, hd.frame.ended (hq hreq) .writing, ?_, hd.chip, hd.writeCycles, ?_, ha, hd.bus, (hd.ready h).1, hd.chain⟩
  · show { t.orch with phase := .idle } = _
    rw [hd.orch]
  · show doneEvent .writing t.orch.resNext t.orch.resCount :: t.env.sink = _
    rw [hd.orch, hd.sink]

/-- Settles O43: the pairs the chip has seen are the stream's from address 0 on. -/
theorem opWriteProgramsExactlyTheStream : Obligations.OpWriteProgramsExactlyTheStream := by
  intro s bs left h hst hc hwf
  obtain ⟨t, hexec, hd, -, -⟩ := exec_opWrite h hst
  refine ⟨_, hexec, fun a => ?_⟩
  have hread := read_afterStream bs 0 s.chip a (by rw [Nat.zero_add]; exact hst.1) hc hwf
  rw [if_neg (Nat.not_lt_zero _), Nat.sub_zero, ← streamByte_eq] at hread
  exact (congrArg (fun c => memRead c.array a) hd.chip).trans hread

/-! ### OP_VERIFY_ERASED on an erased chip -/

theorem exec_opVerifyErased (s : State) (h : Ready s) :
    ∃ t, exec .opVerifyErased s = .next (phaseEnded .verifyingErased t) ∧
      VerifyDone .verifyingErased (List.replicate maxAddress erased) s t := by
  obtain ⟨t, hrun, hscan, -, -⟩ := verifyErasedPhase_run operationDone s h
  exact ⟨t, congrArg Host.Outcome.next hrun, VerifyDone.of_scanned h (Nat.le_of_eq List.length_replicate) hscan⟩

/-- A scan of a chip that drives the expected byte everywhere finds nothing (R129). -/
theorem scanEvents_clean (p : Phase) (c : Chip) (e : Byte) (i k : Count) (n : Nat) (h : ∀ a, c.output a = e) :
    scanEvents p c i k (List.replicate n e) = [] := by
  induction n generalizing i with
  | zero => rfl
  | succ n ih => rw [List.replicate_succ, scanEvents, if_pos (h _), ih]

/-- What OP_VERIFY_ERASED leaves on a chip that drives 0xFF everywhere (R121). -/
theorem exec_opVerifyErased_clean (s : State) (h : Ready s) (hout : ∀ a, s.chip.output a = erased) :
    ∃ u, exec .opVerifyErased s = .next u ∧ u.rsp = ⟨.ok, 0x00⟩ ∧ u.orch = ⟨.idle, 0, 0x80000⟩ ∧
      u.env.sink = doneEvent .verifyingErased 0x80000 0 :: startEvent .verifyingErased :: s.env.sink := by
  obtain ⟨t, hexec, hd⟩ := exec_opVerifyErased s h
  have hevents := scanEvents_clean .verifyingErased s.chip erased 0 0 maxAddress hout
  have hcount : mismatches s.chip 0 (List.replicate maxAddress erased) = 0 := by
    rw [← scanEvents_length .verifyingErased s.chip 0 0, hevents, List.length_nil]
  have horch : t.orch = ⟨.verifyingErased, 0, 0x80000⟩ := by
    rw [hd.orch, hcount, List.length_replicate]
    rfl
  refine ⟨_, hexec, rfl, ?_, ?_⟩
  · show { t.orch with phase := .idle } = _
    rw [horch]
  · show doneEvent .verifyingErased t.orch.resNext t.orch.resCount :: t.env.sink = _
    rw [horch, hd.sink, hevents]
    rfl

theorem output_erased (c : Chip) (hs : c.stuck = []) (a : ChipAddr) : { c with array := memErase }.output a = erased := by
  rw [Chip.output, hs]
  rfl

/-- Settles O48: OP_ERASE leaves a chip that drives 0xFF everywhere. -/
theorem erasedChipVerifiesClean : Obligations.ErasedChipVerifiesClean := by
  intro s h _ hc hs
  have hready : Ready (phaseEnded .erasing (erasingDone s)) := ⟨rfl, rfl⟩
  have hchip : (phaseEnded .erasing (erasingDone s)).chip = { s.chip with array := memErase } :=
    (erasingDone_chip s).trans (afterPairs_erase s.chip hc)
  obtain ⟨u, hexec, hrsp, horch, hsink⟩ :=
    exec_opVerifyErased_clean _ hready fun a => by rw [hchip, output_erased s.chip hs a]
  refine ⟨_, u, exec_opErase s h, hexec, hrsp, horch, ?_, hsink⟩
  rw [lastAddressProcessed, horch]
  rfl

end Sys2Proof.Machine
end

section
/-! PROOFS. The decoder and the encoder (O1, O2, O4), and the reserved opcodes (O50): a command is its opcode and its fields, and
the decoder reads the fields its opcode lists. -/

namespace Sys2Proof

open Sys2Proof.Machine

/-! ### Round trips -/

/-- R70, R72: each row of the decoder's table answers the row of the encoder's. -/
theorem decode_encode (i : Instr) : decode (encode i) = i := by
  cases i <;> simp [decode, encode, Instr.opcode, Instr.addrBits, Instr.dataBits]

/-- A command is its opcode and its fields: they are all its word is made of. -/
theorem Instr.ext_fields {i j : Instr} (ho : i.opcode = j.opcode) (ha : i.addrBits = j.addrBits) (hd : i.dataBits = j.dataBits) :
    i = j := by
  rw [← decode_encode i, ← decode_encode j, encode, encode, ho, ha, hd]

/-- R72, R73: what the decoder reads of a word, its opcode and the fields that row lists. -/
theorem decode_fields (w : CmdWord) :
    (decode w).opcode = opField w ∧ (decode w).addrBits = (if listsAddr (opField w) then addrField w else 0) ∧
      (decode w).dataBits = if listsData (opField w) then dataField w else 0 := by
  rcases opcode_cases (opField w) with h | h | h | h | h | h | h | h | h | h | h | h | h | h | h | h <;>
    simp [decode, h, Instr.opcode, Instr.addrBits, Instr.dataBits, listsAddr, listsData]

theorem decode_opcode (w : CmdWord) : (decode w).opcode = opField w := (decode_fields w).1

/-- R73, R83: the word of the decoded command is the word with its unlisted fields at zero. -/
theorem encode_decode (w : CmdWord) : encode (decode w) = unlistedZeroed w := by
  obtain ⟨ho, ha, hd⟩ := decode_fields w
  rw [encode, ho, ha, hd, unlistedZeroed]

/-- R73: the decoder sees no difference where the unlisted fields are zeroed. -/
theorem decode_unlistedZeroed (w : CmdWord) : decode (unlistedZeroed w) = decode w := by
  rw [← encode_decode, decode_encode]

/-- Settles O1: `decode_encode`. -/
theorem decodeOfEncodeIsTheCommand : Obligations.DecodeOfEncodeIsTheCommand := decode_encode

/-- Settles O2: the decoded command has the word's opcode, and a command is its opcode and its fields. -/
theorem everyWordSelectsItsOpcodeRow : Obligations.EveryWordSelectsItsOpcodeRow := fun w =>
  ⟨decode_opcode w, fun _ ho ha hd => Instr.ext_fields (ho.trans (decode_opcode w).symm) ha hd⟩

/-- Settles O4: each word's opcode selects its row, and the listed fields are read. -/
theorem exampleWordsDecode : Obligations.ExampleWordsDecode := ⟨rfl, rfl, rfl, rfl⟩

/-! ### Reserved opcodes -/

theorem legal_eq_false_iff (i : Instr) :
    i.legal = false ↔ i.opcode = 0x0 ∨ i.opcode = 0xD ∨ i.opcode = 0xE ∨ i.opcode = 0xF :=
  (Laws.EncodeFields.every i).2.2.2

/-- R136: the list of an illegal command is the error alone. -/
theorem program_of_illegal {i : Instr} (h : i.legal = false) : program i = progReserved := by
  cases i with
  | reserved0 | reservedD | reservedE | reservedF => rfl
  | _ => cases h

/-- Settles O50: the decoded opcode is the word's, and the four illegal commands run one list, `raise Err(E_ILLEGAL_OP)`. -/
theorem reservedOpcodesAreIllegal : Obligations.ReservedOpcodesAreIllegal := by
  refine ⟨fun w => ?_, fun i s h => ?_⟩
  · rw [legal_eq_false_iff, decode_opcode]
  · rw [exec_eq_runProgram, program_of_illegal h, progReserved, runProgram_stop rfl]
    rfl

end Sys2Proof
end

section
/-! PROOFS. Assembly of the text form (O5, O6): which text commands assemble, and to which word (30_encoding.md R83). -/

namespace Sys2Proof.Machine

/-! ### Words of numbers -/

/-- R70, R83: packing numbers that fit their fields puts each at its place and cuts nothing off. -/
theorem packWord_ofNat {op a d : Nat} (ho : op < 2 ^ 4) (ha : a < 2 ^ 24) (hd : d < 2 ^ 8) :
    packWord (BitVec.ofNat 4 op) (BitVec.ofNat 24 a) (BitVec.ofNat 8 d) = BitVec.ofNat 36 (op <<< 32 ||| a <<< 8 ||| d) := by
  apply BitVec.eq_of_toNat_eq
  have hlt : op <<< 32 ||| a <<< 8 ||| d < 2 ^ 36 :=
    Nat.or_lt_two_pow (Nat.or_lt_two_pow (by rw [Nat.shiftLeft_eq]; omega) (by rw [Nat.shiftLeft_eq]; omega)) (by omega)
  rw [BitVec.toNat_ofNat, Nat.mod_eq_of_lt hlt, packWord]
  simp only [BitVec.toNat_append, BitVec.toNat_ofNat, Nat.mod_eq_of_lt ho, Nat.mod_eq_of_lt ha, Nat.mod_eq_of_lt hd,
    Nat.shiftLeft_or_distrib, ← Nat.shiftLeft_add]

/-! ### Operands -/

theorem operandsFit_length {ks : List OperandKind} {ns : List Nat} (h : operandsFit ks ns = true) : ks.length = ns.length := by
  induction ks generalizing ns with
  | nil => cases ns with
    | nil => rfl
    | cons n ns => cases h
  | cons k ks ih => cases ns with
    | nil => cases h
    | cons n ns =>
      obtain ⟨-, hrest⟩ := Bool.and_eq_true_iff.mp h
      exact congrArg (· + 1) (ih hrest)

/-- R83: an operand among checked ones is in its range, and so is the 0 of an omitted field. -/
theorem operandOf_fits (k : OperandKind) {ks : List OperandKind} {ns : List Nat} (h : operandsFit ks ns = true) :
    k.fits (operandOf k ks ns) = true := by
  induction ks generalizing ns with
  | nil => cases k <;> rfl
  | cons k' ks ih => cases ns with
    | nil => cases h
    | cons n ns =>
      obtain ⟨hn, hrest⟩ := Bool.and_eq_true_iff.mp h
      rw [operandOf]
      split
      · next hk => exact hk ▸ hn
      · exact ih hrest

/-! ### Mnemonics -/

/-- The command a mnemonic and its operands name, row by row: its opcode and fields are the numbers of the text (R72, R83). -/
structure NamesCommand (c : AsmCommand) (ks : List OperandKind) (i : Instr) : Prop where
  command : commandOf c.mnemonic c.operands = some i
  legal : i.legal = true
  opcode : i.opcode = BitVec.ofNat 4 (textOpcode c.mnemonic)
  addr : i.addrBits = BitVec.ofNat 24 (operandOf .addr ks c.operands)
  data : i.dataBits = BitVec.ofNat 8 (operandOf .data ks c.operands)

theorem textOpcode_lt (m : String) : textOpcode m < 2 ^ 4 := by
  unfold textOpcode
  split <;> decide

/-- The mnemonics by the operands they take (R72). -/
theorem operandKinds_cases {m : String} {ks : List OperandKind} (h : operandKinds m = some ks) :
    (ks = [] ∧ m ∈ ["ENTER_READ", "ENTER_WRITE", "ERASE_CHIP", "OP_ERASE", "OP_VERIFY_ERASED", "OP_WRITE", "OP_VERIFY_WRITTEN",
        "OP_PROGRAM"]) ∨
      (ks = [.addr] ∧ m ∈ ["SHIFT_ADDR", "READ_BYTE"]) ∨ (ks = [.data] ∧ m = "SET_DATA") ∨
        (ks = [.addr, .data] ∧ m = "WRITE_BYTE") := by
  unfold operandKinds at h
  split at h <;> cases h <;> decide

/-- R72, R83: a known mnemonic with as many operands as it takes names a command. -/
theorem names_of_length {c : AsmCommand} {ks : List OperandKind} (hk : operandKinds c.mnemonic = some ks)
    (hlen : ks.length = c.operands.length) : ∃ i, NamesCommand c ks i := by
  obtain ⟨m, ns⟩ := c
  rcases operandKinds_cases hk with ⟨rfl, hm⟩ | ⟨rfl, hm⟩ | ⟨rfl, rfl⟩ | ⟨rfl, rfl⟩
  · obtain rfl := List.length_eq_zero_iff.mp hlen.symm
    simp only [List.mem_cons, List.not_mem_nil, or_false] at hm
    rcases hm with rfl | rfl | rfl | rfl | rfl | rfl | rfl | rfl <;> exact ⟨_, rfl, rfl, rfl, rfl, rfl⟩
  · obtain ⟨a, rfl⟩ := List.length_eq_one_iff.mp hlen.symm
    simp only [List.mem_cons, List.not_mem_nil, or_false] at hm
    rcases hm with rfl | rfl <;> exact ⟨_, rfl, rfl, rfl, rfl, rfl⟩
  · obtain ⟨d, rfl⟩ := List.length_eq_one_iff.mp hlen.symm
    exact ⟨_, rfl, rfl, rfl, rfl, rfl⟩
  · match ns, hlen with
    | [a, d], _ => exact ⟨_, rfl, rfl, rfl, rfl, rfl⟩

/-- The command's word is the text's: the operands that fit are not truncated (R83). -/
theorem NamesCommand.encode_eq {c : AsmCommand} {ks : List OperandKind} {i : Instr} (h : NamesCommand c ks i)
    (hk : operandKinds c.mnemonic = some ks) (hf : operandsFit ks c.operands = true) :
    encode i = BitVec.ofNat 36 (textWord c) := by
  have ha : operandOf .addr ks c.operands ≤ 0xFFFFFF := of_decide_eq_true (operandOf_fits .addr hf)
  have hd : operandOf .data ks c.operands ≤ 0xFF := of_decide_eq_true (operandOf_fits .data hf)
  rw [encode, h.opcode, h.addr, h.data, packWord_ofNat (textOpcode_lt _) (by omega) (by omega), textWord, hk]
  rfl

/-! ### The checks of the assembler -/

theorem assembleCommand_of_fit {c : AsmCommand} {ks : List OperandKind} {i : Instr} (hk : operandKinds c.mnemonic = some ks)
    (hf : operandsFit ks c.operands = true) (hi : commandOf c.mnemonic c.operands = some i) :
    assembleCommand c = .ok (encode i) := by
  simp [assembleCommand, hk, operandsFit_length hf, hf, hi]

theorem assembleCommand_of_range {c : AsmCommand} {ks : List OperandKind} (hk : operandKinds c.mnemonic = some ks)
    (hlen : ks.length = c.operands.length) (hf : operandsFit ks c.operands = false) :
    assembleCommand c = .error .operandRange := by
  simp [assembleCommand, hk, hlen, hf]

theorem assembleCommand_of_count {c : AsmCommand} {ks : List OperandKind} (hk : operandKinds c.mnemonic = some ks)
    (hlen : ks.length ≠ c.operands.length) : assembleCommand c = .error .operandCount := by
  simp [assembleCommand, hk, hlen]

theorem assembleCommand_of_unknown {c : AsmCommand} (hk : operandKinds c.mnemonic = none) :
    assembleCommand c = .error .unknownMnemonic := by
  simp [assembleCommand, hk]

/-- Settles O5: a text command that passes the checks names a command, whose word is the text's; each failed check is an error. -/
theorem assemblyAcceptsExactlyWellFormedCommands : Obligations.AssemblyAcceptsExactlyWellFormedCommands := by
  intro c
  rw [AsmCommand.wellFormed]
  cases hk : operandKinds c.mnemonic with
  | none => exact ⟨nofun, fun _ => ⟨_, assembleCommand_of_unknown hk⟩⟩
  | some ks =>
    refine ⟨fun hf => ?_, fun hf => ?_⟩
    · obtain ⟨i, hi⟩ := names_of_length hk (operandsFit_length hf)
      rw [← hi.encode_eq hk hf, decode_encode]
      exact ⟨assembleCommand_of_fit hk hf hi.command, hi.legal⟩
    · by_cases hlen : ks.length = c.operands.length
      · exact ⟨_, assembleCommand_of_range hk hlen hf⟩
      · exact ⟨_, assembleCommand_of_count hk hlen⟩

/-- Settles O6: the count of operands is right, and the one out of range does not fit. -/
theorem operandOutOfRangeIsAnError : Obligations.OperandOutOfRangeIsAnError := by
  intro a d
  refine ⟨fun ha => ?_, fun hd => ?_⟩
  · have hfit : OperandKind.addr.fits a = false := decide_eq_false (Nat.not_le.mpr ha)
    refine ⟨?_, ?_, ?_⟩ <;> exact assembleCommand_of_range rfl rfl (by simp [operandsFit, hfit])
  · have hfit : OperandKind.data.fits d = false := decide_eq_false (Nat.not_le.mpr hd)
    refine ⟨?_, ?_⟩ <;> exact assembleCommand_of_range rfl rfl (by simp [operandsFit, hfit])

end Sys2Proof.Machine
end

section
/-! PROOFS. A whole command runs alike whatever stands in the command latch (O3): no operation reads the latch, the only register in
which the fields are kept that an opcode does not list (30_encoding.md R73). -/

namespace Sys2Proof.Machine

/-- A flow with another command latch and other words presented, whether it goes on or stops. -/
def Flow.withPort (l : CmdLatch) (ws : List CmdWord) : Flow → Flow
  | .goOn s => .goOn (Machine.withPort l ws s)
  | .stop s => .stop (Machine.withPort l ws s)

/-- `readCompare` in Read mode: what is sampled after the address is presented is compared (R96). -/
theorem readCompare_of_read (e : Byte) {s : State} (h : s.bus.mode = .read) :
    readCompare e s =
      .goOn (compareRecord (presentRead (scanAddr s) s).hidden.scanA e (dataIn (presentRead (scanAddr s) s))
        (sampleCycle (presentRead (scanAddr s) s))) := if_pos h

section
variable (l : CmdLatch) (ws : List CmdWord)

theorem runMicros_withPort (ms : List MicroOp) (s : State) : runMicros ms (withPort l ws s) = withPort l ws (runMicros ms s) := by
  induction ms generalizing s with
  | nil => rfl
  | cons m ms ih => rw [runMicros_cons, applyMicro_withPort, ih, runMicros_cons]

theorem presentRead_withPort (a : Addr) (s : State) : presentRead a (withPort l ws s) = withPort l ws (presentRead a s) := by
  rw [presentRead, shift, runMicros_withPort, applyMicro_withPort, ← shift, ← presentRead]

theorem ensureWrite_withPort (s : State) : ensureWrite (withPort l ws s) = withPort l ws (ensureWrite s) :=
  runMicros_withPort l ws (ensureWriteOps s) s

theorem writeByte_withPort (a : Addr) (b : Byte) (s : State) :
    writeByte a b (withPort l ws s) = withPort l ws (writeByte a b s) := by
  rw [writeByte, ensureWrite_withPort, runMicros_withPort, ← writeByte]

theorem eraseChip_withPort (s : State) : eraseChip (withPort l ws s) = withPort l ws (eraseChip s) := by
  rw [eraseChip, ensureWrite_withPort, runMicros_withPort, ← eraseChip]

theorem compareRecord_withPort (a : Count) (e v : Byte) (s : State) :
    compareRecord a e v (withPort l ws s) = withPort l ws (compareRecord a e v s) := by
  simp only [compareRecord, apply_ite (withPort l ws)]
  rfl

theorem nextScan_withPort (s : State) : nextScan (withPort l ws s) = withPort l ws (nextScan s) := rfl

theorem takeAnswer_withPort (more : List SrcAnswer) (s : State) :
    takeAnswer more (withPort l ws s) = withPort l ws (takeAnswer more s) := rfl

/-- The sample, and what is done with its byte (R116, R118). -/
theorem sampleCompare_withPort (e : Byte) (s : State) :
    compareRecord (withPort l ws s).hidden.scanA e (dataIn (withPort l ws s)) (sampleCycle (withPort l ws s)) =
      withPort l ws (compareRecord s.hidden.scanA e (dataIn s) (sampleCycle s)) :=
  compareRecord_withPort l ws s.hidden.scanA e (dataIn s) (sampleCycle s)

theorem readCompare_withPort (e : Byte) (s : State) : readCompare e (withPort l ws s) = (readCompare e s).withPort l ws := by
  by_cases hm : s.bus.mode = .read
  · have hm' : (withPort l ws s).bus.mode = .read := hm
    have hscan : scanAddr (withPort l ws s) = scanAddr s := rfl
    rw [readCompare_of_read e hm, readCompare_of_read e hm', hscan, presentRead_withPort, sampleCompare_withPort, Flow.withPort]
  · rw [readCompare, readCompare, if_neg hm, if_neg (show (withPort l ws s).bus.mode ≠ .read from hm)]
    rfl

theorem byteTurn_withPort (b : ByteLoop) (v : Byte) (s : State) :
    byteTurn b v (withPort l ws s) = (byteTurn b v s).withPort l ws := by
  cases b with
  | write =>
    have hscan : scanAddr (withPort l ws s) = scanAddr s := rfl
    rw [byteTurn, byteTurn, hscan, writeByte_withPort, nextScan_withPort, Flow.withPort]
  | verify =>
    simp only [byteTurn, readCompare_withPort]
    cases readCompare v s <;> rfl

/-- A request runs alike if the turns after it do. -/
theorem requestTurn_withPort (b : ByteLoop) {again : State → Flow} (rest : List Item) (s : State)
    (h : ∀ s, again (withPort l ws s) = (again s).withPort l ws) :
    requestTurn b again rest (withPort l ws s) = (requestTurn b again rest s).withPort l ws := by
  unfold requestTurn
  rw [show (withPort l ws s).env.answers = s.env.answers from rfl]
  cases s.env.answers with
  | nil => rfl
  | cons a more =>
    cases hr : a.result with
    | byte v =>
      simp only [hr, takeAnswer_withPort, byteTurn_withPort]
      cases byteTurn b v (takeAnswer more s) with
      | goOn t => exact h t
      | stop t => rfl
    | eos | ioerr => simp only [hr]; rfl

theorem runByteLoop_withPort (b : ByteLoop) (rest : List Item) (n : Nat) (s : State) :
    runByteLoop b rest n (withPort l ws s) = (runByteLoop b rest n s).withPort l ws := by
  induction n generalizing s with
  | zero => rfl
  | succ n ih => exact requestTurn_withPort l ws b rest s ih

theorem runScanErased_withPort (n : Nat) (s : State) :
    runScanErased n (withPort l ws s) = (runScanErased n s).withPort l ws := by
  induction n generalizing s with
  | zero => rfl
  | succ n ih =>
    simp only [runScanErased, readCompare_withPort]
    cases readCompare Config.erased s with
    | goOn t => exact ih (nextScan t)
    | stop t => rfl

theorem runItem_withPort (i : Item) (rest : List Item) (s : State) :
    runItem i rest (withPort l ws s) = (runItem i rest s).withPort l ws := by
  cases i with
  | micro m => exact congrArg Flow.goOn (applyMicro_withPort l ws m s)
  | shift v => exact congrArg Flow.goOn (runMicros_withPort l ws (shiftOps v) s)
  | enterRead => exact congrArg Flow.goOn (runMicros_withPort l ws enterReadOps s)
  | enterWrite => exact congrArg Flow.goOn (runMicros_withPort l ws enterWriteOps s)
  | ensureWrite => exact congrArg Flow.goOn (ensureWrite_withPort l ws s)
  | writeByte a b => exact congrArg Flow.goOn (writeByte_withPort l ws a b s)
  | eraseChip => exact congrArg Flow.goOn (eraseChip_withPort l ws s)
  | require => simp only [runItem, apply_ite (Flow.withPort l ws)]; rfl
  | sample u => cases u with
    | toHost => rfl
    | compareWith e => exact congrArg Flow.goOn (compareRecord_withPort l ws s.hidden.scanA e (dataIn s) (sampleCycle s))
  | compareRecord e v => exact congrArg Flow.goOn (compareRecord_withPort l ws s.hidden.scanA e v s)
  | scanErased => exact runScanErased_withPort l ws (scanLeft s) s
  | byteLoop b => exact runByteLoop_withPort l ws b rest (scanLeft s) s
  | reqByte b => exact requestTurn_withPort l ws b rest s fun t => runByteLoop_withPort l ws b rest (scanLeft t) t
  | gotByte b r => cases r with
    | byte v =>
      have hturn := byteTurn_withPort l ws b v { s with srcReq := false }
      simp only [runItem]
      rw [show ({ withPort l ws s with srcReq := false } : State) = withPort l ws { s with srcReq := false } from rfl, hturn]
      cases byteTurn b v { s with srcReq := false } with
      | goOn t => exact runByteLoop_withPort l ws b rest (scanLeft t) t
      | stop t => rfl
    | eos | ioerr => rfl
  | _ => rfl

theorem runProgram_withPort (is : List Item) (s : State) : runProgram is (withPort l ws s) = withPort l ws (runProgram is s) := by
  induction is generalizing s with
  | nil => rfl
  | cons i rest ih =>
    simp only [runProgram, runItem_withPort]
    cases runItem i rest s with
    | goOn t => exact ih t
    | stop t => rfl

end

/-- A list of SEQ leaves the words presented: it runs alike whatever they are, so with those there are. -/
theorem runProgram_hostWords (is : List Item) (s : State) : (runProgram is s).env.hostWords = s.env.hostWords :=
  (congrArg (fun t => t.env.hostWords) (runProgram_withPort s.latch s.env.hostWords is s) :)

/-- R73: no command reads the latch, and none writes it. -/
theorem runProgram_withLatch (l : CmdLatch) (is : List Item) (s : State) :
    runProgram is { s with latch := l } = { runProgram is s with latch := l } := by
  have hrun : runProgram is { s with latch := l } = withPort l s.env.hostWords (runProgram is s) :=
    runProgram_withPort l s.env.hostWords is s
  rw [hrun, ← runProgram_hostWords is s]
  rfl

/-- Settles O3: zeroing the unlisted fields leaves what the decoder reads, and a command's list runs alike with any latch. -/
theorem unlistedFieldsAreIgnored : Obligations.UnlistedFieldsAreIgnored := by
  refine ⟨fun w => (decode_unlistedZeroed w).symm, fun i l s t h => ?_, rfl⟩
  rw [exec_eq_runProgram] at h ⊢
  rw [runProgram_withLatch, Host.Outcome.next.inj h]

end Sys2Proof.Machine
end

section
/-! PROOFS. The command sequences: the pairs they send (O31, O33), and what stands still in every state of them (O30). -/

namespace Sys2Proof.Machine

/-- Settles O31: `exec_writeByte`, its unlock pairs written as 24-bit addresses. -/
theorem writeByteSendsItsFourPairs : Obligations.WriteByteSendsItsFourPairs := exec_writeByte

/-- Settles O33: `exec_eraseChip`, its pairs written as 24-bit addresses. -/
theorem eraseChipSendsItsSixPairs : Obligations.EraseChipSendsItsSixPairs := exec_eraseChip

/-! ### No interruption point -/

/-- Since `s` nothing has been requested, answered or sent, and PHASE, the results, BUSY and the mode are as they were (R111). -/
def Undisturbed (s t : State) : Prop :=
  t.srcReq = s.srcReq ∧ t.env.answers = s.env.answers ∧ t.env.sink = s.env.sink ∧
    t.env.responses = s.env.responses ∧ t.bus.mode = s.bus.mode ∧ t.orch = s.orch ∧ t.busy = s.busy

theorem Undisturbed.trans {s t u : State} (h : Undisturbed s t) (h' : Undisturbed t u) : Undisturbed s u := by
  obtain ⟨h1, h2, h3, h4, h5, h6, h7⟩ := h
  obtain ⟨h1', h2', h3', h4', h5', h6', h7'⟩ := h'
  exact ⟨h1'.trans h1, h2'.trans h2, h3'.trans h3, h4'.trans h4, h5'.trans h5, h6'.trans h6, h7'.trans h7⟩

theorem weRises_undisturbed (s : State) : Undisturbed s (weRises s) := by
  unfold weRises
  split <;> exact ⟨rfl, rfl, rfl, rfl, rfl, rfl, rfl⟩

/-- `BUS_MODE <- m`, the one micro-operation that writes the mode (R91, R93). -/
def MicroOp.setsMode : MicroOp → Bool
  | .setMode _ => true
  | _ => false

theorem applyMicro_undisturbed {m : MicroOp} (hm : m.setsMode = false) (s : State) : Undisturbed s (applyMicro m s) := by
  cases m with
  | setMode => cases hm
  | drive p v =>
    cases p with
    | weN =>
      simp only [applyMicro, drivePin]
      split
      · obtain ⟨hq, ha, hs, hr, hb, ho, hbusy⟩ := weRises_undisturbed s
        exact ⟨hq, ha, hs, hr, rfl, ho, hbusy⟩
      · exact ⟨rfl, rfl, rfl, rfl, rfl, rfl, rfl⟩
    | _ => exact ⟨rfl, rfl, rfl, rfl, rfl, rfl, rfl⟩
  | _ => exact ⟨rfl, rfl, rfl, rfl, rfl, rfl, rfl⟩

/-- The operations of a sequence leave the mode: they are those that keep its lines. -/
theorem setsMode_of_sequence_op {m : MicroOp} (h : m.still = true ∨ m = .drive .oeN true ∨ ∃ b, m = .busOutput b) :
    m.setsMode = false := by
  rcases h with h | rfl | ⟨b, rfl⟩
  · cases m with
    | setMode => cases h
    | _ => rfl
  · rfl
  · rfl

theorem microTrace_undisturbed {ms : List MicroOp} (h : ∀ m ∈ ms, m.setsMode = false) (s : State) :
    ∀ t ∈ microTrace ms s, Undisturbed s t :=
  (microTrace_invariant (Undisturbed s) ms s ⟨rfl, rfl, rfl, rfl, rfl, rfl, rfl⟩
    fun m hm _ ht => ht.trans (applyMicro_undisturbed (h m hm) _)).1

/-- Settles O30: both sequences are made of micro-operations that leave the mode, and no micro-operation does the rest. -/
theorem sequencesHaveNoInterruptionPoint : Obligations.SequencesHaveNoInterruptionPoint := by
  intro a b s hmode t ht
  have h : Undisturbed s t := by
    rcases List.mem_append.mp ht with ht | ht
    · exact microTrace_undisturbed (fun m hm => setsMode_of_sequence_op (replay_ops 0 _ m hm)) s t ht
    · exact microTrace_undisturbed (fun m hm => setsMode_of_sequence_op (eraseChip_ops m hm)) s t ht
  exact hmode ▸ h

end Sys2Proof.Machine
end

section
/-! PROOFS. What `compareRecord`, `beginPhase` and `endPhase` write (O37, O38), and a workflow operation whose byte source gives
IOERR (O45): the phases run so far, then the abort. -/

namespace Sys2Proof.Machine

/-- Settles O37: the comparator of equal bytes and of differing bytes. -/
theorem recordCountsAndEmitsEachMismatch : Obligations.RecordCountsAndEmitsEachMismatch := by
  intro a e v s
  refine ⟨fun h => ?_, fun h => ?_⟩
  · have hc : comparator e v = false := bne_eq_false_iff_eq.mpr h
    simp [compareRecord, hc]
  · exact if_pos (bne_iff_ne.mpr h)

/-- Settles O38: both are one `emit`, `beginPhase` after its register writes. -/
theorem phasesOpenClearedAndCloseWithTheirResult : Obligations.PhasesOpenClearedAndCloseWithTheirResult :=
  fun _ _ => ⟨rfl, rfl⟩

/-! ### IOERR -/

/-- `t` after an IOERR has ended its operation in phase `p`, the answers `left` remaining: FAULT, the results, the pins, the chain
and the chip are those of `t` (R119, R139). -/
def ioFailed (p : Phase) (left : List SrcAnswer) (t : State) : State :=
  { t with
    orch := { t.orch with phase := .failed }
    lastStatus := .eIo
    busy := false
    rsp := ⟨.eIo, 0⟩
    ev := failEvent p t
    pulses := ⟨false, false⟩
    srcReq := false
    seq := []
    hidden := Hidden.zero
    env := { t.env with
      answers := left
      sink := failEvent p t :: t.env.sink
      responses := (.eIo, 0) :: t.env.responses } }

theorem abort_takeAnswer (p : Phase) (left : List SrcAnswer) (t : State) : abort p (takeAnswer left t) = ioFailed p left t := rfl

/-- Phases that have led from `s` to `t`, and then an IOERR (R119). -/
theorem PhaseFrame.ioFailed {s t : State} (h : PhaseFrame s t) (p : Phase) (left : List SrcAnswer) :
    OperationEnded .eIo s (ioFailed p left t) :=
  { h with
    rsp := rfl, lastStatus := rfl, busy := rfl, srcReq := rfl, seq := rfl, hidden := rfl, pulses := rfl
    responses := congrArg (List.cons (Status.eIo, 0x00)) h.responses
    event := rfl }

theorem ioFailed_orch {p q : Phase} {n c : Count} {t : State} (h : t.orch = ⟨p, c, n⟩) (left : List SrcAnswer) :
    (ioFailed q left t).orch = ⟨.failed, c, n⟩ := by
  show { t.orch with phase := .failed } = _
  rw [h]

theorem ioFailed_sink {p q : Phase} {n a c : Count} {t : State} (ha : t.hidden.scanA = a) (ho : t.orch = ⟨p, c, n⟩)
    (left : List SrcAnswer) : (ioFailed q left t).env.sink = ⟨.fail, q, a, 0, 0, c⟩ :: t.env.sink := by
  show Event.mk _ _ t.hidden.scanA _ _ t.orch.resCount :: t.env.sink = _
  rw [ha, ho]

/-- R119: IOERR in Writing, from the state `s` the phase began in. -/
theorem writingPhase_ioFailed (rest : List Item) {bs : List Byte} {left : List SrcAnswer} {s : State} (h : Ready s)
    (hst : StreamFails s.env.answers bs left) :
    ∃ t, runProgram (writingPhase ++ rest) s = ioFailed .writing left t ∧ WritingDone bs s t := by
  obtain ⟨t, hrun, hwritten⟩ := writingPhase_fails rest bs left s h hst
  exact ⟨t, hrun.trans (abort_takeAnswer _ left t), WritingDone.of_written h (Nat.le_of_lt hst.1) hwritten⟩

/-- R119: IOERR in VerifyingWritten, from the state `s` the phase began in. -/
theorem verifyWrittenPhase_ioFailed (rest : List Item) {es : List Byte} {left : List SrcAnswer} {s : State} (h : Ready s)
    (hst : StreamFails s.env.answers es left) :
    ∃ t, runProgram (verifyWrittenPhase ++ rest) s = ioFailed .verifyingWritten left t ∧ VerifyDone .verifyingWritten es s t := by
  obtain ⟨t, hrun, hscan⟩ := verifyWrittenPhase_fails rest es left s h hst
  exact ⟨t, hrun.trans (abort_takeAnswer _ left t), VerifyDone.of_scanned h (Nat.le_of_lt hst.1) hscan⟩

/-- Settles O45: each operation up to the phase that fails, then that phase by the lemma about its IOERR. -/
theorem sourceErrorAbortsThePhase : Obligations.SourceErrorAbortsThePhase := by
  intro s left h _
  refine ⟨fun bs hst => ⟨?_, ?_, ?_⟩, fun bs cs mid htaken hst => ?_⟩
  · obtain ⟨t, hrun, hd⟩ := writingPhase_ioFailed operationDone h hst
    exact ⟨_, congrArg Host.Outcome.next hrun, hd.frame.ioFailed _ left, ioFailed_orch hd.orch left,
      (ioFailed_sink hd.scanA hd.orch left).trans (by rw [hd.sink]), hd.chip, hd.writeCycles, rfl, hd.bus, hd.chain⟩
  · obtain ⟨t, hrun, hd⟩ := verifyWrittenPhase_ioFailed operationDone h hst
    exact ⟨_, congrArg Host.Outcome.next hrun, hd.frame.ioFailed _ left, ioFailed_orch hd.orch left,
      (ioFailed_sink hd.scanA hd.orch left).trans (by rw [hd.sink]), hd.chip, hd.writeCycles, rfl, hd.bus, hd.chain⟩
  · obtain ⟨u, hstart, hu⟩ := program_start (writingPhase ++ (verifyWrittenPhase ++ operationDone)) s h
    obtain ⟨t, hrun, hd⟩ := writingPhase_ioFailed (verifyWrittenPhase ++ operationDone) hu.ready (hu.answers ▸ hst)
    exact ⟨_, congrArg Host.Outcome.next (hstart.trans hrun), (hu.frame.trans hd.frame).ioFailed _ left, ioFailed_orch hd.orch left,
      (ioFailed_sink hd.scanA hd.orch left).trans (by rw [hd.sink, hu.sink]), hd.chip.trans (by rw [hu.chip]),
      programCycles hu.writeCycles hd.writeCycles, rfl, hd.bus, hd.chain.trans (by rw [hu.chain])⟩
  · obtain ⟨u, hstart, hu⟩ := progOpProgram_written h htaken
    obtain ⟨t, hrun, hd⟩ := verifyWrittenPhase_ioFailed operationDone hu.ready (hu.answers ▸ hst)
    exact ⟨_, congrArg Host.Outcome.next (hstart.trans hrun), (hu.frame.trans hd.frame).ioFailed _ left,
      (ioFailed_orch hd.orch left).trans (by rw [hu.chip]),
      (ioFailed_sink hd.scanA hd.orch left).trans (by rw [hd.sink, hu.chip, hu.sink]), hd.chip.trans hu.chip,
      hd.writeCycles.trans hu.writeCycles, rfl, hd.bus.trans (by rw [hu.dOut]), hd.chain.trans (by rw [hu.chain])⟩

end Sys2Proof.Machine
end

section
/-! PROOFS. The address serializer: what `shift(v)` leaves, the shift stage on the way (O15) and the latch stage (O16), SHIFT_ADDR (O17),
and OP_VERIFY_WRITTEN over a stream that ends (O44). -/

namespace Sys2Proof.Machine

open Sys2Proof.Config

/-! ### The shift stage -/

/-- `SR = {v[n-1:0], SR_old[23:n]}` as one value (R87). -/
theorem srAfter_eq (n : Nat) (x sr : Addr) (hn : n ≤ 24) : srAfter n x sr = (x <<< (24 - n)) ||| (sr >>> n) := by
  apply BitVec.eq_of_getLsbD_eq
  intro j hj
  rw [srAfter_bit n x sr hn j hj, BitVec.getLsbD_or, BitVec.getLsbD_shiftLeft, BitVec.getLsbD_ushiftRight, Nat.add_comm n j]
  by_cases h : j + n < 24
  · simp [h, show j < 24 - n by omega]
  · have hold : sr.getLsbD (j + n) = false := BitVec.getLsbD_of_ge sr _ (by omega)
    simp [h, hj, hold, show ¬ j < 24 - n by omega, show j - (24 - n) = j + n - 24 by omega]

/-- The shift stage after `n` turns of the bit loop, none included. -/
theorem shiftBits_sr (n : Nat) (s : State) (h : s.chain.srclk = false) :
    (runMicros (shiftBitsOps n) s).chain.sr = srAfter n s.hidden.shiftV s.chain.sr := by
  cases n with
  | zero => rfl
  | succ n => rw [shiftBits_turns n s h]

/-- Settles O15: `shift_eq`, and the shift stage bit by bit. -/
theorem shiftLeavesItsValueInTheChain : Obligations.ShiftLeavesItsValueInTheChain := by
  intro v s h
  obtain ⟨hs, hr⟩ := chain_rest h
  refine ⟨⟨_, shift_eq v s hs hr⟩, fun k hk => ?_⟩
  rw [runMicros_cons, shiftBits_sr k (applyMicro (.loadShift v) s) hs]
  exact srAfter_eq k v s.chain.sr hk

/-! ### The latch stage -/

theorem weRises_chain (s : State) : (weRises s).chain = s.chain := by
  unfold weRises
  split <;> rfl

/-- Since `s` neither Q nor the latch line has moved. -/
def LatchHeld (s t : State) : Prop := t.chain.q = s.chain.q ∧ t.chain.rclk = s.chain.rclk

theorem LatchHeld.trans {s t u : State} (h : LatchHeld s t) (h' : LatchHeld t u) : LatchHeld s u :=
  ⟨h'.1.trans h.1, h'.2.trans h.2⟩

/-- Only a drive of the latch line moves it, and with it Q (R22). -/
theorem applyMicro_latchHeld {m : MicroOp} (hm : ∀ b, m ≠ .drive .rclk b) (s : State) : LatchHeld s (applyMicro m s) := by
  cases m with
  | drive p b =>
    cases p with
    | rclk => exact absurd rfl (hm b)
    | srclk =>
      simp only [LatchHeld, applyMicro, drivePin, setChain_chain]
      split <;> exact ⟨rfl, rfl⟩
    | weN =>
      simp only [LatchHeld, applyMicro, drivePin, setBus_chain]
      split
      · rw [weRises_chain]
        exact ⟨rfl, rfl⟩
      · exact ⟨rfl, rfl⟩
    | ceN | oeN => exact ⟨rfl, rfl⟩
  | _ => exact ⟨rfl, rfl⟩

/-- The bit loop does not drive the latch line (R85). -/
theorem shiftLoop_not_rclk {v : Addr} {n : Nat} {m : MicroOp} (hm : m ∈ .loadShift v :: shiftBitsOps n) (b : Bool) :
    m ≠ .drive .rclk b := by
  rintro rfl
  rcases List.mem_cons.mp hm with hm | hm
  · cases hm
  · have := shiftBits_mem n _ hm
    simp [shiftBitOps, driveWait] at this

/-- Q and the latch line stand still in every state of the bit loop and at its end. -/
theorem shiftLoop_latchHeld (v : Addr) (n : Nat) (s : State) :
    (∀ t ∈ microTrace (.loadShift v :: shiftBitsOps n) s, LatchHeld s t) ∧
      LatchHeld s (runMicros (.loadShift v :: shiftBitsOps n) s) :=
  microTrace_invariant (LatchHeld s) _ s ⟨rfl, rfl⟩ fun _ hm u hu => hu.trans (applyMicro_latchHeld (shiftLoop_not_rclk hm) u)

/-- The rising edge of the latch line: `Q <- SR` (R22). -/
theorem rclkRises_q (s : State) (h : s.chain.rclk = false) : (applyMicro (.drive .rclk true) s).chain.q = s.chain.sr := by
  simp [applyMicro, drivePin, pinLevel, h, Chain.latchEdge]

/-- The end of the latch pulse keeps Q: it has no rising edge (R85). -/
theorem latchEnd_q (s : State) : ∀ t ∈ microTrace [.wait .settle, .drive .rclk false, .wait .settle] s, t.chain.q = s.chain.q := by
  simp [microTrace, applyMicro, drivePin]

/-- Settles O16: the bit loop leaves Q and the latch line, the rising edge copies SR, which is `v` then, and what follows has no other. -/
theorem latchIsAtomic : Obligations.LatchIsAtomic := by
  intro v s h before after
  obtain ⟨hs, hr⟩ := chain_rest h
  obtain ⟨htrace, -, hrclk⟩ := shiftLoop_latchHeld v srBits s
  have hsr : (runMicros before s).chain.sr = v := by
    rw [runMicros_cons, shiftBits_sr srBits (applyMicro (.loadShift v) s) hs]
    exact srAfter_all v s.chain.sr
  refine ⟨rfl, fun t ht => ⟨(htrace t ht).1, (htrace t ht).2.trans hr⟩, fun t ht => ?_, by rw [shift_eq v s hs hr]⟩
  rw [latchEnd_q _ t ht, rclkRises_q _ (hrclk.trans hr), hsr]

/-! ### SHIFT_ADDR -/

/-- Settles O17: `shift_eq`, then the response. -/
theorem shiftAddrLatchesItsAddress : Obligations.ShiftAddrLatchesItsAddress := by
  intro a s h
  obtain ⟨hs, hr⟩ := chain_rest h
  refine ⟨?_, rfl⟩
  rw [exec_eq_runProgram, program, progShiftAddr, runProgram_ok rfl, shift_eq a s hs hr]
  rfl

/-! ### OP_VERIFY_WRITTEN -/

theorem exec_opVerifyWritten {bs : List Byte} {left : List SrcAnswer} {s : State} (h : Ready s)
    (hst : StreamTaken s.env.answers bs left) :
    ∃ t, exec .opVerifyWritten s = .next (phaseEnded .verifyingWritten t) ∧ VerifyDone .verifyingWritten bs s t ∧
      t.env.answers = left ∧ (s.srcReq = false → t.srcReq = false) := by
  obtain ⟨t, hrun, hscan, -, ha, hq⟩ := verifyWrittenPhase_run operationDone bs left s h hst
  exact ⟨t, congrArg Host.Outcome.next hrun, VerifyDone.of_scanned h hst.1 hscan, ha, hq⟩

theorem phaseEnded_orch {p q : Phase} {c n : Count} {t : State} (h : t.orch = ⟨p, c, n⟩) :
    (phaseEnded q t).orch = ⟨.idle, c, n⟩ := by
  show { t.orch with phase := .idle } = _
  rw [h]

theorem phaseEnded_sink {p q : Phase} {c n : Count} {t : State} (h : t.orch = ⟨p, c, n⟩) :
    (phaseEnded q t).env.sink = doneEvent q n c :: t.env.sink := by
  show doneEvent q t.orch.resNext t.orch.resCount :: t.env.sink = _
  rw [h]

/-- Settles O44: `exec_opVerifyWritten`, and PHASE_DONE and the response after it. -/
theorem opVerifyWrittenComparesTheStream : Obligations.OpVerifyWrittenComparesTheStream := by
  intro s bs left h hreq hst
  obtain ⟨t, hexec, hd, ha, hq⟩ := exec_opVerifyWritten h hst
  exact ⟨_, hexec, hd.frame.ended (hq hreq) .verifyingWritten, phaseEnded_orch hd.orch,
    (phaseEnded_sink hd.orch).trans (by rw [hd.sink]), hd.bus, hd.chip, ha, hd.writeCycles, hd.chain⟩

end Sys2Proof.Machine
end

section
/-! PROOFS. The bus mode multiplexer: ENTER_READ, ENTER_WRITE and SET_DATA as a whole (O18 to O22), and the mode errors of SET_DATA and
READ_BYTE (O23, O25). -/

namespace Sys2Proof.Machine

/-! ### Entering Read mode -/

/-- Settles O18: `exec_enterRead`. -/
theorem enterReadGivesReadMode : Obligations.EnterReadGivesReadMode := exec_enterRead

/-- R92: `enterRead()` sets the mode, CE#, OE# and the direction without reading them. -/
theorem enterRead_withLines (s : State) (m : BusMode) (ce oe dd : Bool) :
    enterRead { s with bus := ⟨m, ce, oe, s.bus.weN, dd, s.bus.dOut⟩ } = enterRead s := by
  rw [enterRead_eq, enterRead_eq]

/-- Settles O19: a second `enterRead()` finds the first's lines, which it does not depend on. -/
theorem enterReadIsIdempotent : Obligations.EnterReadIsIdempotent := by
  refine ⟨enterRead_withLines, fun s => ?_, fun s => ?_⟩
  · rw [enterRead_eq]
    exact ⟨rfl, rfl, rfl⟩
  · rw [enterRead_eq (enterRead s), enterRead_eq s]

/-! ### Entering Write mode -/

/-- Settles O20: between operations WE# rests high, so the drive of WE# is no edge (R25). -/
theorem enterWriteGivesWriteMode : Obligations.EnterWriteGivesWriteMode := by
  intro s h
  rw [exec_eq_runProgram, program, progEnterWrite, runProgram_ok rfl, enterWrite_eq s (settled_we h)]
  rfl

/-- R94: the lines after `enterWrite()` from any state, WE# low included: each has its own drive in the list, and the write cycle that a
rising WE# can make moves no pin. -/
theorem enterWrite_bus (s : State) : (enterWrite s).bus = ⟨.write, false, true, true, true, 0x00⟩ := rfl

/-- Settles O21: `enterWrite_bus`, before the byte is set and after. -/
theorem enterWriteForcesDataToZero : Obligations.EnterWriteForcesDataToZero :=
  fun s => ⟨enterWrite_bus s, congrArg Bus.dOut (enterWrite_bus (setData 0x55 (enterWrite s)))⟩

/-! ### SET_DATA in Write mode -/

/-- R95, R99: past its check SET_DATA is `setData(b)` and its response. -/
theorem exec_setData {s : State} (hm : s.bus.mode = .write) (d : Byte) :
    exec (.setData d) s = .next (responded .ok 0x00 (setData d s)) := by
  rw [exec_eq_runProgram, program, progSetData, runProgram_require hm]
  rfl

/-- Settles O22: the block drives already in Write mode, so d_out alone changes. -/
theorem setDataDrivesItsByte : Obligations.SetDataDrivesItsByte := by
  intro d s h hm
  obtain ⟨hdrive, hoe, -⟩ := settled_write hm h
  rw [exec_setData hm, setData_eq d s hoe, ← hdrive]
  rfl

/-! ### Mode errors -/

/-- R134: an error is its response and FAULT. -/
theorem raiseErr_eq_responded (e : Status) (s : State) : raiseErr e s = responded e 0x00 { s with fault := true } := rfl

/-- R134, R137, R138: a command whose mode check fails sets FAULT and responds; what it holds behind the check does not run. -/
theorem exec_of_wrong_mode {i : Instr} {m : BusMode} {e : Status} {rest : List Item} {s : State}
    (hi : program i = .require m e :: rest) (hm : s.bus.mode ≠ m) :
    exec i s = .next (responded e 0x00 { s with fault := true }) := by
  rw [exec_eq_runProgram, hi, runProgram_require_fails hm, raiseErr_eq_responded]

/-- Settles O23: the check of SET_DATA is for Write mode. -/
theorem setDataOutsideWriteModeIsRefused : Obligations.SetDataOutsideWriteModeIsRefused :=
  fun _ _ => exec_of_wrong_mode rfl

/-- Settles O25: the check of READ_BYTE is for Read mode. -/
theorem readByteOutsideReadModeIsRefused : Obligations.ReadByteOutsideReadModeIsRefused :=
  fun _ _ => exec_of_wrong_mode rfl

end Sys2Proof.Machine
end

section
/-! PROOFS. `ensureWrite()` from a pin setting of R25 (O28), and OP_ERASE, the erase sequence between the two events of its phase (O39). -/

namespace Sys2Proof.Machine

open Sys2Proof.Config

/-! ### OP_ERASE -/

/-- R113 to R115: Erasing counts nothing, so PHASE_DONE carries the zero results of `beginPhase`, and the pins, the chain and the chip are
those of the six pairs sent from `s`, which no register or event of the phase touches. -/
theorem phaseEnded_erasingDone (s : State) :
    phaseEnded .erasing (erasingDone s) =
      responded .ok 0x00
        { sequenceSent erasePairs (protocolAddr 0x5555) 0x10 s with
          orch := ⟨.idle, 0, 0⟩
          ev := doneEvent .erasing 0 0
          env := { (sequenceSent erasePairs (protocolAddr 0x5555) 0x10 s).env with
            sink := doneEvent .erasing 0 0 :: startEvent .erasing :: s.env.sink } } := rfl

/-- Settles O39: `exec_opErase` and `phaseEnded_erasingDone`, the pairs written as 24-bit addresses. -/
theorem opEraseErasesAsAPhase : Obligations.OpEraseErasesAsAPhase :=
  fun s h => (exec_opErase s h).trans (congrArg Host.Outcome.next (phaseEnded_erasingDone s))

/-! ### `ensureWrite()` -/

theorem ensureWrite_of_write {s : State} (hm : s.bus.mode = .write) : ensureWrite s = s := by
  rw [ensureWrite, ensureWriteOps, if_pos hm, runMicros_nil]

theorem ensureWrite_of_not_write {s : State} (hm : s.bus.mode ≠ .write) : ensureWrite s = enterWrite s := by
  rw [ensureWrite, ensureWriteOps, if_neg hm, enterWrite]

/-- Settles O28: in Write mode its pins are those of R25 already, in the other modes they are those of `enterWrite_bus`. -/
theorem ensureWriteEntersWriteModeOnce : Obligations.EnsureWriteEntersWriteModeOnce := by
  intro s h
  refine ⟨ensureWrite_of_write, ensureWrite_of_not_write, ?_⟩
  by_cases hm : s.bus.mode = .write
  · obtain ⟨hdrive, hoe, -⟩ := settled_write hm h
    rw [ensureWrite_of_write hm]
    exact ⟨hm, hdrive, hoe⟩
  · rw [ensureWrite_of_not_write hm, enterWrite_bus]
    exact ⟨rfl, rfl, rfl⟩

end Sys2Proof.Machine
end

section
/-! PROOFS. A request that is not answered (O14): the states in which the block waits, each of which is its own next state. -/

namespace Sys2Proof.Machine

open Sys2Proof.Config

/-- The block stands at a request that it has raised and the source does not answer, `rst` and both pulses being low (R38 to R40,
R127). -/
structure Unanswered (s : State) : Prop where
  unmarked : s.safetyFault = false
  quiet : contention s = false
  pulses : s.pulses = ⟨false, false⟩
  busy : s.busy = true
  srcReq : s.srcReq = true
  answers : s.env.answers = []
  rstLow : s.env.rstEdges = 0
  seq : ∃ l rest, s.seq = .reqByte l :: rest

theorem Unanswered.of_stuck {s : State} (hs : s.safetyFault = false) (hc : contention s = false) (hp : s.pulses = ⟨false, false⟩)
    (h : stuckOnSource s = true) : Unanswered s := by
  unfold stuckOnSource at h
  split at h
  · next l rest hq =>
    simp only [Bool.and_eq_true, List.isEmpty_iff, beq_iff_eq] at h
    obtain ⟨⟨⟨hb, hr⟩, ha⟩, hrst⟩ := h
    exact ⟨hs, hc, hp, hb, hr, ha, hrst, l, rest, hq⟩
  · cases h

/-- A request that is open already is raised again: nothing changes. -/
theorem Unanswered.waitForByte_eq {s : State} (h : Unanswered s) {l : ByteLoop} {rest : List Item} (hq : s.seq = .reqByte l :: rest) :
    waitForByte l rest s = s := by
  rw [waitForByte, ← hq, ← h.srcReq]
  show { s with pulses := ⟨false, false⟩ } = s
  rw [← h.pulses]

theorem Unanswered.step_eq {s : State} (h : Unanswered s) : step s = .next s := by
  obtain ⟨l, rest, hq⟩ := h.seq
  have hturn : runItem (.reqByte l) rest s = .stop (waitForByte l rest s) := by
    simp only [runItem, requestTurn, h.answers]
  rw [step_busy s h.unmarked h.quiet h.rstLow h.busy, hq, runProgram_stop hturn, h.waitForByte_eq hq]

theorem Unanswered.microStep_eq {s : State} (h : Unanswered s) (T : Timing) : microStep T s = s := by
  obtain ⟨l, rest, hq⟩ := h.seq
  have hcycle : microItem T (.reqByte l) rest s = waitForByte l rest s := by
    simp only [microItem, requestCycle, h.answers, waitForByte, ← hq]
  rw [microStep_busy T _ rest s h.unmarked h.quiet h.rstLow h.busy hq, hcycle, h.waitForByte_eq hq]

theorem Unanswered.microRun_eq {s : State} (h : Unanswered s) (T : Timing) (n : Nat) : microRun T n s = s := by
  induction n with
  | zero => rfl
  | succ n ih => rw [microRun, h.microStep_eq T, ih]

/-- The request does not look at the command port (R36). -/
theorem Unanswered.present {s : State} (h : Unanswered s) (w : CmdWord) : Unanswered (envMove (.present w) s) := { h with }

/-- Settles O14: the state is `Unanswered` with or without a presented word, and a reset edge leaves the power-up value of BUSY. -/
theorem unansweredRequestWaitsForever : Obligations.UnansweredRequestWaitsForever := by
  intro T s hs hc hp hstuck
  have h := Unanswered.of_stuck hs hc hp hstuck
  have hreset : microStep T (envMove (.holdReset 1) s) = resetEdge (envMove (.holdReset 1) s) :=
    microStep_reset T (envMove (.holdReset 1) s) hs hc Nat.one_ne_zero
  exact ⟨h.busy, h.srcReq, h.step_eq, h.microRun_eq T, fun n w => (h.present w).microRun_eq T n, by rw [hreset]; rfl⟩

end Sys2Proof.Machine
end

section
/-! PROOFS. OP_VERIFY_ERASED on any chip (O40), and OP_PROGRAM over two passes of a stream that ends (O47). -/

namespace Sys2Proof.Machine

open Sys2Proof.Config

/-- Settles O40: the scan of VerifyingErased over the whole chip, and PHASE_DONE and the response after it. -/
theorem opVerifyErasedCountsEveryMismatch : Obligations.OpVerifyErasedCountsEveryMismatch := by
  intro s h hreq
  obtain ⟨t, hrun, hscan, ha, hq⟩ := verifyErasedPhase_run operationDone s h
  have hd := VerifyDone.of_scanned h (Nat.le_of_eq List.length_replicate) hscan
  have horch := hd.orch
  have hchain := hd.chain
  rw [List.length_replicate] at horch hchain
  exact ⟨phaseEnded .verifyingErased t, congrArg Host.Outcome.next hrun, hd.frame.ended (hq.trans hreq) .verifyingErased,
    phaseEnded_orch horch, (phaseEnded_sink horch).trans (congrArg _ hd.sink), hd.bus, hchain, hd.chip, ha, hd.writeCycles⟩

/-- OP_PROGRAM with both passes ended: three phases have left `u`, VerifyingWritten leaves `t` (R124, R125). -/
theorem exec_opProgram {bs cs : List Byte} {mid left : List SrcAnswer} {s : State} (h : Ready s)
    (hbs : StreamTaken s.env.answers bs mid) (hcs : StreamTaken mid cs left) :
    ∃ u t, exec .opProgram s = .next (phaseEnded .verifyingWritten t) ∧ Programmed bs mid s u ∧
      VerifyDone .verifyingWritten cs u t ∧ t.env.answers = left ∧ (s.srcReq = false → t.srcReq = false) := by
  obtain ⟨u, hstart, hu⟩ := progOpProgram_written h hbs
  obtain ⟨t, hrun, hscan, -, ha, hq⟩ := verifyWrittenPhase_run operationDone cs left u hu.ready (hu.answers ▸ hcs)
  exact ⟨u, t, congrArg Host.Outcome.next (hstart.trans hrun), hu, VerifyDone.of_scanned hu.ready hcs.1 hscan, ha,
    fun hreq => hq (hu.srcReq hreq)⟩

/-- The events of the first two phases, written one by one (R115, R116). -/
theorem eventsBeforeWriting_append (blank : Chip) (es : List Event) :
    eventsBeforeWriting blank ++ es =
      doneEvent .verifyingErased 0x80000 (BitVec.ofNat 20 (mismatches blank 0 (List.replicate maxAddress 0xFF))) ::
        ((scanEvents .verifyingErased blank 0 0 (List.replicate maxAddress 0xFF)).reverse ++
          startEvent .verifyingErased :: doneEvent .erasing 0 0 :: startEvent .erasing :: es) := by
  rw [eventsBeforeWriting, verifyEvents, List.length_replicate]
  simp only [List.cons_append, List.append_assoc, List.nil_append]
  rfl

/-- Settles O47: what VerifyingWritten leaves of the state three phases have left, and PHASE_DONE and the response after it. -/
theorem opProgramRunsTheFourPhases : Obligations.OpProgramRunsTheFourPhases := by
  intro s bs cs mid left h hreq hbs hcs
  obtain ⟨u, t, hexec, hu, hd, ha, hq⟩ := exec_opProgram h hbs hcs
  have horch := hd.orch
  have hsink := hd.sink
  rw [hu.chip] at horch hsink
  rw [hu.sink, eventsBeforeWriting_append] at hsink
  exact ⟨_, hexec, (hu.frame.trans hd.frame).ended (hq hreq) .verifyingWritten, phaseEnded_orch horch, hd.chip.trans hu.chip,
    (phaseEnded_sink horch).trans (congrArg _ hsink), hd.writeCycles.trans hu.writeCycles, ha, hd.bus.trans (by rw [hu.dOut]),
    (hd.ready hu.ready).1, hd.chain.trans (by rw [hu.chain])⟩

end Sys2Proof.Machine
end

section
/-! PROOFS. PHASE and R112's table (O52): the entries of SEQ that write PHASE, each as `Planned` admits it, and the commands whose lists
hold no such entry. -/

namespace Sys2Proof.Machine

open Sys2Proof.Config

/-! ### A micro-step -/

/-- PHASE after an entry of SEQ is taken: `beginPhase(p)` and `PHASE <- p` write it (R31, R112). -/
def Item.phaseAfter : Item → Phase → Phase
  | .beginPhase p, _ | .setPhase p, _ => p
  | _, q => q

theorem microItem_phase (T : Timing) (i : Item) (rest : List Item) (s : State) :
    (microItem T i rest s).orch.phase = i.phaseAfter s.orch.phase := by
  cases i with
  | micro m =>
    cases m with
    | wait t | waiting => rfl
    | _ => exact phase_applyMicro _ s
  | require | compareRecord | scanErased | byteLoop => simp only [microItem]; split <;> rfl
  | reqByte l =>
    simp only [microItem, requestCycle]
    split
    · rfl
    · split <;> rfl
  | sample u => cases u <;> rfl
  | gotByte l r => cases r <;> rfl
  | _ => rfl

/-- The rows of R112's table that an entry of SEQ makes: PHASE is written by a `beginPhase(p)` the table admits, by the write of an
abort, or by the last write of a workflow operation. -/
theorem planned_phaseAfter {i : Item} {rest : List Item} {v : View} (hp : planned (i :: rest) v = true)
    (hne : i.phaseAfter v.phase ≠ v.phase) :
    (∃ p, i = .beginPhase p ∧ v.phase.mayBegin p = true) ∨
      (i = .setPhase .failed ∧ rest = [.respond .eIo 0x00] ∧ v.phase.reads = true) ∨
      (i = .setPhase .idle ∧ rest = [.respond .ok 0x00] ∧ v.phase.runs = true) := by
  cases i with
  | beginPhase p =>
    simp only [planned, Bool.and_eq_true] at hp
    exact .inl ⟨p, rfl, hp.1⟩
  | setPhase p =>
    simp only [planned, Bool.and_eq_true, Bool.or_eq_true, beq_iff_eq] at hp
    obtain ⟨⟨⟨rfl, hv⟩, hrest⟩ | ⟨⟨rfl, hv⟩, hrest⟩, -⟩ := hp
    · exact .inr (.inr ⟨rfl, hrest, hv⟩)
    · exact .inr (.inl ⟨rfl, hrest, hv⟩)
  | _ => exact absurd rfl hne

/-- Acceptance changes PHASE in Failed only (R112, R145). -/
theorem Phase.failed_of_onAccept {p : Phase} (h : p.onAccept ≠ p) : p = .failed :=
  Decidable.byContradiction fun hp => h (by rw [Phase.onAccept_eq, if_neg hp])

/-! ### The commands that leave PHASE -/

/-- The entries of the lists of commands 0x1 to 0x7 and of the reserved opcodes. -/
def Item.primitive : Item → Bool
  | .micro _ | .shift _ | .enterRead | .enterWrite | .writeByte _ _ | .eraseChip | .require _ _ | .raiseErr _
  | .sample .toHost | .respond _ _ => true
  | _ => false

/-- PHASE in the state in which a flow goes on or stops. -/
def Flow.phase : Flow → Phase
  | .goOn s | .stop s => s.orch.phase

theorem writeByte_phase (a : Addr) (b : Byte) (s : State) : (writeByte a b s).orch.phase = s.orch.phase := by
  rw [writeByte, phase_runMicros, ensureWrite, phase_runMicros]

theorem eraseChip_phase (s : State) : (eraseChip s).orch.phase = s.orch.phase := by
  rw [eraseChip, phase_runMicros, ensureWrite, phase_runMicros]

theorem runItem_phase {i : Item} (hi : i.primitive = true) (rest : List Item) (s : State) :
    (runItem i rest s).phase = s.orch.phase := by
  cases i with
  | micro m => exact phase_applyMicro m s
  | shift v => exact phase_runMicros _ s
  | enterRead => exact phase_runMicros _ s
  | enterWrite => exact phase_runMicros _ s
  | writeByte a b => exact writeByte_phase a b s
  | eraseChip => exact eraseChip_phase s
  | require m e => simp only [runItem]; split <;> rfl
  | raiseErr e => rfl
  | sample u =>
    cases u with
    | toHost => rfl
    | compareWith e => cases hi
  | respond st d => rfl
  | _ => cases hi

theorem runProgram_phase {is : List Item} (h : ∀ i ∈ is, i.primitive = true) (s : State) :
    (runProgram is s).orch.phase = s.orch.phase := by
  induction is generalizing s with
  | nil => rfl
  | cons i rest ih =>
    rw [List.forall_mem_cons] at h
    have hi := runItem_phase h.1 rest s
    cases hflow : runItem i rest s with
    | goOn t =>
      rw [hflow] at hi
      rw [runProgram_goOn hflow, ih h.2 t]
      exact hi
    | stop t =>
      rw [hflow] at hi
      rw [runProgram_stop hflow]
      exact hi

theorem program_primitive {i : Instr} (h : i.opcode.toNat < 0x8 ∨ 0xC < i.opcode.toNat) :
    ∀ e ∈ program i, e.primitive = true := by
  rw [← List.all_eq_true]
  cases i with
  | opErase | opVerifyErased | opWrite | opVerifyWritten | opProgram => exact absurd h (by decide)
  | _ => rfl

/-- Settles O52: an entry of SEQ by `planned_phaseAfter`, an acceptance by `Phase.failed_of_onAccept`, the commands by their lists. -/
theorem phaseChangesOnlyAsTheTableSays : Obligations.PhaseChangesOnlyAsTheTableSays := by
  refine ⟨fun T s hreach hne => ?_, fun T s hreach hr => ?_, fun i s t hop hexec => ?_⟩
  · rcases microStep_cases T s (planned_of_reachable T s hreach) with
      ⟨hr, h⟩ | ⟨-, -, -, -, h⟩ | ⟨-, hb, i, rest, hq, hp, h⟩ | ⟨-, -, -, h⟩ | ⟨hr, hb, w, ws, hw, h⟩ <;> rw [h] at hne ⊢
    · exact .inl ⟨hr, rfl⟩
    · exact absurd rfl hne
    · rw [microItem_phase] at hne ⊢
      rw [hq]
      rcases planned_phaseAfter hp hne with ⟨p, rfl, hv⟩ | ⟨rfl, rfl, hv⟩ | ⟨rfl, rfl, hv⟩
      · exact .inr (.inr (.inl ⟨hb, p, rest, rfl, hv, rfl⟩))
      · exact .inr (.inr (.inr (.inl ⟨hb, rfl, hv, rfl⟩)))
      · exact .inr (.inr (.inr (.inr ⟨hb, rfl, hv, rfl⟩)))
    · exact absurd rfl hne
    · have hfailed : s.orch.phase = .failed := Phase.failed_of_onAccept hne
      exact .inr (.inl ⟨hr, hb, by rw [hw]; exact List.cons_ne_nil w ws, hfailed, congrArg Phase.onAccept hfailed⟩)
  · have hp := planned_of_reachable T s hreach
    rw [microStep_reset T s hp.unmarked (contention_of_quiet hp.quiet) hr]
    rfl
  · rw [exec_eq_runProgram] at hexec
    obtain rfl := Host.Outcome.next.inj hexec
    exact runProgram_phase (program_primitive hop) s

end Sys2Proof.Machine
end

section
/-! PROOFS. lastAddressProcessed (O49): RES_NEXT after a scan is the number of bytes scanned, which the register holds exactly. -/

namespace Sys2Proof.Machine

open Sys2Proof.Config

/-- R131, R32: a number `n` of processed addresses fits RES_NEXT, so RES_NEXT reads 0 only where `n` is 0. -/
theorem lastAddressProcessed_of_resNext {s : State} {n : Nat} (h : s.orch.resNext = BitVec.ofNat 20 n) (hn : n ≤ maxAddress) :
    lastAddressProcessed s = if n = 0 then none else some (BitVec.ofNat 20 (n - 1)) := by
  have hlt : n < 2 ^ 20 := Nat.lt_of_le_of_lt hn (by decide)
  have hnum : (BitVec.ofNat 20 n).toNat = n := Nat.mod_eq_of_lt hlt
  rw [lastAddressProcessed, h]
  by_cases h0 : n = 0
  · subst h0
    rfl
  · have hne : BitVec.ofNat 20 n ≠ 0 := fun hz => h0 (hnum.symm.trans (congrArg BitVec.toNat hz))
    have hpred : BitVec.ofNat 20 n - 1 = BitVec.ofNat 20 (n - 1) :=
      BitVec.ofNat_sub_ofNat_of_le n 1 (by decide) (Nat.one_le_iff_ne_zero.mpr h0)
    rw [if_neg hne, if_neg h0, hpred]

theorem VerifyDone.lastAddressProcessed {p : Phase} {es : List Byte} {s t : State} (h : VerifyDone p es s t)
    (hl : es.length ≤ maxAddress) :
    lastAddressProcessed (phaseEnded p t) = if es.length = 0 then none else some (BitVec.ofNat 20 (es.length - 1)) :=
  lastAddressProcessed_of_resNext (congrArg Orch.resNext (phaseEnded_orch h.orch)) hl

/-- Settles O49: the first clause defines it; a scan of `es` leaves one below `es.length`, and the whole chip is MAX_ADDRESS bytes. -/
theorem lastAddressIsOneBelowTheNext : Obligations.LastAddressIsOneBelowTheNext := by
  refine ⟨fun _ => rfl, fun s h => ?_, fun s bs left h hst => ?_⟩
  · obtain ⟨t, hexec, hd⟩ := exec_opVerifyErased s h
    have hlast := hd.lastAddressProcessed (Nat.le_of_eq List.length_replicate)
    rw [List.length_replicate] at hlast
    exact ⟨_, hexec, hlast⟩
  · obtain ⟨t, hexec, hd, -, -⟩ := exec_opVerifyWritten h hst
    have hlast := hd.lastAddressProcessed hst.1
    simp only [List.length_eq_zero_iff] at hlast
    exact ⟨_, hexec, hlast⟩

end Sys2Proof.Machine
end
